-- ==== Sys2Proof/Word.lean ====
section
/-! DEFINITION. The words of the machine: register cells, bytes, register numbers. -/

namespace Sys2Proof

/-- A cell that holds an XLEN-bit value. XLEN is a parameter, 32 or 64 (00_scope.md R5): a cell has 64 bits,
and with XLEN = 32 only its low 32 bits are used (`Machine.Config.zx` of Machine/Params.lean cuts a value to XLEN
bits). -/
abbrev Word := BitVec 64

/-- A byte of the program text (20_memory.md R106). -/
abbrev Byte := BitVec 8

/-- A 5-bit register field of an instruction: the number of an integer or vector register (30_encoding.md R121). -/
abbrev RegNo := BitVec 5

end Sys2Proof
end

