-- ==== Sys2Proof/Syntax.lean ====
section
/-! DEFINITION. The instructions of spec/opcode_table.json, one constructor a row, and the CSR operand. -/

namespace Sys2Proof

/-- The CSR operand of a CSR-access instruction: one of the seven vector CSRs (10_state.md R20), or an address that
belongs to `Base` and is outside the spec (30_encoding.md R130). -/
inductive Csr where
  | vstart
  | vxsat
  | vxrm
  | vcsr
  | vl
  | vtype
  | vlenb
  | base (addr : BitVec 12)
  deriving DecidableEq, Repr

/-- The nine instructions (30_encoding.md R135). Operands stand in assembly order. -/
inductive Instr where
  /-- 40_csr_access.md R162 -/
  | csrrw (rd : RegNo) (csr : Csr) (rs1 : RegNo)
  /-- 40_csr_access.md R163 -/
  | csrrs (rd : RegNo) (csr : Csr) (rs1 : RegNo)
  /-- 40_csr_access.md R164 -/
  | csrrc (rd : RegNo) (csr : Csr) (rs1 : RegNo)
  /-- 40_csr_access.md R165 -/
  | csrrwi (rd : RegNo) (csr : Csr) (uimm : BitVec 5)
  /-- 40_csr_access.md R166 -/
  | csrrsi (rd : RegNo) (csr : Csr) (uimm : BitVec 5)
  /-- 40_csr_access.md R167 -/
  | csrrci (rd : RegNo) (csr : Csr) (uimm : BitVec 5)
  /-- 41_vset_config.md R200 -/
  | vsetvli (rd rs1 : RegNo) (zimm : BitVec 11)
  /-- 41_vset_config.md R201 -/
  | vsetivli (rd : RegNo) (uimm : BitVec 5) (zimm : BitVec 10)
  /-- 41_vset_config.md R202 -/
  | vsetvl (rd rs1 rs2 : RegNo)
  deriving DecidableEq, Repr

end Sys2Proof
end

