-- ==== Sys2Proof/WellFormed.lean ====
section
/-! DEFINITION. Which instructions are in the scope of the spec. -/

namespace Sys2Proof

/-- A CSR operand is in scope when it is one of the seven vector CSRs (30_encoding.md R135: "The CSR rows are in scope
only when `csr[11:0]` is one of" the seven addresses). -/
def Csr.isVector : Csr → Bool
  | .base _ => false
  | .vstart | .vxsat | .vxrm | .vcsr | .vl | .vtype | .vlenb => true

/-- An instruction is well formed when its CSR operand, if it has one, is a vector CSR. Every other operand is a field
whose every value the encoding admits (30_encoding.md R121 to R124). -/
def Instr.wellFormed : Instr → Bool
  | .csrrw _ csr _ | .csrrs _ csr _ | .csrrc _ csr _ => csr.isVector
  | .csrrwi _ csr _ | .csrrsi _ csr _ | .csrrci _ csr _ => csr.isVector
  | .vsetvli _ _ _ | .vsetivli _ _ _ | .vsetvl _ _ _ => true

end Sys2Proof
end

