-- ==== Sys2Proof/Decode.lean ====
section
/-! DEFINITION. Decoding, total on any word and any bytes, rejecting by name; and the encoder, from the same tables. -/

namespace Sys2Proof

/-! ### CSR addresses (10_state.md R20) -/

/-- The CSR that a 12-bit address names. -/
def csrOfAddr (a : BitVec 12) : Csr :=
  if a = 0x008#12 then .vstart
  else if a = 0x009#12 then .vxsat
  else if a = 0x00A#12 then .vxrm
  else if a = 0x00F#12 then .vcsr
  else if a = 0xC20#12 then .vl
  else if a = 0xC21#12 then .vtype
  else if a = 0xC22#12 then .vlenb
  else .base a

/-- The 12-bit address of a CSR. -/
def csrAddr : Csr → BitVec 12
  | .vstart => 0x008#12
  | .vxsat => 0x009#12
  | .vxrm => 0x00A#12
  | .vcsr => 0x00F#12
  | .vl => 0xC20#12
  | .vtype => 0xC21#12
  | .vlenb => 0xC22#12
  | .base a => a

/-! ### Fields (30_encoding.md R121 to R124) -/

/-- bits 11:7 -/
def rdField (w : BitVec 32) : RegNo := w.extractLsb' 7 5
/-- bits 19:15: `rs1`, or `uimm` -/
def rs1Field (w : BitVec 32) : BitVec 5 := w.extractLsb' 15 5
/-- bits 24:20 of format VSETVL -/
def rs2Field (w : BitVec 32) : RegNo := w.extractLsb' 20 5
/-- bits 31:20 of format CSR -/
def csrField (w : BitVec 32) : BitVec 12 := w.extractLsb' 20 12
/-- bits 30:20 of format VSETVLI -/
def zimm11Field (w : BitVec 32) : BitVec 11 := w.extractLsb' 20 11
/-- bits 29:20 of format VSETIVLI -/
def zimm10Field (w : BitVec 32) : BitVec 10 := w.extractLsb' 20 10

/-! ### The opcode map (30_encoding.md R135) -/

/-- A row of the opcode map: `mask` selects the fixed bits, `pattern` gives their values. -/
structure OpcodeRow where
  mnemonic : String
  mask : BitVec 32
  pattern : BitVec 32
  deriving DecidableEq, Repr

/-- "a word w is the instruction when `w & mask = match`" (30_encoding.md R135). -/
def rowMatches (r : OpcodeRow) (w : BitVec 32) : Bool := w &&& r.mask == r.pattern

def rowCsrrw : OpcodeRow := ⟨"csrrw", 0x0000707F#32, 0x00001073#32⟩
def rowCsrrs : OpcodeRow := ⟨"csrrs", 0x0000707F#32, 0x00002073#32⟩
def rowCsrrc : OpcodeRow := ⟨"csrrc", 0x0000707F#32, 0x00003073#32⟩
def rowCsrrwi : OpcodeRow := ⟨"csrrwi", 0x0000707F#32, 0x00005073#32⟩
def rowCsrrsi : OpcodeRow := ⟨"csrrsi", 0x0000707F#32, 0x00006073#32⟩
def rowCsrrci : OpcodeRow := ⟨"csrrci", 0x0000707F#32, 0x00007073#32⟩
def rowVsetvli : OpcodeRow := ⟨"vsetvli", 0x8000707F#32, 0x00007057#32⟩
def rowVsetivli : OpcodeRow := ⟨"vsetivli", 0xC000707F#32, 0xC0007057#32⟩
def rowVsetvl : OpcodeRow := ⟨"vsetvl", 0xFE00707F#32, 0x80007057#32⟩

/-- All configuration instructions and their unassigned patterns: opcode 0x57 with bits 14:12 = `111`
(30_encoding.md R125). -/
def rowConfigSpace : OpcodeRow := ⟨"vset", 0x0000707F#32, 0x00007057#32⟩
/-- Opcode 0x57: with bits 14:12 other than `111`, the vector instructions outside the spec (30_encoding.md R125). -/
def rowVectorSpace : OpcodeRow := ⟨"vector", 0x0000007F#32, 0x00000057#32⟩
/-- A 32-bit word has bits 1:0 = `11` (30_encoding.md R120). -/
def rowFullWord : OpcodeRow := ⟨"word", 0x00000003#32, 0x00000003#32⟩

/-- The opcode map, one row per instruction. -/
def opcodeMap : List OpcodeRow :=
  [rowCsrrw, rowCsrrs, rowCsrrc, rowCsrrwi, rowCsrrsi, rowCsrrci, rowVsetvli, rowVsetivli, rowVsetvl]

/-- Why a word or a run of bytes is no instruction of the spec. -/
inductive DecodeError where
  /-- fewer than four bytes -/
  | truncated
  /-- bits 1:0 are not `11`: no instruction of the spec has such a form (30_encoding.md R120) -/
  | notFullWord
  /-- a configuration pattern with bits 31:30 = `10` and bits 29:25 not all zero: reserved (30_encoding.md R125) -/
  | reservedConfig
  /-- a vector instruction the scope leaves out (30_encoding.md R125, 00_scope.md R4) -/
  | vectorOutOfScope
  /-- an instruction of `Base` (00_scope.md R3) -/
  | baseInstruction
  deriving DecidableEq, Repr

/-- The instruction a 32-bit word is. -/
def decode (w : BitVec 32) : Except DecodeError Instr :=
  if rowMatches rowCsrrw w then .ok (.csrrw (rdField w) (csrOfAddr (csrField w)) (rs1Field w))
  else if rowMatches rowCsrrs w then .ok (.csrrs (rdField w) (csrOfAddr (csrField w)) (rs1Field w))
  else if rowMatches rowCsrrc w then .ok (.csrrc (rdField w) (csrOfAddr (csrField w)) (rs1Field w))
  else if rowMatches rowCsrrwi w then .ok (.csrrwi (rdField w) (csrOfAddr (csrField w)) (rs1Field w))
  else if rowMatches rowCsrrsi w then .ok (.csrrsi (rdField w) (csrOfAddr (csrField w)) (rs1Field w))
  else if rowMatches rowCsrrci w then .ok (.csrrci (rdField w) (csrOfAddr (csrField w)) (rs1Field w))
  else if rowMatches rowVsetvli w then .ok (.vsetvli (rdField w) (rs1Field w) (zimm11Field w))
  else if rowMatches rowVsetivli w then .ok (.vsetivli (rdField w) (rs1Field w) (zimm10Field w))
  else if rowMatches rowVsetvl w then .ok (.vsetvl (rdField w) (rs1Field w) (rs2Field w))
  else if rowMatches rowConfigSpace w then .error .reservedConfig
  else if rowMatches rowVectorSpace w then .error .vectorOutOfScope
  else if rowMatches rowFullWord w then .error .baseInstruction
  else .error .notFullWord

/-! ### Bytes: an instruction word is stored little-endian (20_memory.md R106) -/

/-- The four bytes of a word, the one of the lowest address first. -/
def wordBytes (w : BitVec 32) : List Byte :=
  [w.extractLsb' 0 8, w.extractLsb' 8 8, w.extractLsb' 16 8, w.extractLsb' 24 8]

/-- The word that four bytes hold, the one of the lowest address first. -/
def wordOfBytes (b0 b1 b2 b3 : Byte) : BitVec 32 := (b3 ++ b2 ++ b1 ++ b0 : BitVec (8 + 8 + 8 + 8))

/-- The instruction at the head of a run of bytes, and the bytes after it. -/
def decodeBytes : List Byte → Except DecodeError (Instr × List Byte)
  | b0 :: b1 :: b2 :: b3 :: rest => (decode (wordOfBytes b0 b1 b2 b3)).map fun i => (i, rest)
  | _ => .error .truncated

/-- The instruction the decoder reads from the table's bits `w`: the bits above `nbits` are zero. -/
def decodeTableWord (nbits w : Nat) : Option Instr :=
  match decodeBytes (wordBytes (BitVec.ofNat 32 (w % 2 ^ nbits))) with
  | .ok (i, _) => some i
  | .error _ => none

/-! ### The encoder -/

/-- Format CSR (30_encoding.md R121). -/
def encodeCsr (csr : BitVec 12) (rs1 : BitVec 5) (funct3 : BitVec 3) (rd : RegNo) : BitVec 32 :=
  (csr ++ rs1 ++ funct3 ++ rd ++ 0x73#7 : BitVec (12 + 5 + 3 + 5 + 7))

/-- Format VSETVLI (30_encoding.md R122). -/
def encodeVsetvli (zimm : BitVec 11) (rs1 rd : RegNo) : BitVec 32 :=
  (0b0#1 ++ zimm ++ rs1 ++ 0b111#3 ++ rd ++ 0x57#7 : BitVec (1 + 11 + 5 + 3 + 5 + 7))

/-- Format VSETIVLI (30_encoding.md R123). -/
def encodeVsetivli (zimm : BitVec 10) (uimm : BitVec 5) (rd : RegNo) : BitVec 32 :=
  (0b11#2 ++ zimm ++ uimm ++ 0b111#3 ++ rd ++ 0x57#7 : BitVec (2 + 10 + 5 + 3 + 5 + 7))

/-- Format VSETVL (30_encoding.md R124). -/
def encodeVsetvl (rs2 rs1 rd : RegNo) : BitVec 32 :=
  (0b1000000#7 ++ rs2 ++ rs1 ++ 0b111#3 ++ rd ++ 0x57#7 : BitVec (7 + 5 + 5 + 3 + 5 + 7))

/-- The word of an instruction. -/
def encode : Instr → BitVec 32
  | .csrrw rd csr rs1 => encodeCsr (csrAddr csr) rs1 0b001#3 rd
  | .csrrs rd csr rs1 => encodeCsr (csrAddr csr) rs1 0b010#3 rd
  | .csrrc rd csr rs1 => encodeCsr (csrAddr csr) rs1 0b011#3 rd
  | .csrrwi rd csr uimm => encodeCsr (csrAddr csr) uimm 0b101#3 rd
  | .csrrsi rd csr uimm => encodeCsr (csrAddr csr) uimm 0b110#3 rd
  | .csrrci rd csr uimm => encodeCsr (csrAddr csr) uimm 0b111#3 rd
  | .vsetvli rd rs1 zimm => encodeVsetvli zimm rs1 rd
  | .vsetivli rd uimm zimm => encodeVsetivli zimm uimm rd
  | .vsetvl rd rs1 rs2 => encodeVsetvl rs2 rs1 rd

end Sys2Proof
end

