-- ==== Sys2Proof/Config.lean ====
section
/-! DEFINITION. What an implementation fixes (00_scope.md R5 to R11) and the free values of the spec.

The parameters that are plain data are the fields of `Config`. The machine's state carries one `Config` that no step
changes, so a statement about every state holds for every implementation. The parameters that are functions, and the
draws of 10_state.md R86, are opaque constants: nothing can be proved of their values. -/

namespace Sys2Proof

/-- XLEN: 32 or 64 (00_scope.md R5). -/
inductive Xlen where
  | rv32
  | rv64
  deriving DecidableEq, Repr

/-- The selected element widths of this version: 8, 16, 32, 64 bits (10_state.md R33). -/
inductive Sew where
  | e8
  | e16
  | e32
  | e64
  deriving DecidableEq, Repr

/-- The register-group multipliers: 1/8, 1/4, 1/2, 1, 2, 4, 8 (10_state.md R37). -/
inductive Lmul where
  | mf8
  | mf4
  | mf2
  | m1
  | m2
  | m4
  | m8
  deriving DecidableEq, Repr

/-- The implementation parameters that are plain data. -/
structure Config where
  /-- XLEN (00_scope.md R5) -/
  xlen : Xlen
  /-- VLEN, bits per vector register (00_scope.md R6) -/
  vlen : Nat
  /-- ELEN, the widest element supported at any LMUL (00_scope.md R7) -/
  elen : Nat
  /-- the pairs for which supported(SEW, LMUL) holds (00_scope.md R9) -/
  supportedPairs : List (Sew × Lmul)
  /-- `reserved_traps` (30_encoding.md R146): true where the implementation is known to trap on reserved uses -/
  reservedTraps : Bool
  /-- `vstart_oob_traps` (60_exceptions.md R284): true where the implementation is known to trap -/
  vstartOobTraps : Bool
  /-- true where `legal_vstart` (60_exceptions.md R285) is known to hold of every value -/
  everyVstartLegal : Bool
  /-- `misa_v_writable` (10_state.md R29) -/
  misaVWritable : Bool
  /-- whether `Base` has compressed instructions, so that instructions lie at multiples of 2 (20_memory.md R107) -/
  compressed : Bool
  /-- the bits of `mstatus`, besides 10:9, that the restricted view `sstatus` shows (10_state.md R84) -/
  sstatusMask : Word
  deriving DecidableEq, Repr

/-- The four fields of `vtype` that `vill` = 0 leaves meaningful (10_state.md R31). -/
structure VFields where
  vma : Bool
  vta : Bool
  vsew : Sew
  vlmul : Lmul
  deriving DecidableEq, Repr

/-- The value of `vtype`: illegal (`vill` = 1, every other bit 0), or the four fields with `vill` = 0. "A model may
represent `vtype` as either "illegal" or a record of four fields" (10_state.md R45). -/
inductive VType where
  | illegal
  | legal (fields : VFields)
  deriving DecidableEq, Repr

/-- Why a trap is taken: the one exception of the spec (60_exceptions.md R280), or, under `Base`'s own number, a
synchronous exception or an asynchronous interrupt that stops a vector instruction at an element (R286). -/
inductive Cause where
  | illegalInstruction
  | exception (number : Nat)
  | interrupt (number : Nat)
  deriving DecidableEq, Repr

/-- The outcome Trap(cause, state) (00_scope.md R12): the cause, and the address of the instruction. -/
structure Trap where
  cause : Cause
  pc : Word
  deriving DecidableEq, Repr

/-- The state that belongs to `Base` and that taking a trap may change (60_exceptions.md R292). -/
structure BaseState where
  x : Vector Word 32
  pc : Word
  mstatusOther : Word
  misaOther : Word
  deriving DecidableEq, Repr, Inhabited

/-- What a tail bit of a mask result becomes (42_vector_instruction_frame.md R240). -/
inductive TailDraw where
  /-- the old bit -/
  | keep
  /-- the bit 1 -/
  | one
  /-- the bit that the operation would compute with `vl` = VLMAX -/
  | full
  deriving DecidableEq, Repr, Inhabited

/-- FREE VALUE. The implementation's choice of `vl` for VLMAX < AVL < 2*VLMAX (41_vset_config.md R196): a function of
AVL and VLMAX, the same on every call of one implementation. `chooseVl` of Machine/Params.lean puts it inside the
bounds of R196. Log entry 8. -/
opaque Config.chooseVlBetween (c : Config) (avl vlmax : Nat) : Nat

/-- FREE VALUE. `legal_vstart(I, vtype, vstart)` (60_exceptions.md R285) for a non-zero `vstart`; the instruction is
named by its word. Log entry 17. -/
opaque Config.legalVstart (c : Config) (word : BitVec 32) (vtype : VType) (vstart : Nat) : Bool

/-- FREE VALUE. `requires_vstart_zero(I)` (60_exceptions.md R283) of a vector instruction that the spec knows by its word
alone. Log entry 20. -/
opaque Config.requiresVstartZero (c : Config) (word : BitVec 32) : Bool

/-- FREE VALUE. The draw of 10_state.md R27 at the end of an instruction that left the vector state as it was: does
`VS` become Dirty all the same? Log entry 6. -/
opaque Config.drawDirty (draw : Nat) : Bool

/-- FREE VALUE. The draw `vs_spontaneous_dirty` (10_state.md R27): does `VS` become Dirty between two instructions?
Log entry 6. -/
opaque Config.drawSpontaneous (draw : Nat) : Bool

/-- FREE VALUE. The draw of 42_vector_instruction_frame.md R238 for one agnostic element: is it overwritten with ones?
Log entry 6. -/
opaque Config.drawOnes (draw element : Nat) : Bool

/-- FREE VALUE. The draw of 42_vector_instruction_frame.md R240 for one tail bit of a mask destination. Log entry 6. -/
opaque Config.drawMaskTail (draw bit : Nat) : TailDraw

/-- FREE VALUE. `Base.take_trap` (60_exceptions.md R292): what `Base` makes of its own state when it takes a trap.
Log entry 7. -/
opaque Config.takeTrap (c : Config) (draw : Nat) (t : Trap) (b : BaseState) : BaseState

end Sys2Proof
end

