-- ==== Sys2Proof/Machine/Params.lean ====
section
/-! DEFINITION. The quantities that the implementation parameters determine: widths, codes, VLMAX, the supported
configurations, and the reference implementation that the reset state takes. -/

namespace Sys2Proof.Machine

/-! ### XLEN (00_scope.md R5) -/

/-- XLEN in bits. -/
def xlenBits (c : Config) : Nat :=
  match c.xlen with
  | .rv32 => 32
  | .rv64 => 64

/-- The low XLEN bits of a cell, zero above: trunc_XLEN of the notation (00_scope.md section 5). -/
def zx (c : Config) (v : Word) : Word :=
  match c.xlen with
  | .rv32 => (v.setWidth 32).setWidth 64
  | .rv64 => v

/-- An unsigned number as an XLEN-bit value: zext_XLEN of a field, trunc_XLEN of a larger number. -/
def xword (c : Config) (n : Nat) : Word := zx c (BitVec.ofNat 64 n)

/-! ### SEW and LMUL (10_state.md R33, R37) -/

/-- SEW in bits. -/
def sewBits : Sew → Nat
  | .e8 => 8
  | .e16 => 16
  | .e32 => 32
  | .e64 => 64

/-- The code `vsew[2:0]`. -/
def sewCode : Sew → BitVec 3
  | .e8 => 0b000#3
  | .e16 => 0b001#3
  | .e32 => 0b010#3
  | .e64 => 0b011#3

/-- The width a code `vsew[2:0]` selects; the codes `100` to `111` are reserved (10_state.md R34). -/
def sewOfCode (v : BitVec 3) : Option Sew :=
  if v = 0b000#3 then some .e8
  else if v = 0b001#3 then some .e16
  else if v = 0b010#3 then some .e32
  else if v = 0b011#3 then some .e64
  else none

/-- Eight times LMUL, a whole number for every LMUL. -/
def lmulEighths : Lmul → Nat
  | .mf8 => 1
  | .mf4 => 2
  | .mf2 => 4
  | .m1 => 8
  | .m2 => 16
  | .m4 => 32
  | .m8 => 64

/-- The code `vlmul[2:0]`, LMUL = 2^vlmul with `vlmul` signed. -/
def lmulCode : Lmul → BitVec 3
  | .mf8 => 0b101#3
  | .mf4 => 0b110#3
  | .mf2 => 0b111#3
  | .m1 => 0b000#3
  | .m2 => 0b001#3
  | .m4 => 0b010#3
  | .m8 => 0b011#3

/-- The multiplier a code `vlmul[2:0]` selects; the code `100` is reserved. -/
def lmulOfCode (v : BitVec 3) : Option Lmul :=
  if v = 0b101#3 then some .mf8
  else if v = 0b110#3 then some .mf4
  else if v = 0b111#3 then some .mf2
  else if v = 0b000#3 then some .m1
  else if v = 0b001#3 then some .m2
  else if v = 0b010#3 then some .m4
  else if v = 0b011#3 then some .m8
  else none

/-- How many registers a group has (10_state.md R38): LMUL, or the single register when LMUL is below 1. -/
def groupRegisters : Lmul → Nat
  | .mf8 | .mf4 | .mf2 | .m1 => 1
  | .m2 => 2
  | .m4 => 4
  | .m8 => 8

/-- How many groups the 32 registers make (the table of 10_state.md R37). -/
def groupCount (lmul : Lmul) : Nat := 32 / groupRegisters lmul

/-- VLMAX = LMUL*VLEN/SEW (10_state.md R40). -/
def vlmaxOf (c : Config) (sew : Sew) (lmul : Lmul) : Nat := lmulEighths lmul * c.vlen / (8 * sewBits sew)

/-- VLMAX of a `vtype`; undefined when `vill` is set (10_state.md R40). -/
def vlmaxOfType (c : Config) : VType → Option Nat
  | .illegal => none
  | .legal f => some (vlmaxOf c f.vsew f.vlmul)

/-- Elements per register, VLEN/SEW (10_state.md R35). -/
def elementsPerRegister (c : Config) (sew : Sew) : Nat := c.vlen / sewBits sew

/-- `vlenb` = VLEN/8 (10_state.md R60). -/
def vlenb (c : Config) : Nat := c.vlen / 8

/-- The bytes of the vector register file, and of a register group (20_memory.md R101). -/
def registerFileBytes (c : Config) : Nat := 32 * vlenb c
def groupBytes (c : Config) (lmul : Lmul) : Nat := groupRegisters lmul * vlenb c

/-! ### Supported configurations (00_scope.md R9) -/

def allSew : List Sew := [.e8, .e16, .e32, .e64]
def allLmul : List Lmul := [.mf8, .mf4, .mf2, .m1, .m2, .m4, .m8]
def integerLmul : List Lmul := [.m1, .m2, .m4, .m8]
def fractionalLmul : List Lmul := [.mf8, .mf4, .mf2]

/-- supported(SEW, LMUL). -/
def supports (c : Config) (sew : Sew) (lmul : Lmul) : Bool := c.supportedPairs.contains (sew, lmul)

/-- The widths supported at LMUL = 1. -/
def sewsAtOne (c : Config) : List Sew := allSew.filter fun sew => supports c sew .m1

/-- SEW_LMUL1MIN (00_scope.md R8): the narrowest SEW supported at LMUL = 1, 0 where there is none. -/
def sewLmul1Min (c : Config) : Nat := ((sewsAtOne c).map sewBits).min?.getD 0

/-- SEW_LMUL1MAX (00_scope.md R8): the widest. -/
def sewLmul1Max (c : Config) : Nat := ((sewsAtOne c).map sewBits).max?.getD 0

/-- LMUL < SEW_LMUL1MIN/SEW_LMUL1MAX: the reserved region (30_encoding.md R143). -/
def belowLmulBound (c : Config) (lmul : Lmul) : Bool :=
  decide (lmulEighths lmul * sewLmul1Max c < 8 * sewLmul1Min c)

/-- The largest VLMAX over the supported configurations (00_scope.md R10). -/
def vlmaxMax (c : Config) : Nat := (c.supportedPairs.map fun p => vlmaxOf c p.1 p.2).foldr max 0

/-- ceil(log2 n). -/
def ceilLog2 (n : Nat) : Nat := if n ≤ 1 then 0 else Nat.log2 (n - 1) + 1

/-- VSTART_BITS (00_scope.md R10): enough bits for the largest element index. -/
def vstartBits (c : Config) : Nat := ceilLog2 (vlmaxMax c)

/-- VL_BITS (00_scope.md R10): enough bits for 0 through VLMAX_max, and no more (DEDUCED, log entry 13). -/
def vlBits (c : Config) : Nat := ceilLog2 (vlmaxMax c + 1)

/-- The constraints the spec puts on the parameters (00_scope.md R5 to R9). -/
def configValid (c : Config) : Bool :=
  -- R6: VLEN is a power of two, at least 8 and ELEN, at most 65536
  ((List.range 17).any fun k => decide (3 ≤ k) && c.vlen == 2 ^ k) && decide (c.elen ≤ c.vlen) &&
  -- R7: ELEN is the largest SEW supported at any LMUL, a power of two, at least 8
  allSew.any (fun sew => sewBits sew == c.elen && allLmul.any fun lmul => supports c sew lmul) &&
  c.supportedPairs.all (fun p => decide (sewBits p.1 ≤ c.elen)) &&
  -- R9 (a): every LMUL of 1, 2, 4, 8 has a supported SEW
  integerLmul.all (fun lmul => allSew.any fun sew => supports c sew lmul) &&
  -- R9 (b), (c): a fractional LMUL has every SEW from SEW_LMUL1MIN to LMUL * SEW_LMUL1MAX (none, below the bound)
  fractionalLmul.all (fun lmul =>
    allSew.all fun sew =>
      !(decide (sewLmul1Min c ≤ sewBits sew) && decide (8 * sewBits sew ≤ lmulEighths lmul * sewLmul1Max c)) ||
        supports c sew lmul) &&
  -- R9 (f): a supported configuration has VLMAX >= 1
  c.supportedPairs.all (fun p => decide (1 ≤ vlmaxOf c p.1 p.2))

/-! ### `choose_vl` (41_vset_config.md R196) -/

/-- The `vl` an implementation takes for a requested length: the three clauses of R196, the middle one free inside its
bounds. -/
def chooseVl (c : Config) (avl vlmax : Nat) : Nat :=
  if avl ≤ vlmax then avl
  else if avl < 2 * vlmax then max ((avl + 1) / 2) (min (Config.chooseVlBetween c avl vlmax) vlmax)
  else vlmax

/-- `legal_vstart` with what R285 derives of it: 0 is always legal. -/
def legalVstart (c : Config) (word : BitVec 32) (vtype : VType) (vstart : Nat) : Bool :=
  vstart == 0 || c.everyVstartLegal || Config.legalVstart c word vtype vstart

/-! ### The reference implementations of 95_test_vectors.md -/

/-- IMPL-A: XLEN = 64, VLEN = 128, ELEN = 64. The reset state takes it (log entry 1, DESIGN CHOICE). What the file does
not give of it, a `Base` without compressed instructions among it, is the model's choice (log entries 1 and 10). -/
def implA : Config where
  xlen := .rv64
  vlen := 128
  elen := 64
  supportedPairs :=
    [(.e8, .m1), (.e16, .m1), (.e32, .m1), (.e64, .m1), (.e8, .m2), (.e16, .m2), (.e32, .m2), (.e64, .m2),
     (.e8, .m4), (.e16, .m4), (.e32, .m4), (.e64, .m4), (.e8, .m8), (.e16, .m8), (.e32, .m8), (.e64, .m8),
     (.e8, .mf2), (.e16, .mf2), (.e32, .mf2), (.e8, .mf4), (.e16, .mf4), (.e8, .mf8)]
  reservedTraps := false
  vstartOobTraps := false
  everyVstartLegal := true
  misaVWritable := false
  compressed := false
  sstatusMask := 0

/-- IMPL-B: XLEN = 32, VLEN = 32, ELEN = 32. -/
def implB : Config where
  xlen := .rv32
  vlen := 32
  elen := 32
  supportedPairs :=
    [(.e8, .m1), (.e16, .m1), (.e32, .m1), (.e8, .m2), (.e16, .m2), (.e32, .m2), (.e8, .m4), (.e16, .m4), (.e32, .m4),
     (.e8, .m8), (.e16, .m8), (.e32, .m8), (.e8, .mf2), (.e16, .mf2), (.e8, .mf4)]
  reservedTraps := false
  vstartOobTraps := false
  everyVstartLegal := true
  misaVWritable := false
  compressed := false
  sstatusMask := 0

end Sys2Proof.Machine
end

