-- ==== Sys2Proof/Machine/State.lean ====
section
/-! DEFINITION. The state of the machine, the reasons a step can stop, and the state after reset. -/

namespace Sys2Proof.Machine

/-- The program text: the bytes it lists, addresses strictly rising (20_memory.md R114). -/
abbrev Memory := List Host.Cell

/-- The vector context status `VS` (10_state.md R25). -/
inductive VsState where
  | off
  | initial
  | clean
  | dirty
  deriving DecidableEq, Repr

/-- Why the machine stops with a fault. -/
inductive Fault where
  /-- The hart fetches where the program has no text (20_memory.md R114 takes the program as a fixed mapping and says
  nothing of other addresses). Raised by the step. SAFE: no claim about such a run can be proved. Log entry 9. -/
  | noProgramText (pc : Word)
  deriving DecidableEq, Repr

/-- Why an instruction has no meaning: the spec's own outcome Refuse(reason) (00_scope.md R12), and the words that the
scope file gives to `Base` or leaves out. All are SAFE: no claim about a run that reaches one can be proved. -/
inductive Refusal where
  /-- An instruction whose meaning is not written yet. Raised by Dispatch alone; no arm uses it. -/
  | notModelled (mnemonic : String)
  /-- A configuration pattern with bits 31:30 = `10` and bits 29:25 not all zero (30_encoding.md R125, R146). Raised by
  the step. -/
  | reservedConfigPattern
  /-- The Keep form when VLMAX would change or `vill` was set (41_vset_config.md R198). Raised by `vsetvli`, `vsetvl`. -/
  | reservedKeepForm
  /-- A `vstart` above VLMAX - 1 (60_exceptions.md R284). Raised by the vector-instruction frame. -/
  | reservedVstart
  /-- A register group whose number is not a multiple of its size (10_state.md R39). Raised by the frame. -/
  | reservedGroupNumber
  /-- A `vtype` with LMUL below SEW_LMUL1MIN/SEW_LMUL1MAX (30_encoding.md R143). Raised by the frame. -/
  | reservedSmallLmul
  /-- A CSR-access instruction on a CSR that is not one of the seven (30_encoding.md R130: "outside this spec"). Raised
  by the six CSR-access instructions. -/
  | baseCsr (addr : BitVec 12)
  /-- A word that is an instruction of `Base` (00_scope.md R3). Raised by the step. -/
  | baseInstruction (word : BitVec 32)
  /-- A vector instruction that the scope leaves out (00_scope.md R4), when every check of the frame has passed and what
  it computes would be needed (30_encoding.md R125: "outside this spec"). Raised by the step. -/
  | vectorOutOfScope (word : BitVec 32)
  /-- A word whose bits 1:0 are not `11` (30_encoding.md R120): no instruction of the spec. Raised by the step. -/
  | notFullWord (word : BitVec 32)
  /-- A `pc` that is not a multiple of the instruction alignment: a matter of `Base` (20_memory.md R107). Raised by the
  step. -/
  | misalignedFetch (pc : Word)
  /-- A write to `misa` that clears a writable `misa.v` (10_state.md R29, D20). Raised by `writeMisa`. -/
  | misaVCleared
  deriving DecidableEq, Repr

/-- Everything the spec gives the machine, and the two fields of the model's own at the end. -/
structure State where
  /-- the implementation's parameters, which no step changes (00_scope.md R11) -/
  cfg : Config
  /-- integer registers (10_state.md R80); read and written through `readX` and `setX` -/
  x : Vector Word 32
  /-- program counter (10_state.md R82) -/
  pc : Word
  /-- vector registers (10_state.md R21): each the unsigned number its VLEN-bit string denotes; VLEN is a parameter, so
  it cannot stand in the type -/
  vreg : Vector Nat 32
  /-- `mstatus[10:9]` = `sstatus[10:9]` (10_state.md R25) -/
  vs : VsState
  /-- the other bits of `mstatus`, which are `Base`'s (10_state.md R84) -/
  mstatusOther : Word
  /-- the bits of `misa` other than `misa.v`, which are `Base`'s (10_state.md R29, R84) -/
  misaOther : Word
  /-- `vtype` (10_state.md R30, R45) -/
  vtype : VType
  /-- `vl` (10_state.md R50) -/
  vl : Nat
  /-- `vstart` (10_state.md R62) -/
  vstart : Nat
  /-- `vxrm[1:0]` (10_state.md R66) -/
  vxrm : BitVec 2
  /-- `vxsat` (10_state.md R68) -/
  vxsat : Bool
  /-- program text (20_memory.md R114) -/
  text : Memory
  /-- MODEL's own: the outcome Trap(cause, state) of 00_scope.md R12, until `Base` takes it; log entry 7 -/
  trap : Option Trap
  /-- MODEL's own: the number of draws made (10_state.md R86); log entry 6 -/
  draws : Nat
  deriving DecidableEq, Repr

/-- The machine right after reset (70_reset_and_hazards.md R320 to R327): the recommended `vtype` and `vl` of R321;
where the spec says arbitrary or nothing, the values of log entries 1 to 6. -/
def State.reset : State where
  cfg := implA
  x := Vector.replicate 32 0
  pc := 0
  vreg := Vector.replicate 32 0
  vs := .initial
  mstatusOther := 0
  misaOther := 0
  vtype := .illegal
  vl := 0
  vstart := 0
  vxrm := 0
  vxsat := false
  text := []
  trap := none
  draws := 0

end Sys2Proof.Machine
end

