-- ==== Sys2Proof/Machine/Ops.lean ====
section
/-! DEFINITION. The named operations over registers, memory and status that the meanings share: reading and writing
integer registers, the views of `VS`, the rule that makes `VS` Dirty, taking an exception and returning from one,
reserved uses, vector-register elements, the program text and fetching from it. -/

namespace Sys2Proof.Machine

/-! ### Integer registers and `pc` (10_state.md R80, R82) -/

/-- `x[i]`: XLEN bits, `x[0]` reads 0. -/
def readX (s : State) (r : RegNo) : Word := if r = 0#5 then 0#64 else zx s.cfg (s.x[r.toNat]'r.isLt)

/-- `x[i] <- v`: a write to `x[0]` is discarded. -/
def setX (s : State) (r : RegNo) (v : Word) : State :=
  { s with x := if r = 0#5 then s.x else s.x.set r.toNat (zx s.cfg v) r.isLt }

/-- The value of `pc`, XLEN bits. -/
def readPc (s : State) : Word := zx s.cfg s.pc

/-- `pc <- pc + 4`, modulo 2^XLEN. -/
def advancePc (s : State) : State := { s with pc := zx s.cfg (s.pc + 4#64) }

/-! ### `mstatus`, `sstatus`, `misa` (10_state.md R25, R29, R84)

Which instructions of `Base` write these registers, at which addresses and at which privilege, is not in the source.
These are the operations such an instruction performs; no instruction of the spec calls them. -/

/-- The two-bit code of `VS` (10_state.md R25, D6). -/
def vsCode : VsState → BitVec 2
  | .off => 0#2
  | .initial => 1#2
  | .clean => 2#2
  | .dirty => 3#2

/-- The state a two-bit code stands for. -/
def vsOfCode (v : BitVec 2) : VsState :=
  if v = 0#2 then .off else if v = 1#2 then .initial else if v = 2#2 then .clean else .dirty

/-- The bits 10:9 of `mstatus`. -/
def vsMask : Word := 0x600#64

/-- The value of `mstatus`: `Base`'s bits, and `VS` in bits 10:9. -/
def readMstatus (s : State) : Word :=
  zx s.cfg ((s.mstatusOther &&& ~~~vsMask) ||| ((vsCode s.vs).setWidth 64 <<< 9))

/-- A write of the whole of `mstatus` by `Base`. DESIGN CHOICE (log entry 33): `Base`'s bits keep what is written, their
fields not being in the source. -/
def writeMstatus (s : State) (v : Word) : State :=
  { s with vs := vsOfCode (v.extractLsb' 9 2), mstatusOther := zx s.cfg v &&& ~~~vsMask }

/-- The bits of `mstatus` that `sstatus` shows: `VS` always ("shadowed"), and those of the implementation's view. -/
def sstatusBits (s : State) : Word := s.cfg.sstatusMask ||| vsMask

/-- The value of `sstatus`: a restricted view of `mstatus`. -/
def readSstatus (s : State) : Word := readMstatus s &&& sstatusBits s

/-- A write of `sstatus` by `Base`: the bits it shows are written, the others of `mstatus` stay. -/
def writeSstatus (s : State) (v : Word) : State :=
  writeMstatus s ((readMstatus s &&& ~~~sstatusBits s) ||| (v &&& sstatusBits s))

/-- Bit 21 of `misa`, the letter V. -/
def misaVMask : Word := 0x200000#64

/-- The value of `misa`: `misa.v` is hard-wired to 1 (10_state.md R29, D20). -/
def readMisa (s : State) : Word := zx s.cfg (s.misaOther ||| misaVMask)

/-- A write of `misa` by `Base`. DESIGN CHOICE (log entry 33): `Base`'s bits keep what is written. `misa.v` stays 1;
where the implementation makes it writable, a write that clears it is refused, the spec giving no behaviour for
`misa.v` = 0 (D20). -/
def writeMisa (s : State) (v : Word) : Host.Outcome State Fault Refusal :=
  if s.cfg.misaVWritable && !v.getLsbD 21 then .refused .misaVCleared
  else .next { s with misaOther := zx s.cfg v &&& ~~~misaVMask }

/-! ### When `VS` becomes Dirty (10_state.md R27) -/

/-- "any bit of vector state differs": the 32 vector registers, `vtype`, `vl`, `vstart`, `vxrm`, `vxsat`. -/
def vectorStateChanged (old new : State) : Bool :=
  !(decide (new.vtype = old.vtype) && decide (new.vl = old.vl) && decide (new.vstart = old.vstart) &&
    decide (new.vxrm = old.vxrm) && decide (new.vxsat = old.vxsat) && decide (new.vreg = old.vreg))

/-- `VS` after an instruction that completes: Initial and Clean become Dirty when vector state changed, and may become
Dirty otherwise (a draw). -/
def vsAfter (vs : VsState) (changed drawn : Bool) : VsState :=
  match vs with
  | .off => .off
  | .dirty => .dirty
  | .initial => if changed || drawn then .dirty else .initial
  | .clean => if changed || drawn then .dirty else .clean

/-- "apply 10_state.md rule R27": the end of an instruction that took the hart from `old` to `new`. -/
def applyDirty (old new : State) : State :=
  { new with
    vs := vsAfter new.vs (vectorStateChanged old new) (Config.drawDirty new.draws)
    draws := new.draws + 1 }

/-- The spontaneous transition between two instructions: `VS` may become Dirty (a draw). -/
def spontaneousDirty (s : State) : State :=
  { s with
    vs := vsAfter s.vs false (Config.drawSpontaneous s.draws)
    draws := s.draws + 1 }

/-! ### Taking an exception and returning from one (60_exceptions.md R280, R292, R293) -/

/-- The outcome Trap(cause, state): the instruction ends at once, no state the spec names changes, `pc` is not advanced,
and the trap is left for `Base` with the address of the instruction. -/
def raiseException (cause : Cause) (s : State) : Host.Outcome State Fault Refusal :=
  .next { s with trap := some ⟨cause, readPc s⟩ }

/-- `raise IllegalInstruction` (60_exceptions.md R280). -/
def raiseIllegal (s : State) : Host.Outcome State Fault Refusal := raiseException .illegalInstruction s

/-- The cause code in the base trap mechanism (60_exceptions.md R280): 2 for illegal-instruction, `Base`'s own number
for what `Base` raises. -/
def causeCode : Cause → Nat
  | .illegalInstruction => 2
  | .exception number => number
  | .interrupt number => number

/-- The part of the state that is `Base`'s own. -/
def baseState (s : State) : BaseState := ⟨s.x, s.pc, s.mstatusOther, s.misaOther⟩

/-- `Base.take_trap` (60_exceptions.md R292): `Base` makes of its own state what it does, uninterpreted; the vector
state and `VS` are left as they are, for the handler to read. -/
def takeTrap (t : Trap) (s : State) : State :=
  { s with
    x := (Config.takeTrap s.cfg s.draws t (baseState s)).x.map (zx s.cfg)
    pc := zx s.cfg (Config.takeTrap s.cfg s.draws t (baseState s)).pc
    mstatusOther := zx s.cfg (Config.takeTrap s.cfg s.draws t (baseState s)).mstatusOther &&& ~~~vsMask
    misaOther := zx s.cfg (Config.takeTrap s.cfg s.draws t (baseState s)).misaOther &&& ~~~misaVMask
    trap := none
    draws := s.draws + 1 }

/-- The return from a trap as far as the spec has one (60_exceptions.md R287, R293): `Base` resumes at `pc`; the vector
state has no trap-time copy to restore. -/
def resumeAt (pc : Word) (s : State) : State := { s with pc := zx s.cfg pc, trap := none }

/-! ### Reserved uses (30_encoding.md R146) -/

/-- A reserved use is refused, or raises illegal-instruction where the implementation is known to trap. -/
def reservedUse (r : Refusal) (s : State) : Host.Outcome State Fault Refusal :=
  if s.cfg.reservedTraps then raiseIllegal s else .refused r

/-! ### Elements and bits of vector registers (10_state.md R21, R23, R24, 20_memory.md R106) -/

/-- The bit string of register `n` as a number, 0 for a number that is no register. -/
def vregBits (s : State) (n : Nat) : Nat := s.vreg[n]?.getD 0

/-- Bit `b` of register `n`; the register has VLEN bits. -/
def vregBit (s : State) (n b : Nat) : Bool := decide (b < s.cfg.vlen) && (vregBits s n).testBit b

/-- elem(n, i, w): element `i` of width `w` of the group that starts at register `n` (10_state.md R23). -/
def elem (s : State) (n i w : Nat) : BitVec w :=
  BitVec.ofNat w (vregBits s (n + i / (s.cfg.vlen / w)) >>> (i % (s.cfg.vlen / w) * w))

/-- Byte `j` of register `n` (20_memory.md R106). -/
def vregByte (s : State) (n j : Nat) : Byte := BitVec.ofNat 8 (vregBits s n >>> (8 * j))

/-- The mask bit of element `i`: bit `i` of `v0` (10_state.md R24). -/
def maskBit (s : State) (i : Nat) : Bool := vregBit s 0 i

/-- The number whose bits below `n` are given by `f`. -/
def natOfBits : Nat → (Nat → Bool) → Nat
  | 0, _ => 0
  | n + 1, f => natOfBits n f + (if f n then 2 ^ n else 0)

/-! ### The program text (20_memory.md R106, R107, R114) -/

/-- The byte at an address; none where the program has no text. -/
def readByte : Memory → Nat → Option Byte
  | [], _ => none
  | (k, b) :: m, a => if k = a then some b else readByte m a

/-- The text with one byte placed. -/
def writeByte : Memory → Nat → Byte → Memory
  | [], a, b => [(a, b)]
  | (k, v) :: m, a, b =>
    if a < k then (a, b) :: (k, v) :: m
    else if a = k then (a, b) :: m
    else (k, v) :: writeByte m a b

/-- The canonical form: addresses strictly rising. An unlisted address reads as nothing, so no entry can equal it. -/
abbrev Memory.wf (m : Memory) : Prop := m.Pairwise fun p q => p.1 < q.1

/-- The byte address `k` after `a`, modulo 2^XLEN. -/
def byteAddr (c : Config) (a : Word) (k : Nat) : Nat := (zx c (a + BitVec.ofNat 64 k)).toNat

/-- The 32-bit word at an address, least significant byte at the lowest address; none where a byte is missing. -/
def readWord (c : Config) (m : Memory) (a : Word) : Option (BitVec 32) :=
  match readByte m (byteAddr c a 0), readByte m (byteAddr c a 1), readByte m (byteAddr c a 2),
    readByte m (byteAddr c a 3) with
  | some b0, some b1, some b2, some b3 => some (wordOfBytes b0 b1 b2 b3)
  | _, _, _, _ => none

/-- The text with a run of bytes placed from an address on. -/
def placeBytes (c : Config) (m : Memory) (a : Word) : List Byte → Memory
  | [] => m
  | b :: bs => placeBytes c (writeByte m (byteAddr c a 0) b) (a + 1#64) bs

/-- The text with a word placed at an address. -/
def placeWord (c : Config) (m : Memory) (a : Word) (w : BitVec 32) : Memory := placeBytes c m a (wordBytes w)

/-- What a fetch gives. -/
inductive Fetched where
  | word (w : BitVec 32)
  | noText
  | misaligned
  deriving DecidableEq, Repr

/-- Instructions lie at multiples of 4, or of 2 when `Base` has compressed instructions. -/
def fetchAlignment (c : Config) : Nat := if c.compressed then 2 else 4

/-- The instruction word at `pc`. -/
def fetch (s : State) : Fetched :=
  if (readPc s).toNat % fetchAlignment s.cfg ≠ 0 then .misaligned
  else
    match readWord s.cfg s.text (readPc s) with
    | some w => .word w
    | none => .noText

/-- The end of a step: the spontaneous transition of `VS` follows a next state. -/
def betweenInstructions : Host.Outcome State Fault Refusal → Host.Outcome State Fault Refusal
  | .next s => .next (spontaneousDirty s)
  | .fault r => .fault r
  | .refused r => .refused r

end Sys2Proof.Machine
end

