-- ==== Sys2Proof/Machine/Operands.lean ====
section
/-! DEFINITION. Operand forms: reading and writing the vector CSRs (40_csr_access.md R160), the shared course of a
CSR-access instruction, the requested `vtype` and length of a configuration instruction (41_vset_config.md R191 to R198)
and the state update they share (R193). -/

namespace Sys2Proof.Machine

/-! ### The vector CSRs (40_csr_access.md R160) -/

/-- The value of `vtype` as a number: 2^(XLEN-1), or the four fields in bits 7:0 (10_state.md R46). -/
def vtypeValue (c : Config) : VType → Word
  | .illegal => BitVec.ofNat 64 (2 ^ (xlenBits c - 1))
  | .legal f =>
    (BitVec.ofBool f.vma ++ BitVec.ofBool f.vta ++ sewCode f.vsew ++ lmulCode f.vlmul :
      BitVec (1 + 1 + 3 + 3)).setWidth 64

/-- The value of `vcsr`: `vxrm` in bits 2:1, `vxsat` in bit 0 (10_state.md R70). -/
def vcsrValue (vxrm : BitVec 2) (vxsat : Bool) : Word := (vxrm ++ BitVec.ofBool vxsat : BitVec (2 + 1)).setWidth 64

/-- csr_read(c). A CSR of `Base` is never read: the instruction is refused before. -/
def csrRead (s : State) : Csr → Word
  | .vstart => xword s.cfg s.vstart
  | .vxsat => (BitVec.ofBool s.vxsat).setWidth 64
  | .vxrm => s.vxrm.setWidth 64
  | .vcsr => vcsrValue s.vxrm s.vxsat
  | .vl => xword s.cfg s.vl
  | .vtype => vtypeValue s.cfg s.vtype
  | .vlenb => xword s.cfg (vlenb s.cfg)
  | .base _ => 0#64

/-- csr_write(c, w): the bits outside the CSR's field are dropped (40_csr_access.md R173). The write of a read-only CSR
or of a CSR of `Base` is never performed. -/
def csrWrite (s : State) (csr : Csr) (w : Word) : State :=
  { s with
    vstart := if csr = .vstart then w.toNat % 2 ^ vstartBits s.cfg else s.vstart
    vxrm :=
      if csr = .vxrm then w.extractLsb' 0 2 else if csr = .vcsr then w.extractLsb' 1 2 else s.vxrm
    vxsat := if csr = .vxsat ∨ csr = .vcsr then w.getLsbD 0 else s.vxsat }

/-- `vl`, `vtype`, `vlenb`: read-only through the CSR address space (40_csr_access.md R170). -/
def csrReadOnly : Csr → Bool
  | .vl | .vtype | .vlenb => true
  | .vstart | .vxsat | .vxrm | .vcsr | .base _ => false

/-- The course of a CSR-access instruction (40_csr_access.md R161 to R168). `newValue` is none when the form does not
write, and else gives the value to write from the old one. A CSR outside the seven is `Base`'s. Reading a vector CSR has
no side effect (20_memory.md R108), so a form with `rd` = `x0` that does not read is the same as one that reads and
discards. -/
def accessCsr (csr : Csr) (rd : RegNo) (newValue : Option (Word → Word)) (s : State) :
    Host.Outcome State Fault Refusal :=
  match csr with
  | .base addr => .refused (.baseCsr addr)
  | c =>
    if s.vs = .off then raiseIllegal s
    else
      match newValue with
      | none => .next (advancePc (setX s rd (csrRead s c)))
      | some f =>
        if csrReadOnly c then raiseIllegal s
        else .next (advancePc (applyDirty s (setX (csrWrite s c (f (csrRead s c))) rd (csrRead s c))))

/-- The value an immediate form uses: zext_XLEN(uimm) (30_encoding.md R130). -/
def uimmValue (uimm : BitVec 5) : Word := uimm.setWidth 64

/-! ### The requested `vtype` (41_vset_config.md R191, R192) -/

/-- The fields of a request. -/
structure Request where
  vill : Bool
  /-- bits XLEN-2:8, as a number -/
  rsv : Nat
  vma : Bool
  vta : Bool
  vsew : BitVec 3
  vlmul : BitVec 3
  deriving DecidableEq, Repr

/-- Reading the fields of an XLEN-bit request (41_vset_config.md R191). -/
def requestOf (c : Config) (req : Word) : Request where
  vill := req.getLsbD (xlenBits c - 1)
  rsv := req.toNat % 2 ^ (xlenBits c - 1) / 2 ^ 8
  vma := req.getLsbD 7
  vta := req.getLsbD 6
  vsew := req.extractLsb' 3 3
  vlmul := req.extractLsb' 0 3

/-- The fields a request asks for, when it is supported (41_vset_config.md R192); none when it is not. -/
def requestedFields (c : Config) (req : Word) : Option VFields :=
  if (requestOf c req).vill || decide ((requestOf c req).rsv ≠ 0) then none
  else
    match sewOfCode (requestOf c req).vsew, lmulOfCode (requestOf c req).vlmul with
    | some sew, some lmul =>
      if supports c sew lmul then some ⟨(requestOf c req).vma, (requestOf c req).vta, sew, lmul⟩ else none
    | _, _ => none

/-! ### The requested length (41_vset_config.md R194) -/

/-- How the length is requested. -/
inductive AvlMode where
  | value (avl : Nat)
  | max
  | keep
  deriving DecidableEq, Repr

/-- The mode of `vsetvli` and `vsetvl`, by register numbers. -/
def avlModeOf (s : State) (rd rs1 : RegNo) : AvlMode :=
  if rs1 ≠ 0#5 then .value (readX s rs1).toNat else if rd ≠ 0#5 then .max else .keep

/-! ### The shared update (41_vset_config.md R193) -/

/-- Setting `vtype` and `vl`, writing the new `vl` to `rd`, clearing `vstart`, and completing. -/
def installConfig (t : VType) (vl : Nat) (rd : RegNo) (s : State) : State :=
  advancePc (applyDirty s (setX { s with vtype := t, vl := vl, vstart := 0 } rd (xword s.cfg vl)))

/-- set_config(req, mode, rd). The Keep form is a reserved use when VLMAX would change or `vill` was set beforehand
(R198, 30_encoding.md R146; log entry 14). -/
def setConfig (req : Word) (mode : AvlMode) (rd : RegNo) (s : State) : Host.Outcome State Fault Refusal :=
  if s.vs = .off then raiseIllegal s
  else
    match requestedFields s.cfg req with
    | none => .next (installConfig .illegal 0 rd s)
    | some f =>
      match mode with
      | .value avl => .next (installConfig (.legal f) (chooseVl s.cfg avl (vlmaxOf s.cfg f.vsew f.vlmul)) rd s)
      | .max => .next (installConfig (.legal f) (vlmaxOf s.cfg f.vsew f.vlmul) rd s)
      | .keep =>
        if vlmaxOfType s.cfg s.vtype = some (vlmaxOf s.cfg f.vsew f.vlmul) then
          .next (installConfig (.legal f) s.vl rd s)
        else reservedUse .reservedKeepForm s

end Sys2Proof.Machine
end

