-- ==== Sys2Proof/Machine/CsrAccess.lean ====
section
/-! DEFINITION. The six CSR-access instructions on the vector CSRs (40_csr_access.md). -/

namespace Sys2Proof.Machine

/-- `csrrw rd, csr, rs1` (R162): always writes `x[rs1]`. -/
def execCsrrw (rd : RegNo) (csr : Csr) (rs1 : RegNo) (s : State) : Host.Outcome State Fault Refusal :=
  accessCsr csr rd (some fun _ => readX s rs1) s

/-- `csrrs rd, csr, rs1` (R163): sets the bits of `x[rs1]`; does not write when `rs1` is `x0`, a test on the register
number. -/
def execCsrrs (rd : RegNo) (csr : Csr) (rs1 : RegNo) (s : State) : Host.Outcome State Fault Refusal :=
  accessCsr csr rd (if rs1 ≠ 0#5 then some fun t => t ||| readX s rs1 else none) s

/-- `csrrc rd, csr, rs1` (R164): clears the bits of `x[rs1]`; does not write when `rs1` is `x0`. -/
def execCsrrc (rd : RegNo) (csr : Csr) (rs1 : RegNo) (s : State) : Host.Outcome State Fault Refusal :=
  accessCsr csr rd (if rs1 ≠ 0#5 then some fun t => t &&& ~~~readX s rs1 else none) s

/-- `csrrwi rd, csr, uimm` (R165): always writes the immediate. -/
def execCsrrwi (rd : RegNo) (csr : Csr) (uimm : BitVec 5) (s : State) : Host.Outcome State Fault Refusal :=
  accessCsr csr rd (some fun _ => uimmValue uimm) s

/-- `csrrsi rd, csr, uimm` (R166): sets the bits of the immediate; does not write when it is 0. -/
def execCsrrsi (rd : RegNo) (csr : Csr) (uimm : BitVec 5) (s : State) : Host.Outcome State Fault Refusal :=
  accessCsr csr rd (if uimm ≠ 0#5 then some fun t => t ||| uimmValue uimm else none) s

/-- `csrrci rd, csr, uimm` (R167): clears the bits of the immediate; does not write when it is 0. -/
def execCsrrci (rd : RegNo) (csr : Csr) (uimm : BitVec 5) (s : State) : Host.Outcome State Fault Refusal :=
  accessCsr csr rd (if uimm ≠ 0#5 then some fun t => t &&& ~~~uimmValue uimm else none) s

end Sys2Proof.Machine
end

