-- ==== Sys2Proof/Machine/VsetConfig.lean ====
section
/-! DEFINITION. The three configuration instructions (41_vset_config.md). -/

namespace Sys2Proof.Machine

/-- `vsetvli rd, rs1, vtypei` (R200): the request is the zero-extended 11-bit immediate. -/
def execVsetvli (rd rs1 : RegNo) (zimm : BitVec 11) (s : State) : Host.Outcome State Fault Refusal :=
  setConfig (zimm.setWidth 64) (avlModeOf s rd rs1) rd s

/-- `vsetivli rd, uimm, vtypei` (R201): the request is the zero-extended 10-bit immediate, the length the 5-bit one. -/
def execVsetivli (rd : RegNo) (uimm : BitVec 5) (zimm : BitVec 10) (s : State) : Host.Outcome State Fault Refusal :=
  setConfig (zimm.setWidth 64) (.value uimm.toNat) rd s

/-- `vsetvl rd, rs1, rs2` (R202): the request is all XLEN bits of `x[rs2]`. -/
def execVsetvl (rd rs1 rs2 : RegNo) (s : State) : Host.Outcome State Fault Refusal :=
  setConfig (readX s rs2) (avlModeOf s rd rs1) rd s

end Sys2Proof.Machine
end

