-- ==== Sys2Proof/Machine/Flags.lean ====
section
/-! DEFINITION. Fixed-point rounding (43_fixed_point_rounding.md R260 to R262) and the saturation flag (R266), the only
status flag of the vector extension (10_state.md R68). No instruction of the table calls them (R265); the frame of
Machine/VectorFrame.lean does, for the results of a fixed-point instruction. -/

namespace Sys2Proof.Machine

/-- The slice `v[hi:0]` with `hi` = `n - 1`, as a number: empty, and so 0, when `n` = 0. -/
def lowBits {w : Nat} (v : BitVec w) (n : Nat) : Nat := v.toNat % 2 ^ n

/-- The increment r (43_fixed_point_rounding.md R262): `d` bits of `v` are rounded off under the mode `vxrm`
(0 rnu, 1 rne, 2 rdn, 3 rod). -/
def roundIncrement {w : Nat} (v : BitVec w) (d : Nat) (vxrm : BitVec 2) : Bool :=
  if d = 0 then false
  else if vxrm = 0#2 then v.getLsbD (d - 1)
  else if vxrm = 1#2 then v.getLsbD (d - 1) && (decide (lowBits v (d - 1) ≠ 0) || v.getLsbD d)
  else if vxrm = 2#2 then false
  else !v.getLsbD d && decide (lowBits v d ≠ 0)

/-- roundoff_unsigned(v, d) = (unsigned(v) >> d) + r, an integer sum (43_fixed_point_rounding.md R261). -/
def roundoffUnsigned {w : Nat} (v : BitVec w) (d : Nat) (vxrm : BitVec 2) : Nat :=
  v.toNat / 2 ^ d + (roundIncrement v d vxrm).toNat

/-- roundoff_signed(v, d) = (signed(v) >> d) + r (43_fixed_point_rounding.md R261); the shift is floor(n / 2^d). -/
def roundoffSigned {w : Nat} (v : BitVec w) (d : Nat) (vxrm : BitVec 2) : Int :=
  v.toInt / 2 ^ d + ((roundIncrement v d vxrm).toNat : Int)

/-- What a fixed-point instruction rounds to make a result (R261, R265): the pre-rounding string `v` of its own width W,
and `d` of its bits, 0 <= d < W, to be rounded off. -/
structure PreRounding where
  width : Nat
  value : BitVec width
  shift : Fin width
  isSigned : Bool

/-- The rounded value under the mode `vxrm`. -/
def roundoff (p : PreRounding) (vxrm : BitVec 2) : Int :=
  if p.isSigned then roundoffSigned p.value p.shift vxrm else roundoffUnsigned p.value p.shift vxrm

/-- The accrued flag: a fixed-point instruction that saturates sets it, and none clears it (R266). -/
def accrueVxsat (saturated : Bool) (s : State) : State := { s with vxsat := s.vxsat || saturated }

end Sys2Proof.Machine
end

