-- ==== Sys2Proof/Machine/VectorFrame.lean ====
section
/-! DEFINITION. What holds for every vector instruction (42_vector_instruction_frame.md, 60_exceptions.md R281 to R288).

The spec gives no encoding of a vector instruction with a vector operand, so no constructor of Instr stands for one.
`vectorInstruction` is the contract of 42_vector_instruction_frame.md R221 for an instruction whose own facts (R220) are
the argument; log entry 24. A word of the vector space that the step meets goes through the same checks (`undecoded`). -/

namespace Sys2Proof.Machine

/-! ### The facts about an instruction (R220) -/

/-- The classes of vector instructions that the source names, but for the configuration instructions (R220). -/
inductive VClass where
  /-- a whole-register load, store or move, of so many registers, with elements so many bits wide -/
  | wholeRegister (registers width : Nat)
  /-- a fault-only-first load, with the length it trims `vl` to (10_state.md R51) -/
  | faultOnlyFirstLoad (trim : Nat)
  | maskLoad
  | maskProducing
  | fixedPoint
  | arithmetic
  /-- any class the source does not name -/
  | other
  deriving DecidableEq, Repr

/-- depends_on_vtype(I): false for the whole-register instructions alone (R222). -/
def dependsOnVtype : VClass → Bool
  | .wholeRegister _ _ => false
  | .faultOnlyFirstLoad _ | .maskLoad | .maskProducing | .fixedPoint | .arithmetic | .other => true

/-- The result of one element of a register group. -/
inductive VResult where
  | value (n : Nat)
  /-- a fixed-point result: what is rounded under the current `vxrm` (43_fixed_point_rounding.md R265), the value that
  the instruction makes of the rounded one, and whether that had to be saturated (R266) -/
  | rounded (pre : PreRounding) (fit : Int → Nat) (saturates : Int → Bool)

/-- The value of a result, for an instruction that finds the rounding mode `vxrm`. -/
def resultValue (vxrm : BitVec 2) : VResult → Nat
  | .value n => n
  | .rounded pre fit _ => fit (roundoff pre vxrm)

/-- Whether a rounded result had to be saturated, for an instruction that finds the rounding mode `vxrm`. -/
def roundingSaturates (vxrm : BitVec 2) : VResult → Bool
  | .value _ => false
  | .rounded pre _ saturates => saturates (roundoff pre vxrm)

/-- The destination of a vector instruction and the results it computes. -/
inductive VDest where
  /-- a register group, with the result for each element index -/
  | group (vd : RegNo) (result : Nat → VResult)
  /-- a mask register, with the result for each element index, and what the operation would compute with `vl` = VLMAX -/
  | mask (vd : RegNo) (result full : Nat → Bool)
  /-- an integer register -/
  | xreg (rd : RegNo) (value : Word)
  | none

/-- A vector source operand (R250): a register group, whose size follows from LMUL, or a mask in one register. -/
inductive VSource where
  | group (vs : RegNo)
  | mask (vs : RegNo)
  deriving DecidableEq, Repr

/-- The facts about a vector instruction that its own definition supplies (R220). -/
structure VInstr where
  /-- the instruction word, by which `legal_vstart` knows it -/
  word : BitVec 32
  cls : VClass
  /-- `requires_vstart_zero(I)` (60_exceptions.md R283) -/
  requiresVstartZero : Bool
  /-- whether it is masked by `v0` (R233) -/
  masked : Bool
  sources : List VSource
  dest : VDest
  /-- whether the result of an element had to be saturated, whatever the rounding mode (43_fixed_point_rounding.md R266);
  a result that is rounded says for itself whether the rounded value had to be -/
  saturates : Nat → Bool

/-- How an instruction sees its vector operands: the width of an element, the registers of a group, the number of
elements of a group, and the two policies. -/
structure Layout where
  width : Nat
  registers : Nat
  elements : Nat
  tailAgnostic : Bool
  maskAgnostic : Bool
  deriving DecidableEq, Repr

/-- The layout that `vtype` gives: SEW, the registers of LMUL, VLMAX, `vta` and `vma`; none with `vill` set. -/
def layoutOfVtype (c : Config) : VType → Option Layout
  | .illegal => none
  | .legal f => some ⟨sewBits f.vsew, groupRegisters f.vlmul, vlmaxOf c f.vsew f.vlmul, f.vta, f.vma⟩

/-- The layout of an instruction. One that does not depend on `vtype` brings its own, and keeps what the policies of
`vtype` would leave open (log entry 24). -/
def layoutOf (I : VInstr) (s : State) : Option Layout :=
  match I.cls with
  | .wholeRegister n w => some ⟨w, n, n * (s.cfg.vlen / w), false, false⟩
  | .faultOnlyFirstLoad _ | .maskLoad | .maskProducing | .fixedPoint | .arithmetic | .other =>
    layoutOfVtype s.cfg s.vtype

/-! ### The checks (R221, steps 1 to 4) -/

/-- A group of 2, 4 or 8 registers is misnumbered unless its number is a multiple of its size (10_state.md R39). -/
def misnumbered (n size : Nat) : Bool := (size == 2 || size == 4 || size == 8) && n % size != 0

/-- The register numbers of the operands that are register groups. -/
def groupOperands (I : VInstr) : List Nat :=
  (I.sources.filterMap fun v =>
    match v with
    | .group vs => some vs.toNat
    | .mask _ => none) ++
  match I.dest with
  | .group vd _ => [vd.toNat]
  | .mask _ _ _ | .xreg _ _ | .none => []

/-- Some register-group operand of the instruction is misnumbered; the size of every group follows from the current LMUL
(R250, 30_encoding.md R144), or is the instruction's own when it does not depend on `vtype`. -/
def hasMisnumberedGroup (I : VInstr) (s : State) : Bool :=
  match layoutOf I s with
  | none => false
  | some L => (groupOperands I).any fun n => misnumbered n L.registers

/-- VLMAX of the current `vtype`, 0 where it is undefined (10_state.md R40). -/
def currentVlmax (s : State) : Nat := (vlmaxOfType s.cfg s.vtype).getD 0

/-- The current `vtype` lies in the reserved region of small LMUL (30_encoding.md R143). -/
def inSmallLmulRegion (s : State) : Bool :=
  match s.vtype with
  | .illegal => false
  | .legal f => belowLmulBound s.cfg f.vlmul

/-- Steps 1 to 4 of R221, and `work` when they all pass: `VS` = Off, `vill`, the three checks of `vstart`, the reserved
region of small LMUL, in which every vector instruction but the configuration ones is refused
(93_implementation_defined.md U3), and the numbers of register groups. An exception comes before a refusal (D21). -/
def frameChecks (depends requiresZero misnumbered : Bool) (word : BitVec 32) (s : State)
    (work : Host.Outcome State Fault Refusal) : Host.Outcome State Fault Refusal :=
  if s.vs = .off then raiseIllegal s
  else if depends && decide (s.vtype = .illegal) then raiseIllegal s
  else if decide (s.vstart ≠ 0) && requiresZero then raiseIllegal s
  else if !legalVstart s.cfg word s.vtype s.vstart then raiseIllegal s
  else if depends && decide (currentVlmax s ≤ s.vstart) then
    (if s.cfg.vstartOobTraps then raiseIllegal s else reservedUse .reservedVstart s)
  else if inSmallLmulRegion s then reservedUse .reservedSmallLmul s
  else if misnumbered then reservedUse .reservedGroupNumber s
  else work

/-- The outcome for a word that is no instruction of the spec: a reserved use for the unassigned configuration patterns;
the checks of the frame, and then a refusal, for a word of the vector arithmetic instructions (30_encoding.md R125),
which the scope leaves out but which is a vector instruction all the same (60_exceptions.md R281, R282) and, not being
listed as independent of `vtype`, depends on it (42_vector_instruction_frame.md R222; DEDUCED, log entry 20); a refusal
by name for what belongs to `Base`. -/
def undecoded (e : DecodeError) (w : BitVec 32) (s : State) : Host.Outcome State Fault Refusal :=
  match e with
  | .reservedConfig => reservedUse .reservedConfigPattern s
  | .vectorOutOfScope =>
    frameChecks true (Config.requiresVstartZero s.cfg w) false w s (.refused (.vectorOutOfScope w))
  | .baseInstruction => .refused (.baseInstruction w)
  | .notFullWord => .refused (.notFullWord w)
  | .truncated => .refused (.notFullWord w)

/-! ### The element sets (R232, R233, R245) -/

/-- The set an element index belongs to. -/
inductive ElementSet where
  | prestart
  | active
  | inactive
  | tail
  | outside
  deriving DecidableEq, Repr

/-- mask(x): the instruction is unmasked, or the mask bit of the element is 1 (R233). DESIGN CHOICE (log entry 34): every
mask bit is the one that `v0` held before the instruction, also where the destination includes `v0`, which
91_not_in_source.md N7 leaves open. -/
def maskAllows (I : VInstr) (s : State) (x : Nat) : Bool := !I.masked || maskBit s x

/-- The set of element `x`, for a destination whose tail ends at `tailEnd` (R232). -/
def elementSet (I : VInstr) (s : State) (tailEnd x : Nat) : ElementSet :=
  if x < s.vstart then .prestart
  else if x < s.vl then (if maskAllows I s x then .active else .inactive)
  else if x < tailEnd then .tail
  else .outside

/-- tail_end of a register group: max(VLMAX, VLEN/SEW) (R245). -/
def groupTailEnd (c : Config) (L : Layout) : Nat := max L.elements (c.vlen / L.width)

/-! ### What an element becomes (R228, R231, R237 to R241) -/

/-- Whether the instruction got to element `x`: all of them, or those below the element a trap was taken at. -/
def reached (stop : Option Nat) (x : Nat) : Bool :=
  match stop with
  | none => true
  | some e => decide (x < e)

/-- One bit of a destination element: the result of an active element, the old bit of an undisturbed one, the old bit or
a one for the whole of an agnostic element. An active or inactive element the instruction did not get to keeps its old
value. -/
def elementBit (I : VInstr) (s : State) (L : Layout) (stop : Option Nat) (tailEnd x : Nat) (old result : Bool) : Bool :=
  match elementSet I s tailEnd x with
  | .prestart => old
  | .active => if reached stop x then result else old
  | .inactive => if reached stop x && L.maskAgnostic && Config.drawOnes s.draws x then true else old
  | .tail => if L.tailAgnostic && Config.drawOnes s.draws x then true else old
  | .outside => old

/-- The element of a group that bit `b` of its `k`th register belongs to. -/
def elementAt (c : Config) (L : Layout) (k b : Nat) : Nat := k * (c.vlen / L.width) + b / L.width

/-- The new registers for a register-group destination. -/
def writeGroup (I : VInstr) (s : State) (L : Layout) (stop : Option Nat) (vd : Nat) (result : Nat → Nat) :
    Vector Nat 32 :=
  Vector.ofFn fun r =>
    if vd ≤ r.val ∧ r.val < vd + L.registers then
      natOfBits s.cfg.vlen fun b =>
        elementBit I s L stop (groupTailEnd s.cfg L) (elementAt s.cfg L (r.val - vd) b) (vregBit s r.val b)
          ((result (elementAt s.cfg L (r.val - vd) b)).testBit (b % L.width))
    else s.vreg[r]

/-- One bit of a mask destination: the tail is agnostic whatever `vta` says (R239); a tail bit below VLMAX may also
become what the operation computes with `vl` = VLMAX (R240), but for a mask load (R241). -/
def maskDestBit (I : VInstr) (s : State) (L : Layout) (stop : Option Nat) (full : Nat → Bool) (x : Nat)
    (old result : Bool) : Bool :=
  match elementSet I s s.cfg.vlen x with
  | .tail =>
    match Config.drawMaskTail s.draws x with
    | .keep => old
    | .one => true
    | .full => if decide (I.cls ≠ .maskLoad) && decide (x < L.elements) then full x else old
  | _ => elementBit I s L stop s.cfg.vlen x old result

/-- The new registers for a mask destination. -/
def writeMask (I : VInstr) (s : State) (L : Layout) (stop : Option Nat) (vd : RegNo) (result full : Nat → Bool) :
    Vector Nat 32 :=
  s.vreg.set vd.toNat
    (natOfBits s.cfg.vlen fun x => maskDestBit I s L stop full x (vregBit s vd.toNat x) (result x)) vd.isLt

/-- Step 5: the vector registers after the elements reached. With `vstart` >= `vl` no element of any destination is
written, the tail included (R231). The rounding mode is the one in `vxrm` when the instruction executes
(43_fixed_point_rounding.md R265). -/
def writeElements (I : VInstr) (stop : Option Nat) (s : State) : Vector Nat 32 :=
  if s.vl ≤ s.vstart then s.vreg
  else
    match I.dest, layoutOf I s with
    | .group vd result, some L => writeGroup I s L stop vd.toNat fun x => resultValue s.vxrm (result x)
    | .mask vd result full, some L => writeMask I s L stop vd result full
    | _, _ => s.vreg

/-- The result of element `x` had to be saturated. -/
def saturatesAt (I : VInstr) (s : State) (x : Nat) : Bool :=
  I.saturates x ||
    match I.dest with
    | .group _ result => roundingSaturates s.vxrm (result x)
    | .mask _ _ _ | .xreg _ _ | .none => false

/-- A fixed-point instruction, and an active element of it that was reached, had to saturate
(43_fixed_point_rounding.md R266). DESIGN CHOICE (log entry 32): an element that is not active never sets the flag, which
R266 and 91_not_in_source.md N22 leave open. -/
def someSaturates (I : VInstr) (stop : Option Nat) (s : State) : Bool :=
  decide (I.cls = .fixedPoint) &&
    (List.range s.vl).any fun x =>
      decide (s.vstart ≤ x) && maskAllows I s x && reached stop x && saturatesAt I s x

/-- `vl` after the instruction: a fault-only-first load may lower it, never raise it (10_state.md R51, GK21); no other
class writes it. -/
def vlAfter (cls : VClass) (vl : Nat) : Nat :=
  match cls with
  | .faultOnlyFirstLoad trim => min trim vl
  | .wholeRegister _ _ | .maskLoad | .maskProducing | .fixedPoint | .arithmetic | .other => vl

/-! ### How the instruction ends (R221, steps 5 to 7) -/

/-- An integer destination is written when the instruction completes, whatever `vstart` is (R231). -/
def writeScalar (I : VInstr) (s : State) : State :=
  match I.dest with
  | .xreg rd value => setX s rd value
  | .group _ _ | .mask _ _ _ | .none => s

/-- Step 7: the instruction completes; `vstart` becomes 0 (R229). -/
def completeVector (I : VInstr) (s : State) : State :=
  advancePc (applyDirty s (writeScalar I (accrueVxsat (someSaturates I none s)
    { s with vreg := writeElements I none s, vl := vlAfter I.cls s.vl, vstart := 0 })))

/-- A trap of `Base` at an element: the element, `Base`'s number, and whether it is an asynchronous interrupt or a
synchronous exception (60_exceptions.md R286). -/
structure Stop where
  element : Nat
  number : Nat
  isInterrupt : Bool
  deriving DecidableEq, Repr

/-- The cause of the trap. -/
def stopCause (p : Stop) : Cause := if p.isInterrupt then .interrupt p.number else .exception p.number

/-- Step 6: a trap is taken at element `e`; `vstart` becomes `e`, `pc` stays (60_exceptions.md R286, R251). -/
def trapAtElement (I : VInstr) (p : Stop) (s : State) : State :=
  applyDirty s (accrueVxsat (someSaturates I (some p.element) s)
    { s with vreg := writeElements I (some p.element) s, vstart := p.element, trap := some ⟨stopCause p, readPc s⟩ })

/-- Element `x` of a source is the same in both states. -/
def sourceIntact (L : Layout) (s t : State) (x : Nat) : VSource → Bool
  | .group vs => elem t vs.toNat x L.width == elem s vs.toNat x L.width
  | .mask vs => vregBit t vs.toNat x == vregBit s vs.toNat x

/-- "the source operands of elements e and above must still be intact" (60_exceptions.md R287): the mask and the vector
sources of the elements from `e` up to `vl` - 1. DESIGN CHOICE (log entry 35): the source operands of element `x` are
element `x` of each source, no other index, the spec giving no instruction's source indices. -/
def sourcesIntact (I : VInstr) (e : Nat) (s t : State) : Bool :=
  (List.range s.vl).all fun x => decide (x < e) ||
    ((!I.masked || maskBit t x == maskBit s x) &&
      match layoutOf I s with
      | none => true
      | some L => I.sources.all (sourceIntact L s t x))

/-- Where a trap can be taken: at an element of the body; a synchronous exception at an active one (R232); and only where
executing again with that `vstart` can complete the instruction (60_exceptions.md R286, R287), so at a `vstart` the
implementation produces for it (R285), at element 0 where it requires that (R283), with the sources still intact. -/
def canStopAt (I : VInstr) (p : Stop) (s : State) : Bool :=
  decide (s.vstart ≤ p.element ∧ p.element < s.vl) && (p.isInterrupt || maskAllows I s p.element) &&
    (!I.requiresVstartZero || decide (p.element = 0)) && legalVstart s.cfg I.word s.vtype p.element &&
    sourcesIntact I p.element s (trapAtElement I p s)

/-- The frame of every vector instruction but the three configuration ones (R221). `stop` is the trap that `Base` would
take inside the instruction, if any: a draw of `Base` (10_state.md R86). Where no trap can be taken there, the
instruction completes. -/
def vectorInstruction (I : VInstr) (stop : Option Stop) (s : State) : Host.Outcome State Fault Refusal :=
  frameChecks (dependsOnVtype I.cls) I.requiresVstartZero (hasMisnumberedGroup I s) I.word s
    (match stop with
      | some p => if canStopAt I p s then .next (trapAtElement I p s) else .next (completeVector I s)
      | none => .next (completeVector I s))

end Sys2Proof.Machine
end

