-- ==== Sys2Proof/Machine/Step.lean ====
section
/-! DEFINITION. One step of the machine, and the placing of one instruction where the next step fetches it. -/

namespace Sys2Proof.Machine

/-- One step (00_scope.md R12): a pending trap is taken by `Base`; else the word at `pc` is fetched, decoded and
executed. Between two instructions `VS` may become Dirty (10_state.md R27). -/
def step (s : State) : Host.Outcome State Fault Refusal :=
  betweenInstructions <|
    match s.trap with
    | some t => .next (takeTrap t s)
    | none =>
      match fetch s with
      | .misaligned => .refused (.misalignedFetch (readPc s))
      | .noText => .fault (.noProgramText (readPc s))
      | .word w =>
        match decode w with
        | .ok i => exec i s
        | .error e => undecoded e w s

/-- `s` with the instruction of the table's bits `w` placed at `pc`, and no trap pending, so that the next step fetches
and runs it (log entry 30). -/
def State.withFetchWord (s : State) (nbits w : Nat) : State :=
  { s with
    text := placeWord s.cfg s.text (readPc s) (BitVec.ofNat 32 (w % 2 ^ nbits))
    trap := none }

end Sys2Proof.Machine
end

