-- ==== Sys2Proof/Machine/Assembler.lean ====
section
/-! DEFINITION. The assembler's side of the instructions (30_encoding.md R150 to R153): the `vtype` immediate from its
flags, and the pseudo-instructions. Assembly text itself is not modelled. -/

namespace Sys2Proof.Machine

/-- The 8-bit `vtypei` of `e<SEW>, m<LMUL>` and the two flags (R150, R126); a flag that is not given is `tu`, `mu`
(R151). -/
def vtypei (sew : Sew) (lmul : Lmul) (tailAgnostic : Option Bool := none) (maskAgnostic : Option Bool := none) :
    BitVec 8 :=
  (BitVec.ofBool (maskAgnostic.getD false) ++ BitVec.ofBool (tailAgnostic.getD false) ++ sewCode sew ++ lmulCode lmul :
    BitVec (1 + 1 + 3 + 3))

/-- `vsetvli rd, rs1, e<SEW>, m<LMUL>, <flags>`. -/
def asmVsetvli (rd rs1 : RegNo) (vtypei : BitVec 8) : Instr := .vsetvli rd rs1 (vtypei.setWidth 11)

/-- Whether an assembler should warn of a `vsetvli` (R143): its LMUL lies in the reserved region of the implementation. -/
def asmWarns (c : Config) (lmul : Lmul) : Bool := belowLmulBound c lmul

/-- `vsetivli rd, uimm, e<SEW>, m<LMUL>, <flags>`. -/
def asmVsetivli (rd : RegNo) (uimm : BitVec 5) (vtypei : BitVec 8) : Instr := .vsetivli rd uimm (vtypei.setWidth 10)

/-- `csrr rd, csr` (R152). -/
def asmCsrr (rd : RegNo) (csr : Csr) : Instr := .csrrs rd csr 0
/-- `csrw csr, rs`. -/
def asmCsrw (csr : Csr) (rs : RegNo) : Instr := .csrrw 0 csr rs
/-- `csrs csr, rs`. -/
def asmCsrs (csr : Csr) (rs : RegNo) : Instr := .csrrs 0 csr rs
/-- `csrc csr, rs`. -/
def asmCsrc (csr : Csr) (rs : RegNo) : Instr := .csrrc 0 csr rs
/-- `csrwi csr, uimm`: with `rd` = `x0`, it does not save the old value (90_conflicts.md C1). -/
def asmCsrwi (csr : Csr) (uimm : BitVec 5) : Instr := .csrrwi 0 csr uimm
/-- `csrsi csr, uimm`. -/
def asmCsrsi (csr : Csr) (uimm : BitVec 5) : Instr := .csrrsi 0 csr uimm
/-- `csrci csr, uimm`. -/
def asmCsrci (csr : Csr) (uimm : BitVec 5) : Instr := .csrrci 0 csr uimm

/-- The name an assembler accepts for a CSR (R153); a CSR of `Base` has none here. -/
def csrName : Csr → Option String
  | .vstart => some "vstart"
  | .vxsat => some "vxsat"
  | .vxrm => some "vxrm"
  | .vcsr => some "vcsr"
  | .vl => some "vl"
  | .vtype => some "vtype"
  | .vlenb => some "vlenb"
  | .base _ => none

end Sys2Proof.Machine
end

