-- ==== Sys2Proof/Safety.lean ====
section
/-! DEFINITION. What claims about the machine are stated in: the invariant of the state, the reset states the spec
allows, and the relations between a state and the next that the frames are built from. -/

namespace Sys2Proof.Machine

/-! ### Invariants -/

/-- What `vtype` and `vl` satisfy together: with `vill` set, `vl` = 0; with `vill` = 0 the configuration is supported
and `vl` is at most VLMAX (10_state.md R45, R52; 70_reset_and_hazards.md R321). -/
def ConfigConsistent (c : Config) (t : VType) (vl : Nat) : Prop :=
  match t with
  | .illegal => vl = 0
  | .legal f => supports c f.vsew f.vlmul = true ∧ vl ≤ vlmaxOf c f.vsew f.vlmul

/-- The invariant of the machine: every register holds a value of its width, `vtype` and `vl` agree, the parameters
obey the spec, the program text has its canonical form. -/
structure Invariant (s : State) : Prop where
  cfgValid : configValid s.cfg = true
  configConsistent : ConfigConsistent s.cfg s.vtype s.vl
  vstartFits : s.vstart < 2 ^ vstartBits s.cfg
  vregFits : ∀ r : Fin 32, s.vreg[r] < 2 ^ s.cfg.vlen
  xFits : ∀ r : Fin 32, zx s.cfg s.x[r] = s.x[r]
  pcFits : zx s.cfg s.pc = s.pc
  mstatusFits : zx s.cfg s.mstatusOther &&& ~~~vsMask = s.mstatusOther
  misaFits : zx s.cfg s.misaOther &&& ~~~misaVMask = s.misaOther
  textWf : s.text.wf
  textInSpace : ∀ cell ∈ s.text, cell.1 < 2 ^ xlenBits s.cfg

/-- The reset states that 70_reset_and_hazards.md R320 to R327 allow: `vtype` and `vl` as R321 constrains them, every
other vector register any value of its width. `VS`, `pc` and the state of `Base` are free. -/
structure ResetAllowed (s : State) : Prop where
  cfgValid : configValid s.cfg = true
  configConsistent : ConfigConsistent s.cfg s.vtype s.vl
  vstartFits : s.vstart < 2 ^ vstartBits s.cfg
  vregFits : ∀ r : Fin 32, s.vreg[r] < 2 ^ s.cfg.vlen
  noTrap : s.trap = none

/-! ### Relations between a state and the next -/

/-- The vector state of 10_state.md R27 is the same in both. -/
def SameVectorState (s t : State) : Prop :=
  t.vreg = s.vreg ∧ t.vtype = s.vtype ∧ t.vl = s.vl ∧ t.vstart = s.vstart ∧ t.vxrm = s.vxrm ∧ t.vxsat = s.vxsat

/-- `VS` obeys 10_state.md R27 from `s` to `t`: Off and Dirty stay; Initial and Clean become Dirty when vector state
changed, and otherwise stay or become Dirty. -/
def VsObeysDirtyRule (s t : State) : Prop :=
  (s.vs = .off → t.vs = .off) ∧ (s.vs = .dirty → t.vs = .dirty) ∧
  (t.vs = s.vs ∨ t.vs = .dirty) ∧
  (s.vs = .initial ∨ s.vs = .clean → ¬SameVectorState s t → t.vs = .dirty)

/-- Integer register `rd` receives `v`, a write to `x0` being discarded; every other integer register is unchanged. -/
def XWritten (s t : State) (rd : RegNo) (v : Word) : Prop :=
  ∀ r : RegNo, readX t r = if r = rd ∧ rd ≠ 0#5 then v else readX s r

/-- `pc` advances by 4, modulo 2^XLEN. -/
def PcAdvanced (s t : State) : Prop := (readPc t).toNat = ((readPc s).toNat + 4) % 2 ^ xlenBits s.cfg

/-- What no instruction of the table changes: the parameters, the vector registers, the bits of `mstatus` and `misa`
that are `Base`'s, every byte of the program text. -/
def RestUnchanged (s t : State) : Prop :=
  t.cfg = s.cfg ∧ t.vreg = s.vreg ∧ t.mstatusOther = s.mstatusOther ∧ t.misaOther = s.misaOther ∧
  ∀ a, readByte t.text a = readByte s.text a

/-- The effect of writing `w` to a read-write vector CSR, field by field, and nothing else among the vector CSRs
(40_csr_access.md R173). -/
def CsrWritten (s t : State) (csr : Csr) (w : Word) : Prop :=
  t.vtype = s.vtype ∧ t.vl = s.vl ∧
  t.vstart = (if csr = .vstart then w.toNat % 2 ^ vstartBits s.cfg else s.vstart) ∧
  t.vxrm.toNat = (if csr = .vxrm then w.toNat % 4 else if csr = .vcsr then w.toNat / 2 % 4 else s.vxrm.toNat) ∧
  t.vxsat = (if csr = .vxsat ∨ csr = .vcsr then decide (w.toNat % 2 = 1) else s.vxsat)

/-- A CSR-access instruction that wrote `w` completed: the old value is in `rd`. -/
def CsrAccessCompleted (s t : State) (csr : Csr) (rd : RegNo) (w : Word) : Prop :=
  CsrWritten s t csr w ∧ XWritten s t rd (csrRead s csr) ∧ PcAdvanced s t ∧ VsObeysDirtyRule s t ∧
  RestUnchanged s t ∧ t.trap = s.trap

/-- A configuration instruction completed with `vtype` = `ty` and `vl` = `vl`: the new `vl` is in `rd`, `vstart` is 0,
`vxrm` and `vxsat` are as they were. -/
def ConfigInstalled (s t : State) (ty : VType) (vl : Nat) (rd : RegNo) : Prop :=
  t.vtype = ty ∧ t.vl = vl ∧ t.vstart = 0 ∧ t.vxrm = s.vxrm ∧ t.vxsat = s.vxsat ∧
  XWritten s t rd (xword s.cfg vl) ∧ PcAdvanced s t ∧ VsObeysDirtyRule s t ∧ RestUnchanged s t ∧ t.trap = s.trap

/-- The outcome Trap(illegal-instruction, state): nothing but the pending trap differs, and it holds the address of the
instruction (60_exceptions.md R280). -/
def TrapsIllegal (s : State) (o : Host.Outcome State Fault Refusal) : Prop :=
  o = .next { s with trap := some ⟨.illegalInstruction, readPc s⟩ }

/-- A step that raises illegal-instruction: the trap is pending, and only `VS` and the draws may differ besides. -/
def StepTrapsIllegal (s : State) : Prop :=
  ∃ t, step s = .next t ∧ t.trap = some ⟨.illegalInstruction, readPc s⟩ ∧ SameVectorState s t ∧ t.pc = s.pc ∧ t.x = s.x

/-- A layout that the registers can hold: whole elements in a register, and no more of them than the group has room
for. -/
def LayoutFits (c : Config) (L : Layout) : Prop :=
  0 < L.width ∧ L.width ∣ c.vlen ∧ 1 ≤ L.registers ∧ L.elements ≤ L.registers * (c.vlen / L.width)

/-- A CSR that CSR instructions may write: `vstart`, `vxsat`, `vxrm`, `vcsr` (10_state.md R20). -/
def csrReadWrite : Csr → Bool
  | .vstart | .vxsat | .vxrm | .vcsr => true
  | .vl | .vtype | .vlenb | .base _ => false

/-- The six CSR-access instructions on a CSR. -/
def isCsrAccess (csr : Csr) : Instr → Bool
  | .csrrw _ c _ | .csrrs _ c _ | .csrrc _ c _ | .csrrwi _ c _ | .csrrsi _ c _ | .csrrci _ c _ => c == csr
  | .vsetvli _ _ _ | .vsetivli _ _ _ | .vsetvl _ _ _ => false

/-- does_write (40_csr_access.md R162 to R167): the form writes its CSR. -/
def doesWrite : Instr → Bool
  | .csrrw _ _ _ | .csrrwi _ _ _ => true
  | .csrrs _ _ rs1 | .csrrc _ _ rs1 => rs1 != 0#5
  | .csrrsi _ _ uimm | .csrrci _ _ uimm => uimm != 0#5
  | .vsetvli _ _ _ | .vsetivli _ _ _ | .vsetvl _ _ _ => false

/-- The configuration instructions. -/
def isConfig : Instr → Bool
  | .vsetvli _ _ _ | .vsetivli _ _ _ | .vsetvl _ _ _ => true
  | .csrrw _ _ _ | .csrrs _ _ _ | .csrrc _ _ _ | .csrrwi _ _ _ | .csrrsi _ _ _ | .csrrci _ _ _ => false

/-- The destination register of an instruction. -/
def rdOf : Instr → RegNo
  | .csrrw rd _ _ | .csrrs rd _ _ | .csrrc rd _ _ | .csrrwi rd _ _ | .csrrsi rd _ _ | .csrrci rd _ _ => rd
  | .vsetvli rd _ _ | .vsetivli rd _ _ | .vsetvl rd _ _ => rd

/-- The number whose bits 7:0 are the four fields of `vtype` (10_state.md R46). -/
def fieldsNumber (f : VFields) : Nat :=
  128 * f.vma.toNat + 64 * f.vta.toNat + 8 * (sewCode f.vsew).toNat + (lmulCode f.vlmul).toNat

end Sys2Proof.Machine
end

