-- ==== Sys2Proof/Certificates/Slice0/Obligations.lean ====
section
/-! DEFINITION. The statements for the provers. -/

open Sys2Proof Sys2Proof.Machine

/-! ### Encoding -/

/-- Decoding the word of a well-formed instruction gives the instruction back, every operand at every value
(30_encoding.md sections 1, 3 and 4). -/
def Obligations.EncodeThenDecodeIsIdentity : Prop :=
  ∀ i : Instr, i.wellFormed = true →
    decode (encode i) = .ok i ∧ decodeTableWord 32 (encode i).toNat = some i

/-- A word that decodes is the encoding of what it decodes to, so no word has two meanings and no bit of a decoded word
is ignored (30_encoding.md section 4). -/
def Obligations.DecodedWordIsItsEncoding : Prop :=
  ∀ (w : BitVec 32) (i : Instr), decode w = .ok i → encode i = w

/-- The opcode map of 30_encoding.md section 4: a word is an instruction exactly when it matches the mask and pattern of
its row; which CSR each of the seven addresses names (10_state.md section 2) and that no other is in scope; and that the
rows are disjoint, which the spec marks as its own inference ("The rows are disjoint [derived: ...]"). -/
def Obligations.DecodeFollowsOpcodeMap : Prop :=
  (∀ (w : BitVec 32) (r r' : OpcodeRow), r ∈ opcodeMap → r' ∈ opcodeMap → w &&& r.mask = r.pattern →
    w &&& r'.mask = r'.pattern → r = r') ∧
  (∀ w : BitVec 32, (w &&& 0x0000707F#32 = 0x00001073#32 ↔ ∃ rd csr rs1, decode w = .ok (.csrrw rd csr rs1)) ∧
    (w &&& 0x0000707F#32 = 0x00002073#32 ↔ ∃ rd csr rs1, decode w = .ok (.csrrs rd csr rs1)) ∧
    (w &&& 0x0000707F#32 = 0x00003073#32 ↔ ∃ rd csr rs1, decode w = .ok (.csrrc rd csr rs1)) ∧
    (w &&& 0x0000707F#32 = 0x00005073#32 ↔ ∃ rd csr uimm, decode w = .ok (.csrrwi rd csr uimm)) ∧
    (w &&& 0x0000707F#32 = 0x00006073#32 ↔ ∃ rd csr uimm, decode w = .ok (.csrrsi rd csr uimm)) ∧
    (w &&& 0x0000707F#32 = 0x00007073#32 ↔ ∃ rd csr uimm, decode w = .ok (.csrrci rd csr uimm)) ∧
    (w &&& 0x8000707F#32 = 0x00007057#32 ↔ ∃ rd rs1 zimm, decode w = .ok (.vsetvli rd rs1 zimm)) ∧
    (w &&& 0xC000707F#32 = 0xC0007057#32 ↔ ∃ rd uimm zimm, decode w = .ok (.vsetivli rd uimm zimm)) ∧
    (w &&& 0xFE00707F#32 = 0x80007057#32 ↔ ∃ rd rs1 rs2, decode w = .ok (.vsetvl rd rs1 rs2))) ∧
  (csrOfAddr 0x008#12 = .vstart ∧ csrOfAddr 0x009#12 = .vxsat ∧ csrOfAddr 0x00A#12 = .vxrm ∧
    csrOfAddr 0x00F#12 = .vcsr ∧ csrOfAddr 0xC20#12 = .vl ∧ csrOfAddr 0xC21#12 = .vtype ∧
    csrOfAddr 0xC22#12 = .vlenb) ∧
  (∀ csr : BitVec 12, (csrOfAddr csr).isVector = true ↔
    csr ∈ [0x008#12, 0x009#12, 0x00A#12, 0x00F#12, 0xC20#12, 0xC21#12, 0xC22#12])

/-- 30_encoding.md R125: the opcode and bits 14:12 of the three configuration instructions, how they are told apart,
which patterns are reserved, and that the other words of the opcode are vector instructions outside the spec. -/
def Obligations.ConfigPatternsAreToldApart : Prop :=
  (∀ (w : BitVec 32) (i : Instr), decode w = .ok i → isConfig i = true →
    w.extractLsb' 0 7 = 0b1010111#7 ∧ w.extractLsb' 12 3 = 0b111#3) ∧
  ∀ w : BitVec 32, w.extractLsb' 0 7 = 0b1010111#7 →
    (w.extractLsb' 12 3 = 0b111#3 →
      (w.extractLsb' 31 1 = 0b0#1 → ∃ rd rs1 zimm, decode w = .ok (.vsetvli rd rs1 zimm)) ∧
      (w.extractLsb' 30 2 = 0b11#2 → ∃ rd uimm zimm, decode w = .ok (.vsetivli rd uimm zimm)) ∧
      (w.extractLsb' 25 7 = 0b1000000#7 → ∃ rd rs1 rs2, decode w = .ok (.vsetvl rd rs1 rs2)) ∧
      (w.extractLsb' 30 2 = 0b10#2 → w.extractLsb' 25 5 ≠ 0#5 → decode w = .error .reservedConfig)) ∧
    (w.extractLsb' 12 3 ≠ 0b111#3 → decode w = .error .vectorOutOfScope)

/-- Words of the worked examples of 40_csr_access.md section 2 and 41_vset_config.md section 3 decode to their
instructions (t0 = x5, t1 = x6, a0 = x10, a1 = x11). -/
def Obligations.ExampleWordsDecode : Prop :=
  decode 0x008512F3#32 = .ok (.csrrw 5#5 .vstart 10#5) ∧
  decode 0xC2002373#32 = .ok (.csrrs 6#5 .vl 0#5) ∧
  decode 0x00F2B073#32 = .ok (.csrrc 0#5 .vcsr 5#5) ∧
  decode 0x00A152F3#32 = .ok (.csrrwi 5#5 .vxrm 2#5) ∧
  decode 0x0090E073#32 = .ok (.csrrsi 0#5 .vxsat 1#5) ∧
  decode 0x00F0F2F3#32 = .ok (.csrrci 5#5 .vcsr 1#5) ∧
  decode 0x0D2572D7#32 = .ok (.vsetvli 5#5 10#5 0x0D2#11) ∧
  decode 0xCC9572D7#32 = .ok (.vsetivli 5#5 10#5 0x0C9#10) ∧
  decode 0x80B572D7#32 = .ok (.vsetvl 5#5 10#5 11#5)

/-! ### The step -/

/-- When no trap is pending and the word at `pc` decodes to an instruction, the step is the meaning of that instruction,
followed by the spontaneous transition of `VS` that 10_state.md section 4 allows between two instructions; a word that
is there is the one whose four bytes are stored from `pc` on, least significant first (20_memory.md section 3). The
model's own: that the transition is drawn once, after the instruction (log entry 22), as `drawSpontaneous` of the
counter, which goes up by one (log entry 6), and that the four bytes wrap modulo 2^XLEN at the top of the address space
(log entry 10). -/
def Obligations.StepRunsTheDecodedInstruction : Prop :=
  ∀ (s : State) (b0 b1 b2 b3 : Byte) (i : Instr), s.trap = none →
    (readPc s).toNat % (if s.cfg.compressed then 2 else 4) = 0 →
    readByte s.text ((readPc s).toNat % 2 ^ xlenBits s.cfg) = some b0 →
    readByte s.text (((readPc s).toNat + 1) % 2 ^ xlenBits s.cfg) = some b1 →
    readByte s.text (((readPc s).toNat + 2) % 2 ^ xlenBits s.cfg) = some b2 →
    readByte s.text (((readPc s).toNat + 3) % 2 ^ xlenBits s.cfg) = some b3 →
    decode (b3 ++ b2 ++ b1 ++ b0 : BitVec (8 + 8 + 8 + 8)) = .ok i →
    step s = match exec i s with
      | .next t => .next { t with
          vs := if (t.vs = .initial ∨ t.vs = .clean) ∧ Config.drawSpontaneous t.draws = true then .dirty else t.vs
          draws := t.draws + 1 }
      | .fault r => .fault r
      | .refused r => .refused r

/-- A word placed at an aligned `pc` is what the next step fetches, and nothing but the text and the pending trap
changes; every byte outside the four placed ones stays, and the text keeps its canonical form (the model's own loader,
log entries 9 and 30). -/
def Obligations.PlacedWordIsFetched : Prop :=
  ∀ (s : State) (w : Nat), w < 2 ^ 32 → s.text.wf → (readPc s).toNat % fetchAlignment s.cfg = 0 →
    fetch (s.withFetchWord 32 w) = .word (BitVec.ofNat 32 w) ∧
    (s.withFetchWord 32 w).text.wf ∧
    (∀ a, (∀ k < 4, a ≠ ((readPc s).toNat + k) % 2 ^ xlenBits s.cfg) →
      readByte (s.withFetchWord 32 w).text a = readByte s.text a) ∧
    s.withFetchWord 32 w = { s with text := (s.withFetchWord 32 w).text, trap := none }

/-- A pending trap is handed to `Base` (60_exceptions.md section 3): the integer registers, `pc` and `Base`'s bits of
`mstatus` and `misa` are those that `Base.take_trap` makes of them, cut to their widths; the step changes no vector state
but what the spontaneous transition of `VS` allows, and no trap is pending afterwards. The model keeps the pending trap
in a field of its own, and `take_trap` is a free value (log entry 7). -/
def Obligations.PendingTrapGoesToBase : Prop :=
  ∀ (s : State) (tr : Trap), s.trap = some tr → ∃ t b, step s = .next t ∧ SameVectorState s t ∧ t.trap = none ∧
    b = Config.takeTrap s.cfg s.draws tr ⟨s.x, s.pc, s.mstatusOther, s.misaOther⟩ ∧
    (∀ r : Fin 32, t.x[r] = zx s.cfg b.x[r]) ∧ t.pc = zx s.cfg b.pc ∧
    t.mstatusOther = zx s.cfg b.mstatusOther &&& ~~~0x600#64 ∧
    t.misaOther = zx s.cfg b.misaOther &&& ~~~0x200000#64 ∧
    t.cfg = s.cfg ∧ (t.vs = s.vs ∨ (t.vs = .dirty ∧ s.vs ≠ .off)) ∧ ∀ a, readByte t.text a = readByte s.text a

/-- What stops a step with no trap pending: no text at `pc` is a fault; a `pc` off the alignment of instructions is
refused (both the model's choice, log entries 9 and 10); a reserved configuration pattern is refused, or
raises illegal-instruction where the implementation is known to trap (30_encoding.md section 5); a word of the vector
instructions outside the spec raises illegal-instruction with `VS` = Off (60_exceptions.md section 1) and with `vill`
set. That such a word depends on `vtype` is the spec's inference for an unlisted instruction
(42_vector_instruction_frame.md section 1), carried to words (log entry 20); that past the checks it, and any other word
that is no instruction of the spec, is refused by name is the model's choice (log entry 20). -/
def Obligations.UndecodedWordsStopByName : Prop :=
  ∀ s : State, s.trap = none →
    (fetch s = .noText → step s = .fault (.noProgramText (readPc s))) ∧
    ((readPc s).toNat % (if s.cfg.compressed then 2 else 4) ≠ 0 → step s = .refused (.misalignedFetch (readPc s))) ∧
    (∀ w, fetch s = .word w →
      (decode w = .error .reservedConfig → s.cfg.reservedTraps = false →
        step s = .refused .reservedConfigPattern) ∧
      (decode w = .error .reservedConfig → s.cfg.reservedTraps = true → StepTrapsIllegal s) ∧
      (decode w = .error .vectorOutOfScope → s.vs = .off ∨ s.vtype = .illegal → StepTrapsIllegal s) ∧
      (∀ f, decode w = .error .vectorOutOfScope → s.vs ≠ .off → s.vtype = .legal f → s.vstart = 0 →
        1 ≤ vlmaxOf s.cfg f.vsew f.vlmul → belowLmulBound s.cfg f.vlmul = false →
        step s = .refused (.vectorOutOfScope w)) ∧
      (decode w = .error .baseInstruction → step s = .refused (.baseInstruction w)) ∧
      (decode w = .error .notFullWord → step s = .refused (.notFullWord w)))

/-- A word of the vector instructions outside the spec meets the checks of 42_vector_instruction_frame.md section 1 in
their order, as an instruction that depends on `vtype` (the spec's inference for an unlisted instruction, carried to
words, log entry 20): it stops, or raises illegal-instruction, wherever the frame does for an instruction of that word,
and, by the model's choice (log entry 20), is refused where the frame would go on to its elements. -/
def Obligations.VectorWordsMeetTheFrameChecks : Prop :=
  ∀ (s : State) (w : BitVec 32) (I : VInstr), s.trap = none → fetch s = .word w →
    decode w = .error .vectorOutOfScope → I.word = w → dependsOnVtype I.cls = true →
    I.requiresVstartZero = Config.requiresVstartZero s.cfg w → hasMisnumberedGroup I s = false →
    step s =
      match vectorInstruction I none s with
      | .next t => if t.trap = none then .refused (.vectorOutOfScope w) else .next (spontaneousDirty t)
      | .fault r => .fault r
      | .refused r => .refused r

/-! ### CSR access -/

/-- 40_csr_access.md R160, the read column: what `csr_read` returns for each of the seven CSRs, as a number; in a state
that meets the invariant no bit of a stored value is lost. -/
def Obligations.CsrReadsReturnStoredValues : Prop :=
  ∀ s : State, Invariant s →
    (csrRead s .vstart).toNat = s.vstart ∧
    (csrRead s .vxsat).toNat = s.vxsat.toNat ∧
    (csrRead s .vxrm).toNat = s.vxrm.toNat ∧
    (csrRead s .vcsr).toNat = 2 * s.vxrm.toNat + s.vxsat.toNat ∧
    (csrRead s .vl).toNat = s.vl ∧
    (csrRead s .vtype).toNat =
      (match s.vtype with
        | .illegal => 2 ^ (xlenBits s.cfg - 1)
        | .legal f => fieldsNumber f) ∧
    (csrRead s .vlenb).toNat = s.cfg.vlen / 8

/-- 10_state.md R46: the value read from `vtype`, with the three examples of the rule. -/
def Obligations.VtypeReadValue : Prop :=
  (∀ s : State, s.vtype = .illegal → (csrRead s .vtype).toNat = 2 ^ (xlenBits s.cfg - 1)) ∧
  (∀ (s : State) (f : VFields), s.vtype = .legal f →
    (csrRead s .vtype).toNat =
      128 * f.vma.toNat + 64 * f.vta.toNat + 8 * (sewCode f.vsew).toNat + (lmulCode f.vlmul).toNat) ∧
  (∀ s : State, s.cfg.xlen = .rv64 → s.vtype = .illegal → csrRead s .vtype = 0x8000000000000000#64) ∧
  (∀ s : State, s.cfg.xlen = .rv32 → s.vtype = .illegal → csrRead s .vtype = 0x80000000#64) ∧
  (∀ s : State, s.vtype = .legal ⟨true, true, .e32, .m4⟩ → csrRead s .vtype = 0xD2#64)

/-- The register forms that write: `csrrw` always, `csrrs` and `csrrc` with `rs1` other than `x0`. With `VS` not Off
and a read-write CSR they complete, with the effect of 40_csr_access.md section 2 and nothing else. -/
def Obligations.RegisterFormsWriteCsr : Prop :=
  ∀ (s : State) (csr : Csr) (rd rs1 : RegNo), s.vs ≠ .off → csrReadWrite csr = true →
    (∃ t, exec (.csrrw rd csr rs1) s = .next t ∧ CsrAccessCompleted s t csr rd (readX s rs1)) ∧
    (rs1 ≠ 0#5 → ∃ t, exec (.csrrs rd csr rs1) s = .next t ∧
      CsrAccessCompleted s t csr rd (csrRead s csr ||| readX s rs1)) ∧
    (rs1 ≠ 0#5 → ∃ t, exec (.csrrc rd csr rs1) s = .next t ∧
      CsrAccessCompleted s t csr rd (csrRead s csr &&& ~~~readX s rs1))

/-- The immediate forms that write: `csrrwi` always, `csrrsi` and `csrrci` with `uimm` not 0; the immediate is
zero-extended (40_csr_access.md section 2). -/
def Obligations.ImmediateFormsWriteCsr : Prop :=
  ∀ (s : State) (csr : Csr) (rd : RegNo) (uimm : BitVec 5), s.vs ≠ .off → csrReadWrite csr = true →
    (∃ t, exec (.csrrwi rd csr uimm) s = .next t ∧ CsrAccessCompleted s t csr rd (BitVec.ofNat 64 uimm.toNat)) ∧
    (uimm ≠ 0#5 → ∃ t, exec (.csrrsi rd csr uimm) s = .next t ∧
      CsrAccessCompleted s t csr rd (csrRead s csr ||| BitVec.ofNat 64 uimm.toNat)) ∧
    (uimm ≠ 0#5 → ∃ t, exec (.csrrci rd csr uimm) s = .next t ∧
      CsrAccessCompleted s t csr rd (csrRead s csr &&& ~~~BitVec.ofNat 64 uimm.toNat))

/-- The forms that only read, on any of the seven CSRs: `csrrs` and `csrrc` with `rs1` = `x0`, `csrrsi` and `csrrci`
with `uimm` = 0. With `VS` not Off they complete and change nothing but `x[rd]` and `pc` (40_csr_access.md sections 1,
2). -/
def Obligations.ReadingFormsOnlyRead : Prop :=
  ∀ (s : State) (csr : Csr) (rd : RegNo) (i : Instr), s.vs ≠ .off → csr.isVector = true →
    i ∈ [Instr.csrrs rd csr 0#5, .csrrc rd csr 0#5, .csrrsi rd csr 0#5, .csrrci rd csr 0#5] →
    ∃ t, exec i s = .next t ∧ XWritten s t rd (csrRead s csr) ∧ PcAdvanced s t ∧
      SameVectorState s t ∧ t.vs = s.vs ∧ RestUnchanged s t ∧ t.trap = s.trap

/-- 40_csr_access.md R170: a form that writes, on `vl`, `vtype` or `vlenb`, raises illegal-instruction and changes no
state; the forms that do not write are legal there. -/
def Obligations.ReadOnlyCsrWritesTrap : Prop :=
  ∀ (s : State) (csr : Csr) (i : Instr), csr ∈ [Csr.vl, Csr.vtype, Csr.vlenb] → isCsrAccess csr i = true →
    (doesWrite i = true → TrapsIllegal s (exec i s)) ∧
    (doesWrite i = false → s.vs ≠ .off → ∃ t, exec i s = .next t ∧ t.trap = s.trap ∧ PcAdvanced s t)

/-- 60_exceptions.md R281: with `VS` = Off every access to a vector CSR, read or write, and every vector instruction,
the configuration instructions and the words of the vector instructions outside the spec included, raises
illegal-instruction. -/
def Obligations.VsOffTrapsEverything : Prop :=
  ∀ s : State, s.vs = .off →
    (∀ (csr : Csr) (i : Instr), csr.isVector = true → isCsrAccess csr i = true → TrapsIllegal s (exec i s)) ∧
    (∀ i : Instr, isConfig i = true → TrapsIllegal s (exec i s)) ∧
    (∀ (I : VInstr) (stop : Option Stop), TrapsIllegal s (vectorInstruction I stop s)) ∧
    (∀ w, s.trap = none → fetch s = .word w → decode w = .error .vectorOutOfScope → StepTrapsIllegal s)

/-- A CSR-access instruction on a CSR of `Base` is outside the spec (30_encoding.md section 3); that it is refused with its
address, whatever `VS` is, is the model's choice (log entry 21). -/
def Obligations.BaseCsrAccessIsRefused : Prop :=
  ∀ (s : State) (addr : BitVec 12) (i : Instr), isCsrAccess (.base addr) i = true →
    exec i s = .refused (.baseCsr addr)

/-- The table of 40_csr_access.md section 1 that the spec derives from its other rules ("Summary for a performed
write"): what a performed write of `w` stores in each read-write CSR and which other views change, told through the
values that the CSRs read afterwards; and any index of VSTART_BITS bits can be stored in `vstart`. -/
def Obligations.CsrWriteStoresItsField : Prop :=
  (∀ (s t : State) (csr : Csr) (rd rs1 : RegNo), s.vs ≠ .off → csrReadWrite csr = true → Invariant s →
    exec (.csrrw rd csr rs1) s = .next t →
      (csrRead t .vstart).toNat =
        (if csr = .vstart then (readX s rs1).toNat % 2 ^ vstartBits s.cfg else (csrRead s .vstart).toNat) ∧
      (csrRead t .vxsat).toNat =
        (if csr = .vxsat ∨ csr = .vcsr then (readX s rs1).toNat % 2 else (csrRead s .vxsat).toNat) ∧
      (csrRead t .vxrm).toNat =
        (if csr = .vxrm then (readX s rs1).toNat % 4
         else if csr = .vcsr then (readX s rs1).toNat / 2 % 4 else (csrRead s .vxrm).toNat) ∧
      (csrRead t .vcsr).toNat = 2 * (csrRead t .vxrm).toNat + (csrRead t .vxsat).toNat ∧
      csrRead t .vl = csrRead s .vl ∧ csrRead t .vtype = csrRead s .vtype ∧ csrRead t .vlenb = csrRead s .vlenb) ∧
  (∀ (s : State) (rd rs1 : RegNo), s.vs ≠ .off → (readX s rs1).toNat < 2 ^ vstartBits s.cfg →
    ∃ t, exec (.csrrw rd .vstart rs1) s = .next t ∧ t.vstart = (readX s rs1).toNat ∧ t.trap = s.trap)

/-- The side effects common to the CSR-access instructions (40_csr_access.md section 1): one that completes applies the
`VS` rule when it writes; when it only reads it changes nothing but `x[rd]` and `pc`; it advances `pc` by 4; and, by the
spec's own inference ("A CSR instruction is not a vector instruction"), it does not reset `vstart`, and whether it
completes does not depend on `vill`, `vl` or `vstart`. -/
def Obligations.CsrInstructionsAreNoVectorInstructions : Prop :=
  ∀ (s : State) (csr : Csr) (i : Instr), csr.isVector = true → isCsrAccess csr i = true → s.vs ≠ .off →
    (doesWrite i = true → csrReadWrite csr = true) →
    ∃ t, exec i s = .next t ∧ t.trap = s.trap ∧ PcAdvanced s t ∧ t.vreg = s.vreg ∧ t.vtype = s.vtype ∧ t.vl = s.vl ∧
      (¬(doesWrite i = true ∧ csr = .vstart) → t.vstart = s.vstart) ∧
      (doesWrite i = true → VsObeysDirtyRule s t) ∧
      (doesWrite i = false → t = { s with x := t.x, pc := t.pc } ∧ ∀ r, r ≠ rdOf i → readX t r = readX s r)

/-! ### The configuration instructions -/

/-- When a request is supported (41_vset_config.md section 2, its third and fourth lines the spec's own inference): an
XLEN-bit request is supported exactly when bit XLEN-1 and the reserved bits are 0, the codes of SEW and LMUL are defined
ones, and the implementation supports the configuration; the fields it then asks for are the ones whose number it is.
The codes are those of 10_state.md section 5: SEW = 8 * 2^vsew, and LMUL = 2^vlmul with `vlmul` signed (told in eighths). -/
def Obligations.SupportedRequestsAreTheFieldNumbers : Prop :=
  (∀ sew : Sew, sewBits sew = 8 * 2 ^ (sewCode sew).toNat) ∧
  (∀ lmul : Lmul, (0 ≤ (lmulCode lmul).toInt → lmulEighths lmul = 8 * 2 ^ (lmulCode lmul).toInt.toNat) ∧
    ((lmulCode lmul).toInt < 0 → lmulEighths lmul * 2 ^ (-(lmulCode lmul).toInt).toNat = 8)) ∧
  ∀ (c : Config) (req : Word) (f : VFields), zx c req = req →
    (requestedFields c req = some f ↔ req.toNat = fieldsNumber f ∧ supports c f.vsew f.vlmul = true) ∧
    (requestedFields c req ≠ none ↔
      req.getLsbD (xlenBits c - 1) = false ∧ (∀ k, 8 ≤ k → k < xlenBits c - 1 → req.getLsbD k = false) ∧
      ∃ sew lmul, req.extractLsb' 3 3 = sewCode sew ∧ req.extractLsb' 0 3 = lmulCode lmul ∧
        supports c sew lmul = true)

/-- The choice of `vl` (41_vset_config.md section 2): the three clauses, and the consequences the spec infers from them
("Consequences [derived: from (1) to (3)]"). That the result depends on
AVL and VLMAX only, within one implementation, is that `chooseVl` takes nothing else. -/
def Obligations.ChooseVlObeysItsBounds : Prop :=
  ∀ (c : Config) (avl vlmax : Nat),
    (avl ≤ vlmax → chooseVl c avl vlmax = avl) ∧
    (vlmax < avl → avl < 2 * vlmax → (avl + 1) / 2 ≤ chooseVl c avl vlmax ∧ chooseVl c avl vlmax ≤ vlmax) ∧
    (2 * vlmax ≤ avl → chooseVl c avl vlmax = vlmax) ∧
    (1 ≤ vlmax → (chooseVl c avl vlmax = 0 ↔ avl = 0)) ∧
    chooseVl c avl vlmax ≤ vlmax ∧ chooseVl c avl vlmax ≤ avl

/-- A supported request with a requested length: `vsetvli` and `vsetvl` with `rs1` other than `x0`, `vsetivli` always.
The instruction completes, whatever `vill` and `vstart` were, and sets `vl` to the length the implementation chooses
for the new VLMAX (41_vset_config.md sections 2 and 3). -/
def Obligations.SupportedRequestWithLength : Prop :=
  ∀ (s : State) (rd rs1 rs2 : RegNo) (f : VFields), s.vs ≠ .off → supports s.cfg f.vsew f.vlmul = true →
    (∀ zimm : BitVec 11, zimm.toNat = fieldsNumber f → rs1 ≠ 0#5 → ∃ t, exec (.vsetvli rd rs1 zimm) s = .next t ∧
      ConfigInstalled s t (.legal f) (chooseVl s.cfg (readX s rs1).toNat (vlmaxOf s.cfg f.vsew f.vlmul)) rd) ∧
    (∀ (zimm : BitVec 10) (uimm : BitVec 5), zimm.toNat = fieldsNumber f → ∃ t,
      exec (.vsetivli rd uimm zimm) s = .next t ∧
      ConfigInstalled s t (.legal f) (chooseVl s.cfg uimm.toNat (vlmaxOf s.cfg f.vsew f.vlmul)) rd) ∧
    ((readX s rs2).toNat = fieldsNumber f → rs1 ≠ 0#5 → ∃ t, exec (.vsetvl rd rs1 rs2) s = .next t ∧
      ConfigInstalled s t (.legal f) (chooseVl s.cfg (readX s rs1).toNat (vlmaxOf s.cfg f.vsew f.vlmul)) rd)

/-- A supported request in the Max mode (`rs1` = `x0`, `rd` other than `x0`) sets `vl` to the new VLMAX
(41_vset_config.md section 2). -/
def Obligations.SupportedRequestForMaximum : Prop :=
  ∀ (s : State) (rd rs2 : RegNo) (f : VFields), s.vs ≠ .off → rd ≠ 0#5 → supports s.cfg f.vsew f.vlmul = true →
    (∀ zimm : BitVec 11, zimm.toNat = fieldsNumber f → ∃ t, exec (.vsetvli rd 0#5 zimm) s = .next t ∧
      ConfigInstalled s t (.legal f) (vlmaxOf s.cfg f.vsew f.vlmul) rd) ∧
    ((readX s rs2).toNat = fieldsNumber f → ∃ t, exec (.vsetvl rd 0#5 rs2) s = .next t ∧
      ConfigInstalled s t (.legal f) (vlmaxOf s.cfg f.vsew f.vlmul) rd)

/-- The Keep form (`rd` = `rs1` = `x0`) with a supported request (41_vset_config.md section 2): with the old `vtype`
legal and the same VLMAX it keeps `vl`; otherwise, also with `vill` set beforehand, the use is reserved: refused, or
illegal-instruction where the implementation is known to trap (30_encoding.md section 5; log entries 14 and 15). -/
def Obligations.KeepFormNeedsTheSameVlmax : Prop :=
  ∀ (s : State) (f : VFields) (i : Instr), s.vs ≠ .off → supports s.cfg f.vsew f.vlmul = true →
    ((∃ zimm : BitVec 11, zimm.toNat = fieldsNumber f ∧ i = .vsetvli 0#5 0#5 zimm) ∨
      (∃ rs2 : RegNo, (readX s rs2).toNat = fieldsNumber f ∧ i = .vsetvl 0#5 0#5 rs2)) →
    (vlmaxOfType s.cfg s.vtype = some (vlmaxOf s.cfg f.vsew f.vlmul) →
      ∃ t, exec i s = .next t ∧ ConfigInstalled s t (.legal f) s.vl 0#5) ∧
    (vlmaxOfType s.cfg s.vtype ≠ some (vlmaxOf s.cfg f.vsew f.vlmul) →
      (s.cfg.reservedTraps = true → TrapsIllegal s (exec i s)) ∧
      (s.cfg.reservedTraps = false → exec i s = .refused .reservedKeepForm))

/-- An unsupported request in any mode completes and sets `vill`, every other bit of `vtype` 0, `vl` = 0 and `rd` = 0
(41_vset_config.md sections 1 and 2). -/
def Obligations.UnsupportedRequestSetsVill : Prop :=
  ∀ (s : State) (rd rs1 rs2 : RegNo), s.vs ≠ .off →
    (∀ zimm : BitVec 11, (∀ f, zimm.toNat = fieldsNumber f → supports s.cfg f.vsew f.vlmul = false) →
      ∃ t, exec (.vsetvli rd rs1 zimm) s = .next t ∧ ConfigInstalled s t .illegal 0 rd) ∧
    (∀ (zimm : BitVec 10) (uimm : BitVec 5),
      (∀ f, zimm.toNat = fieldsNumber f → supports s.cfg f.vsew f.vlmul = false) →
      ∃ t, exec (.vsetivli rd uimm zimm) s = .next t ∧ ConfigInstalled s t .illegal 0 rd) ∧
    ((∀ f, (readX s rs2).toNat = fieldsNumber f → supports s.cfg f.vsew f.vlmul = false) →
      ∃ t, exec (.vsetvl rd rs1 rs2) s = .next t ∧ ConfigInstalled s t .illegal 0 rd)

/-- Saving and restoring the configuration, which the spec proves from its other rules (41_vset_config.md section 2,
"restores both CSRs exactly"): for a state whose `vtype` and `vl` are consistent, which every configuration
instruction and every allowed reset state leaves, the values read from the two CSRs, given back in registers other
than `x0` to `vsetvl x0, ra, rb` on the same implementation, restore both exactly. -/
def Obligations.SavedConfigurationIsRestored : Prop :=
  (∀ (s t : State) (ra rb : RegNo), configValid s.cfg = true → ConfigConsistent s.cfg s.vtype s.vl → t.cfg = s.cfg →
    t.vs ≠ .off → ra ≠ 0#5 → rb ≠ 0#5 → readX t ra = csrRead s .vl → readX t rb = csrRead s .vtype →
    ∃ u, exec (.vsetvl 0#5 ra rb) t = .next u ∧ u.vtype = s.vtype ∧ u.vl = s.vl) ∧
  (∀ (s t : State) (i : Instr), isConfig i = true → ConfigConsistent s.cfg s.vtype s.vl → exec i s = .next t →
    ConfigConsistent t.cfg t.vtype t.vl) ∧
  (∀ s : State, ResetAllowed s → ConfigConsistent s.cfg s.vtype s.vl)

/-- 41_vset_config.md R197: after a configuration instruction that completes, `x[rd]` is the new `vl` when `rd` is not
`x0`, and that is 0 when the instruction sets `vill`; with `rd` = `x0`, and elsewhere, no register changes. -/
def Obligations.ConfigurationResultIsTheNewVl : Prop :=
  ∀ (i : Instr) (s t : State), Invariant s → s.trap = none → isConfig i = true → exec i s = .next t → t.trap = none →
    (rdOf i ≠ 0#5 → (readX t (rdOf i)).toNat = t.vl ∧ (t.vtype = .illegal → readX t (rdOf i) = 0#64)) ∧
    ∀ r, r ≠ rdOf i ∨ rdOf i = 0#5 → readX t r = readX s r

/-! ### Whole-machine rules -/

/-- 10_state.md R82: `pc` has XLEN bits; an instruction of the table that completes adds 4 to it modulo 2^XLEN, one that
raises an exception leaves it; an instruction is executed only at a multiple of 4, or of 2 where `Base` has compressed
instructions. -/
def Obligations.CompletedInstructionsAdvancePc : Prop :=
  (∀ (i : Instr) (s t : State), s.trap = none → exec i s = .next t →
    (t.trap = none → (readPc t).toNat = ((readPc s).toNat + 4) % 2 ^ xlenBits s.cfg) ∧ (t.trap ≠ none → t.pc = s.pc)) ∧
  (∀ s : State, (readPc s).toNat < 2 ^ xlenBits s.cfg) ∧
  (∀ s t : State, s.trap = none → step s = .next t →
    (readPc s).toNat % (if s.cfg.compressed then 2 else 4) = 0)

/-- Only the configuration instructions change `vtype` or `vl` (10_state.md sections 5 and 6). -/
def Obligations.OnlyConfigurationChangesVtypeAndVl : Prop :=
  ∀ (i : Instr) (s t : State), exec i s = .next t → t.vtype ≠ s.vtype ∨ t.vl ≠ s.vl → isConfig i = true

/-- No instruction of the table reads or writes a vector register: with other contents in the vector registers it does
the same, and leaves those contents (10_state.md section 3). -/
def Obligations.VectorRegistersAreNeitherReadNorWritten : Prop :=
  ∀ (i : Instr) (s : State) (v : Vector Nat 32),
    exec i { s with vreg := v } =
      match exec i s with
      | .next t => .next { t with vreg := v }
      | .fault r => .fault r
      | .refused r => .refused r

/-- An instruction of the table that raises its exception changes nothing: the next state differs only in the pending
trap, which holds the cause and the address of the instruction (60_exceptions.md section 1). -/
def Obligations.RaisedExceptionChangesNothing : Prop :=
  ∀ (i : Instr) (s t : State), s.trap = none → exec i s = .next t → t.trap ≠ none →
    t = { s with trap := some ⟨.illegalInstruction, readPc s⟩ }

/-- The movement of `VS` (10_state.md section 4; that nothing moves it elsewhere is the spec's own inference, "No
vector instruction and no vector CSR access ever moves `VS` to Off, Initial or Clean"): a step leaves `VS` as it is or
makes it Dirty, never leaves Off or Dirty, and makes Initial and Clean Dirty when any vector state changed; an
instruction of the frame does the same, when it completes, when it is stopped at an element and when it raises an
exception. -/
def Obligations.VsMovesOnlyToDirty : Prop :=
  (∀ s t : State, step s = .next t → VsObeysDirtyRule s t) ∧
  (∀ (i : Instr) (s t : State), exec i s = .next t → VsObeysDirtyRule s t) ∧
  (∀ (I : VInstr) (stop : Option Stop) (s t : State), vectorInstruction I stop s = .next t →
    VsObeysDirtyRule s t)

/-- The movement of `VS` along a run, whatever the steps and the trap handling of `Base` between: it obeys the rule of one
step, and if `VS` is Initial or Clean at the end no vector state has changed (10_state.md section 4, "The only sound
inference from the field is one-way"). -/
def Obligations.NotDirtyMeansVectorStateUntouched : Prop :=
  ∀ (n : Nat) (s t : State), Sys2Proof.core.run n s = .next t →
    VsObeysDirtyRule s t ∧ (t.vs = .initial ∨ t.vs = .clean → SameVectorState s t)

/-- 20_memory.md R114: no run changes the program text, so at every time the fetch at `pc` returns the word that the
program has there. The parameters do not change either. -/
def Obligations.ProgramTextIsImmutable : Prop :=
  ∀ (n : Nat) (s t : State), Sys2Proof.core.run n s = .next t →
    t.text = s.text ∧ t.cfg = s.cfg ∧ (∀ a, readWord t.cfg t.text a = readWord s.cfg s.text a) ∧
    (∀ w, (readPc t).toNat % fetchAlignment s.cfg = 0 →
      (fetch t = .word w ↔ readWord s.cfg s.text (readPc t) = some w))

/-- 10_state.md R60: `vlenb` reads VLEN/8 at every moment, after reset and after any run. -/
def Obligations.VlenbIsConstant : Prop :=
  (∀ s : State, configValid s.cfg = true → (csrRead s .vlenb).toNat = s.cfg.vlen / 8) ∧
  (∀ (n : Nat) (s t : State), Sys2Proof.core.run n s = .next t → csrRead t .vlenb = csrRead s .vlenb) ∧
  (csrRead State.reset .vlenb).toNat = State.reset.cfg.vlen / 8

/-- Every step keeps the invariant: register widths, the agreement of `vtype` with `vl`, the parameters' constraints,
the canonical form of the text. -/
def Obligations.StepKeepsInvariant : Prop :=
  ∀ s t : State, Invariant s → step s = .next t → Invariant t

/-- The reset state meets the invariant. -/
def Obligations.ResetMeetsInvariant : Prop := Invariant State.reset

/-- The reset state is one the spec allows (70_reset_and_hazards.md section 1), the recommended one: `vill` is set,
the other bits of `vtype` and `vl` are 0, `vlenb` reads VLEN/8. That `VS` is Initial is the model's choice (log entry
4), and so are XLEN = 64 and VLEN = 128 (log entry 1). -/
def Obligations.ResetIsTheRecommendedState : Prop :=
  ResetAllowed State.reset ∧ csrRead State.reset .vtype = 0x8000000000000000#64 ∧
    csrRead State.reset .vl = 0#64 ∧ csrRead State.reset .vlenb = 16#64 ∧ State.reset.vs = .initial

/-! ### `mstatus`, `sstatus`, `misa`, and the handler -/

/-- One `VS` field, two views (10_state.md section 4): bits 10:9 of `mstatus` and of `sstatus` always read the code of
`VS`, a write of either sets it, and a write of `sstatus` leaves the bits of `mstatus` that it does not show. That a
write of either view writes the one field is the spec's inference ("derived: from the word 'shadowed'"); which other
bits `sstatus` shows is the model's parameter (log entry 19). The codes are Off = 0, Initial = 1, Clean = 2, Dirty = 3,
which the spec supplies from general knowledge. -/
def Obligations.SstatusShadowsVs : Prop :=
  vsCode .off = 0#2 ∧ vsCode .initial = 1#2 ∧ vsCode .clean = 2#2 ∧ vsCode .dirty = 3#2 ∧
  ∀ (s : State) (v : Word),
    (readMstatus s).extractLsb' 9 2 = vsCode s.vs ∧
    (readSstatus s).extractLsb' 9 2 = vsCode s.vs ∧
    vsCode (writeMstatus s v).vs = v.extractLsb' 9 2 ∧
    vsCode (writeSstatus s v).vs = v.extractLsb' 9 2 ∧
    SameVectorState s (writeMstatus s v) ∧ SameVectorState s (writeSstatus s v) ∧
    readMstatus (writeSstatus s v) &&& ~~~sstatusBits s = readMstatus s &&& ~~~sstatusBits s

/-- `misa.v` reads 1 in every state; a write that clears it is refused where the implementation makes it writable and
ignored in that bit where it does not (10_state.md section 4, log entry 18). That every other bit of `misa` reads as it
was last written is the model's choice, and no sentence of the spec (log entry 33). -/
def Obligations.MisaVStaysSet : Prop :=
  ∀ (s : State) (v : Word), (readMisa s).getLsbD 21 = true ∧
    (s.cfg.misaVWritable = true → v.getLsbD 21 = false → writeMisa s v = .refused .misaVCleared) ∧
    (s.cfg.misaVWritable = false ∨ v.getLsbD 21 = true →
      ∃ t, writeMisa s v = .next t ∧ readMisa t = zx s.cfg (v ||| misaVMask) ∧ SameVectorState s t ∧ t.vs = s.vs)

/-- An instruction that trapped because `VS` was Off completes when a handler makes `VS` Initial through `sstatus` and
resumes at the address the trap recorded (program P4 of 95_test_vectors.md; the handler's operations are the model's
names for what `Base` does, log entry 7). -/
def Obligations.HandlerTurnsUnitOnAndResumes : Prop :=
  ∀ (s t : State) (rd : RegNo), s.vs = .off → s.trap = none → exec (.csrrs rd .vlenb 0#5) s = .next t →
    ∃ tr u, t.trap = some tr ∧ tr.pc = readPc s ∧
      exec (.csrrs rd .vlenb 0#5) (resumeAt tr.pc (writeSstatus t 0x200#64)) = .next u ∧
      XWritten s u rd (xword s.cfg (s.cfg.vlen / 8)) ∧ u.vs = .initial ∧ u.trap = none ∧ PcAdvanced s u

/-! ### Sizes -/

/-- 10_state.md R40: VLMAX = LMUL*VLEN/SEW exactly; for a supported configuration it is an integer and at least 1; it
is at most VLEN, which it reaches at SEW = 8 and LMUL = 8; it is undefined when `vill` is set. -/
def Obligations.VlmaxIsLmulTimesVlenOverSew : Prop :=
  ∀ c : Config, configValid c = true → vlmaxOfType c .illegal = none ∧
    (∀ f : VFields, vlmaxOfType c (.legal f) = some (vlmaxOf c f.vsew f.vlmul)) ∧ vlmaxOf c .e8 .m8 = c.vlen ∧
    ∀ sew lmul, supports c sew lmul = true →
      vlmaxOf c sew lmul * (8 * sewBits sew) = lmulEighths lmul * c.vlen ∧
      1 ≤ vlmaxOf c sew lmul ∧ vlmaxOf c sew lmul ≤ c.vlen

/-- The derived sizes (00_scope.md section 4): every supported VLMAX fits VL_BITS, its largest element index fits
VSTART_BITS, neither is more than enough, and VSTART_BITS = log2(VLEN) when SEW = 8 with LMUL = 8 is supported. That
VL_BITS too is the least such number is the model's reading (log entry 13). -/
def Obligations.DerivedWidthsHoldEveryIndex : Prop :=
  ∀ c : Config, configValid c = true →
    (∀ sew lmul, supports c sew lmul = true →
      vlmaxOf c sew lmul < 2 ^ vlBits c ∧ vlmaxOf c sew lmul - 1 < 2 ^ vstartBits c) ∧
    (∀ k, (∀ sew lmul, supports c sew lmul = true → vlmaxOf c sew lmul - 1 < 2 ^ k) → vstartBits c ≤ k) ∧
    (∀ k, (∀ sew lmul, supports c sew lmul = true → vlmaxOf c sew lmul < 2 ^ k) → vlBits c ≤ k) ∧
    (supports c .e8 .m8 = true → c.vlen = 2 ^ vstartBits c)

/-! ### Fixed-point rounding -/

/-- What each mode computes, which the spec derives from its formulas (43_fixed_point_rounding.md section 1, "What
each mode computes, as arithmetic"): the four modes as arithmetic on the exact quotient, for unsigned and signed
values and `d` from 1 up. rnu: floor((n + 2^(d-1)) / 2^d). rne: within half of the quotient, and even on a tie. rdn:
the floor. rod: the quotient when exact, else the odd one of the floor and its successor. -/
def Obligations.RoundingModesAreTheirArithmetic : Prop :=
  ∀ (w : Nat) (v : BitVec w) (d : Nat), 1 ≤ d → d < w →
    (∀ (n r0 r1 r2 r3 : Int),
      ((n = (v.toNat : Int) ∧ r0 = (roundoffUnsigned v d 0#2 : Int) ∧ r1 = (roundoffUnsigned v d 1#2 : Int) ∧
          r2 = (roundoffUnsigned v d 2#2 : Int) ∧ r3 = (roundoffUnsigned v d 3#2 : Int)) ∨
        (n = v.toInt ∧ r0 = roundoffSigned v d 0#2 ∧ r1 = roundoffSigned v d 1#2 ∧ r2 = roundoffSigned v d 2#2 ∧
          r3 = roundoffSigned v d 3#2)) →
      r0 = (n + 2 ^ (d - 1)) / 2 ^ d ∧
      (2 * r1 * 2 ^ d ≤ 2 * n + 2 ^ d ∧ 2 * n - 2 ^ d ≤ 2 * r1 * 2 ^ d ∧
        (2 * (n % 2 ^ d) = 2 ^ d → r1 % 2 = 0)) ∧
      r2 = n / 2 ^ d ∧
      (n % 2 ^ d = 0 → r3 = n / 2 ^ d) ∧
      (n % 2 ^ d ≠ 0 → r3 % 2 = 1 ∧ (r3 = n / 2 ^ d ∨ r3 = n / 2 ^ d + 1)))

/-- The rounded results do not wrap (43_fixed_point_rounding.md section 1): for `d` from 1 up they lie in 0 to 2^(W-d)
and in -2^(W-1-d) to 2^(W-1-d); for `d` = 0 nothing is rounded. -/
def Obligations.RoundedResultsFit : Prop :=
  ∀ (w : Nat) (v : BitVec w) (d : Nat) (mode : BitVec 2), d < w →
    (1 ≤ d → roundoffUnsigned v d mode ≤ 2 ^ (w - d) ∧
      -(2 : Int) ^ (w - 1 - d) ≤ roundoffSigned v d mode ∧ roundoffSigned v d mode ≤ 2 ^ (w - 1 - d)) ∧
    (d = 0 → roundoffUnsigned v d mode = v.toNat ∧ roundoffSigned v d mode = v.toInt)

/-! ### The frame of every vector instruction -/

/-- The checks of 42_vector_instruction_frame.md section 1 in their order: each failing check decides the outcome, an
illegal-instruction exception (60_exceptions.md section 1) or a reserved use (30_encoding.md section 5; for the region of
small LMUL log entry 28); when none fails the instruction completes, or is stopped where a trap can be taken (log entry
23; that the sources of element `x` are element `x` of each source is the model's choice, log entry 35); one that does
not depend on `vtype` completes with `vill` set too. -/
def Obligations.FrameChecksDecideTheOutcome : Prop :=
  (∀ (I : VInstr) (stop : Option Stop) (s : State), s.vs ≠ .off →
    (dependsOnVtype I.cls = true → s.vtype = .illegal → TrapsIllegal s (vectorInstruction I stop s)) ∧
    (I.requiresVstartZero = true → s.vstart ≠ 0 → TrapsIllegal s (vectorInstruction I stop s)) ∧
    (legalVstart s.cfg I.word s.vtype s.vstart = false → TrapsIllegal s (vectorInstruction I stop s)) ∧
    (¬(dependsOnVtype I.cls = true ∧ s.vtype = .illegal) → ¬(I.requiresVstartZero = true ∧ s.vstart ≠ 0) →
      legalVstart s.cfg I.word s.vtype s.vstart = true →
      (∀ f, s.vtype = .legal f → dependsOnVtype I.cls = true → vlmaxOf s.cfg f.vsew f.vlmul ≤ s.vstart →
        (s.cfg.vstartOobTraps = true ∨ s.cfg.reservedTraps = true → TrapsIllegal s (vectorInstruction I stop s)) ∧
        (s.cfg.vstartOobTraps = false → s.cfg.reservedTraps = false →
          vectorInstruction I stop s = .refused .reservedVstart)) ∧
      ((∀ f, s.vtype = .legal f → dependsOnVtype I.cls = true → s.vstart < vlmaxOf s.cfg f.vsew f.vlmul) →
        (∀ f, s.vtype = .legal f → belowLmulBound s.cfg f.vlmul = true →
          (s.cfg.reservedTraps = true → TrapsIllegal s (vectorInstruction I stop s)) ∧
          (s.cfg.reservedTraps = false → vectorInstruction I stop s = .refused .reservedSmallLmul)) ∧
        ((∀ f, s.vtype = .legal f → belowLmulBound s.cfg f.vlmul = false) →
          (hasMisnumberedGroup I s = true →
            (s.cfg.reservedTraps = true → TrapsIllegal s (vectorInstruction I stop s)) ∧
            (s.cfg.reservedTraps = false → vectorInstruction I stop s = .refused .reservedGroupNumber)) ∧
          (hasMisnumberedGroup I s = false →
            vectorInstruction I none s = .next (completeVector I s) ∧
            ∀ p : Stop, vectorInstruction I (some p) s =
              .next (if s.vstart ≤ p.element ∧ p.element < s.vl ∧
                  (p.isInterrupt = false → maskAllows I s p.element = true) ∧
                  (I.requiresVstartZero = true → p.element = 0) ∧
                  legalVstart s.cfg I.word s.vtype p.element = true ∧
                  sourcesIntact I p.element s (trapAtElement I p s) = true
                then trapAtElement I p s else completeVector I s)))))) ∧
  (∀ (I : VInstr) (s : State) (n w : Nat), s.vs ≠ .off → s.vtype = .illegal → I.cls = .wholeRegister n w →
    (I.requiresVstartZero = true → s.vstart = 0) → legalVstart s.cfg I.word s.vtype s.vstart = true →
    hasMisnumberedGroup I s = false → vectorInstruction I none s = .next (completeVector I s)) ∧
  (∀ (c : Config) (w : BitVec 32) (ty : VType), legalVstart c w ty 0 = true)

/-- Which instructions have a misnumbered group (42_vector_instruction_frame.md section 5): exactly those with a group
operand, source or destination, whose number is not a multiple of the size of a group, which is LMUL, or 1 below LMUL
1; mask operands have no part in it. An instruction that does not depend on `vtype` has groups of its own size (log
entry 24). -/
def Obligations.GroupNumbersFollowLmul : Prop :=
  (∀ (I : VInstr) (s : State),
    (∀ f, dependsOnVtype I.cls = true → s.vtype = .legal f →
      (hasMisnumberedGroup I s = true ↔
        ∃ n : RegNo, (VSource.group n ∈ I.sources ∨ ∃ result, I.dest = .group n result) ∧
          n.toNat % groupRegisters f.vlmul ≠ 0)) ∧
    (∀ k w, I.cls = .wholeRegister k w →
      (hasMisnumberedGroup I s = true ↔ k ∈ [2, 4, 8] ∧
        ∃ n : RegNo, (VSource.group n ∈ I.sources ∨ ∃ result, I.dest = .group n result) ∧ n.toNat % k ≠ 0))) ∧
  (∀ lmul : Lmul, 8 * groupRegisters lmul = max 8 (lmulEighths lmul))

/-- `vstart` after a vector instruction, the configuration instructions among them: 0 when it completes, unchanged after
an illegal-instruction exception (42_vector_instruction_frame.md section 2), the element when a trap of `Base` stops it
there (60_exceptions.md section 3), which for a synchronous exception is an active one (42_vector_instruction_frame.md
section 3, from the spec's general knowledge). That the element of every trap lies in the body, `vstart` <= e < `vl`, is
the model's reading (log entry 23). -/
def Obligations.VstartAfterAVectorInstruction : Prop :=
  (∀ (I : VInstr) (stop : Option Stop) (s t : State), s.trap = none → vectorInstruction I stop s = .next t →
    (t.trap = none → t.vstart = 0) ∧
    (∀ pc, t.trap = some ⟨.illegalInstruction, pc⟩ → t.vstart = s.vstart ∧ t.vreg = s.vreg) ∧
    (∀ tr, t.trap = some tr → tr.cause ≠ .illegalInstruction →
      ∃ p, stop = some p ∧ tr = ⟨stopCause p, readPc s⟩ ∧ t.vstart = p.element ∧ t.pc = s.pc ∧
        s.vstart ≤ p.element ∧ p.element < s.vl ∧
        ((∃ n, tr.cause = .exception n) → maskAllows I s p.element = true))) ∧
  (∀ (i : Instr) (s t : State), isConfig i = true → s.trap = none → exec i s = .next t →
    (t.trap = none → t.vstart = 0) ∧ (t.trap ≠ none → t.vstart = s.vstart))

/-- The layout by which an instruction sees its operands: SEW, the registers of LMUL, VLMAX and the two policies of
`vtype` (10_state.md section 5), which fits the registers; for an instruction that does not depend on `vtype` its own,
with the policies undisturbed (log entry 24). -/
def Obligations.LayoutFollowsVtype : Prop :=
  (∀ (I : VInstr) (s : State) (f : VFields), dependsOnVtype I.cls = true → s.vtype = .legal f →
    ∃ L, layoutOf I s = some L ∧ L.width = sewBits f.vsew ∧ L.registers = groupRegisters f.vlmul ∧
      L.elements = vlmaxOf s.cfg f.vsew f.vlmul ∧ L.tailAgnostic = f.vta ∧ L.maskAgnostic = f.vma ∧
      (configValid s.cfg = true → supports s.cfg f.vsew f.vlmul = true → LayoutFits s.cfg L)) ∧
  (∀ (I : VInstr) (s : State) (n w : Nat), I.cls = .wholeRegister n w →
    ∃ L, layoutOf I s = some L ∧ L.width = w ∧ L.registers = n ∧ L.tailAgnostic = false ∧ L.maskAgnostic = false ∧
      (1 ≤ n → 0 < w → w ∣ s.cfg.vlen → LayoutFits s.cfg L))

/-- What each element of a register-group destination becomes (42_vector_instruction_frame.md sections 3 and 4), for a
group that lies inside the file, and that no other register changes. That an agnostic element is kept whole or is all
ones is the spec's own inference ("The granule of the choice is the destination element"); that the mask bits are
those from before the instruction where the destination includes `v0` is the model's choice (log entry 34). -/
def Obligations.GroupDestinationElements : Prop :=
  ∀ (I : VInstr) (s : State) (L : Layout) (vd : RegNo) (result : Nat → VResult),
    I.dest = .group vd result → layoutOf I s = some L → LayoutFits s.cfg L → s.vstart < s.vl →
    vd.toNat + L.registers ≤ 32 →
    (∀ x, x < groupTailEnd s.cfg L →
      (x < s.vstart → elem (completeVector I s) vd.toNat x L.width = elem s vd.toNat x L.width) ∧
      (s.vstart ≤ x → x < s.vl → maskAllows I s x = true →
        elem (completeVector I s) vd.toNat x L.width = BitVec.ofNat L.width (resultValue s.vxrm (result x))) ∧
      (s.vstart ≤ x → x < s.vl → maskAllows I s x = false →
        elem (completeVector I s) vd.toNat x L.width = elem s vd.toNat x L.width ∨
        (L.maskAgnostic = true ∧ elem (completeVector I s) vd.toNat x L.width = BitVec.allOnes L.width)) ∧
      (s.vl ≤ x →
        elem (completeVector I s) vd.toNat x L.width = elem s vd.toNat x L.width ∨
        (L.tailAgnostic = true ∧ elem (completeVector I s) vd.toNat x L.width = BitVec.allOnes L.width))) ∧
    (∀ r, r < vd.toNat ∨ vd.toNat + L.registers ≤ r → vregBits (completeVector I s) r = vregBits s r)

/-- What each bit of a mask destination becomes (42_vector_instruction_frame.md section 4): a tail bit is kept, set, or,
below VLMAX and but for a mask load, the bit of the full-length result, whatever `vta` is. That no tail bit at or past
VLMAX takes the full-length result, and that inactive bits follow the mask policy, are the spec's own inferences
("calculates nothing for x >= VLMAX", "the source's exception names tails only"). That the mask bits are those from
before the instruction where the destination is `v0` is the model's choice (log entry 34). -/
def Obligations.MaskDestinationBits : Prop :=
  ∀ (I : VInstr) (s : State) (L : Layout) (vd : RegNo) (result full : Nat → Bool),
    I.dest = .mask vd result full → layoutOf I s = some L → s.vstart < s.vl →
    (∀ x, x < s.cfg.vlen →
      (x < s.vstart → vregBit (completeVector I s) vd.toNat x = vregBit s vd.toNat x) ∧
      (s.vstart ≤ x → x < s.vl → maskAllows I s x = true → vregBit (completeVector I s) vd.toNat x = result x) ∧
      (s.vstart ≤ x → x < s.vl → maskAllows I s x = false →
        vregBit (completeVector I s) vd.toNat x = vregBit s vd.toNat x ∨
        (L.maskAgnostic = true ∧ vregBit (completeVector I s) vd.toNat x = true)) ∧
      (s.vl ≤ x →
        vregBit (completeVector I s) vd.toNat x = vregBit s vd.toNat x ∨
        vregBit (completeVector I s) vd.toNat x = true ∨
        (I.cls ≠ .maskLoad ∧ x < L.elements ∧ vregBit (completeVector I s) vd.toNat x = full x))) ∧
    (∀ r, r ≠ vd.toNat → vregBits (completeVector I s) r = vregBits s r)

/-- Fixed-point results (43_fixed_point_rounding.md section 1): an instruction that rounds reads `vxrm` when it executes,
so an active element whose result is rounded becomes what the instruction makes of `roundoff_unsigned` or
`roundoff_signed` under the mode then in `vxrm`, also when a trap stops the instruction past that element. What is
rounded, by how many bits, and how the rounded value becomes the element are the instruction's own facts (log entry 24).
The sum is the one of the increment formulas, mode by mode. -/
def Obligations.FixedPointResultsReadVxrm : Prop :=
  (∀ (I : VInstr) (s : State) (L : Layout) (vd : RegNo) (result : Nat → VResult) (x : Nat) (pre : PreRounding)
      (fit : Int → Nat) (saturates : Int → Bool),
    I.dest = .group vd result → layoutOf I s = some L → LayoutFits s.cfg L → vd.toNat + L.registers ≤ 32 →
    s.vstart ≤ x → x < s.vl → x < groupTailEnd s.cfg L → maskAllows I s x = true →
    result x = .rounded pre fit saturates →
    elem (completeVector I s) vd.toNat x L.width = BitVec.ofNat L.width (fit (roundoff pre s.vxrm)) ∧
    (∀ p : Stop, x < p.element →
      elem (trapAtElement I p s) vd.toNat x L.width = BitVec.ofNat L.width (fit (roundoff pre s.vxrm))) ∧
    (I.cls = .fixedPoint → saturates (roundoff pre s.vxrm) = true → (completeVector I s).vxsat = true)) ∧
  (∀ (pre : PreRounding) (vxrm : BitVec 2),
    roundoff pre vxrm = (if pre.isSigned then pre.value.toInt else (pre.value.toNat : Int)) / 2 ^ pre.shift.val +
      (if pre.shift.val = 0 then 0
       else
        let half := pre.value.getLsbD (pre.shift.val - 1)
        let odd := pre.value.getLsbD pre.shift.val
        if vxrm = 0#2 then half.toNat
        else if vxrm = 1#2 then (half && (decide (pre.value.toNat % 2 ^ (pre.shift.val - 1) ≠ 0) || odd)).toNat
        else if vxrm = 2#2 then 0
        else (!odd && decide (pre.value.toNat % 2 ^ pre.shift.val ≠ 0)).toNat : Nat))

/-- `vstart` at or beyond `vl` (42_vector_instruction_frame.md section 2): with `vstart` >= `vl` an instruction that
completes writes no element of any vector register, still clears `vstart`, and still writes an integer destination. -/
def Obligations.NothingIsWrittenAtOrPastVl : Prop :=
  ∀ (I : VInstr) (s : State), s.vl ≤ s.vstart →
    (completeVector I s).vreg = s.vreg ∧ (completeVector I s).vstart = 0 ∧
    (∀ rd v, I.dest = .xreg rd v → XWritten s (completeVector I s) rd (zx s.cfg v))

/-- What a completing vector instruction leaves besides its vector destination (42_vector_instruction_frame.md sections 2
and 5, 43_fixed_point_rounding.md section 2): `vstart` is 0, `pc` advances by 4, `VS` obeys the Dirty rule, an integer
destination receives its value, `vl` changes only for a fault-only-first load, which may lower it (10_state.md section 6;
log entry 24), `vtype`, `vxrm` and the rest stay. `vxsat` is set exactly when it was set or the instruction is a
fixed-point one and an active element saturated: that no instruction clears it is the spec's inference from "accrued",
and that an element which is not active never sets it, and that the mask bits are those from before the instruction, are
the model's choices (log entries 32 and 34). -/
def Obligations.CompletingVectorInstructionFrame : Prop :=
  ∀ (I : VInstr) (s : State),
    (completeVector I s).vstart = 0 ∧ PcAdvanced s (completeVector I s) ∧ VsObeysDirtyRule s (completeVector I s) ∧
    ((completeVector I s).vxsat = true ↔
      s.vxsat = true ∨ (I.cls = .fixedPoint ∧
        ∃ x, s.vstart ≤ x ∧ x < s.vl ∧ maskAllows I s x = true ∧ saturatesAt I s x = true)) ∧
    ((∀ n, I.cls ≠ .faultOnlyFirstLoad n) → (completeVector I s).vl = s.vl) ∧
    (∀ n, I.cls = .faultOnlyFirstLoad n → (completeVector I s).vl = min n s.vl) ∧
    (completeVector I s).vtype = s.vtype ∧ (completeVector I s).vxrm = s.vxrm ∧
    (completeVector I s).cfg = s.cfg ∧ (completeVector I s).trap = s.trap ∧
    (completeVector I s).mstatusOther = s.mstatusOther ∧ (completeVector I s).misaOther = s.misaOther ∧
    (∀ a, readByte (completeVector I s).text a = readByte s.text a) ∧
    (∀ rd v, I.dest = .xreg rd v → XWritten s (completeVector I s) rd (zx s.cfg v)) ∧
    ((∀ rd v, I.dest ≠ .xreg rd v) → ∀ r, readX (completeVector I s) r = readX s r) ∧
    ((∀ vd g, I.dest ≠ .group vd g) → (∀ vd g h, I.dest ≠ .mask vd g h) → (completeVector I s).vreg = s.vreg)

/-- What a vector instruction stopped at an element leaves besides its vector destination (60_exceptions.md section 3,
42_vector_instruction_frame.md section 5): `vstart` is the element, `pc` stays, the trap holds the cause and the address
of the instruction, `VS` obeys the Dirty rule, and `vtype`, `vl`, `vxrm`, the integer registers and the rest stay.
`vxsat` is set exactly when it was set or an active element below the trap of a fixed-point instruction saturated (log
entries 23, 32 and 34). -/
def Obligations.StoppedVectorInstructionFrame : Prop :=
  ∀ (I : VInstr) (p : Stop) (s : State),
    (trapAtElement I p s).vstart = p.element ∧ (trapAtElement I p s).pc = s.pc ∧
    (trapAtElement I p s).trap =
      some ⟨if p.isInterrupt then .interrupt p.number else .exception p.number, readPc s⟩ ∧
    VsObeysDirtyRule s (trapAtElement I p s) ∧
    ((trapAtElement I p s).vxsat = true ↔
      s.vxsat = true ∨ (I.cls = .fixedPoint ∧
        ∃ x, s.vstart ≤ x ∧ x < s.vl ∧ x < p.element ∧ maskAllows I s x = true ∧ saturatesAt I s x = true)) ∧
    (trapAtElement I p s).vl = s.vl ∧ (trapAtElement I p s).vtype = s.vtype ∧
    (trapAtElement I p s).vxrm = s.vxrm ∧ (trapAtElement I p s).cfg = s.cfg ∧
    (trapAtElement I p s).mstatusOther = s.mstatusOther ∧ (trapAtElement I p s).misaOther = s.misaOther ∧
    (∀ r, readX (trapAtElement I p s) r = readX s r) ∧
    (∀ a, readByte (trapAtElement I p s).text a = readByte s.text a) ∧
    ((∀ vd g, I.dest ≠ .group vd g) → (∀ vd g h, I.dest ≠ .mask vd g h) → (trapAtElement I p s).vreg = s.vreg)

/-- What the vector destination of an instruction stopped at element `e` holds (60_exceptions.md section 3, the spec's own
inference "every element below e that the instruction was to write must already hold its final value"): active elements
below `e` hold their results, for a group and for a mask; active and inactive ones from `e` on are as they were, inactive
ones below `e` and tail ones as after a completed instruction (log entry 23); no other register changes. The mask bits
are those from before the instruction (log entry 34). -/
def Obligations.StoppedDestinationElements : Prop :=
  ∀ (I : VInstr) (p : Stop) (s : State) (L : Layout) (vd : RegNo), layoutOf I s = some L → s.vstart < s.vl →
    (∀ result : Nat → VResult, I.dest = .group vd result → LayoutFits s.cfg L → vd.toNat + L.registers ≤ 32 →
      (∀ x, x < groupTailEnd s.cfg L →
        (x < s.vstart ∨ (p.element ≤ x ∧ x < s.vl) →
          elem (trapAtElement I p s) vd.toNat x L.width = elem s vd.toNat x L.width) ∧
        (s.vstart ≤ x → x < s.vl → x < p.element → maskAllows I s x = true →
          elem (trapAtElement I p s) vd.toNat x L.width = BitVec.ofNat L.width (resultValue s.vxrm (result x))) ∧
        (s.vstart ≤ x → x < s.vl → x < p.element → maskAllows I s x = false →
          elem (trapAtElement I p s) vd.toNat x L.width = elem s vd.toNat x L.width ∨
          (L.maskAgnostic = true ∧ elem (trapAtElement I p s) vd.toNat x L.width = BitVec.allOnes L.width)) ∧
        (s.vl ≤ x →
          elem (trapAtElement I p s) vd.toNat x L.width = elem s vd.toNat x L.width ∨
          (L.tailAgnostic = true ∧ elem (trapAtElement I p s) vd.toNat x L.width = BitVec.allOnes L.width))) ∧
      (∀ r, r < vd.toNat ∨ vd.toNat + L.registers ≤ r → vregBits (trapAtElement I p s) r = vregBits s r)) ∧
    (∀ result full : Nat → Bool, I.dest = .mask vd result full →
      (∀ x, x < s.cfg.vlen →
        (x < s.vstart ∨ (p.element ≤ x ∧ x < s.vl) →
          vregBit (trapAtElement I p s) vd.toNat x = vregBit s vd.toNat x) ∧
        (s.vstart ≤ x → x < s.vl → x < p.element → maskAllows I s x = true →
          vregBit (trapAtElement I p s) vd.toNat x = result x) ∧
        (s.vstart ≤ x → x < s.vl → x < p.element → maskAllows I s x = false →
          vregBit (trapAtElement I p s) vd.toNat x = vregBit s vd.toNat x ∨
          (L.maskAgnostic = true ∧ vregBit (trapAtElement I p s) vd.toNat x = true)) ∧
        (s.vl ≤ x →
          vregBit (trapAtElement I p s) vd.toNat x = vregBit s vd.toNat x ∨
          vregBit (trapAtElement I p s) vd.toNat x = true ∨
          (I.cls ≠ .maskLoad ∧ x < L.elements ∧ vregBit (trapAtElement I p s) vd.toNat x = full x))) ∧
      (∀ r, r ≠ vd.toNat → vregBits (trapAtElement I p s) r = vregBits s r))

/-- Resumption after a trap inside an instruction (60_exceptions.md section 3, the spec's own inference "For this to
give the same final result as an uninterrupted run", with log entry 23): an instruction that a trap of `Base` stopped at
an element, resumed at its `pc` in the state that the trap left, passes its checks, completes, and gives the vector
registers, the integer registers, `vl` and the flag of an uninterrupted run, when both policies are undisturbed and the
destination is no mask (with agnostic elements, and the tail of a mask always is, each run draws anew). The results are
the same argument in both runs, so the statement says nothing of a source that the stopped run overwrote at another index
(log entry 35). -/
def Obligations.ResumedRunEqualsUninterrupted : Prop :=
  ∀ (I : VInstr) (stop : Option Stop) (s t : State) (tr : Trap), s.trap = none →
    ConfigConsistent s.cfg s.vtype s.vl →
    (∀ L, layoutOf I s = some L → L.tailAgnostic = false ∧ L.maskAgnostic = false) →
    (∀ vd g h, I.dest ≠ .mask vd g h) →
    vectorInstruction I stop s = .next t → t.trap = some tr → tr.cause ≠ .illegalInstruction →
    ∃ u, vectorInstruction I none (resumeAt (readPc s) t) = .next u ∧ u.trap = none ∧ u.vstart = 0 ∧
      u.vreg = (completeVector I s).vreg ∧ u.vxsat = (completeVector I s).vxsat ∧ u.vl = (completeVector I s).vl ∧
      (∀ r, readX u r = readX (completeVector I s) r) ∧ readPc u = readPc (completeVector I s)
end

