-- ==== Sys2Proof/Laws/State.lean ====
section
/-! SUPPORT. One lemma per field per update of the state, each true by unfolding the record, so that no proof unfolds an
update again. -/

namespace Sys2Proof.Laws

open Sys2Proof.Machine

/-! ### setX -/

@[simp] theorem setX_cfg (s : State) (r : RegNo) (v : Word) : (setX s r v).cfg = s.cfg := rfl
@[simp] theorem setX_x (s : State) (r : RegNo) (v : Word) : (setX s r v).x = if r = 0#5 then s.x else s.x.set r.toNat (zx s.cfg v) r.isLt := rfl
@[simp] theorem setX_pc (s : State) (r : RegNo) (v : Word) : (setX s r v).pc = s.pc := rfl
@[simp] theorem setX_vreg (s : State) (r : RegNo) (v : Word) : (setX s r v).vreg = s.vreg := rfl
@[simp] theorem setX_vs (s : State) (r : RegNo) (v : Word) : (setX s r v).vs = s.vs := rfl
@[simp] theorem setX_mstatusOther (s : State) (r : RegNo) (v : Word) : (setX s r v).mstatusOther = s.mstatusOther := rfl
@[simp] theorem setX_misaOther (s : State) (r : RegNo) (v : Word) : (setX s r v).misaOther = s.misaOther := rfl
@[simp] theorem setX_vtype (s : State) (r : RegNo) (v : Word) : (setX s r v).vtype = s.vtype := rfl
@[simp] theorem setX_vl (s : State) (r : RegNo) (v : Word) : (setX s r v).vl = s.vl := rfl
@[simp] theorem setX_vstart (s : State) (r : RegNo) (v : Word) : (setX s r v).vstart = s.vstart := rfl
@[simp] theorem setX_vxrm (s : State) (r : RegNo) (v : Word) : (setX s r v).vxrm = s.vxrm := rfl
@[simp] theorem setX_vxsat (s : State) (r : RegNo) (v : Word) : (setX s r v).vxsat = s.vxsat := rfl
@[simp] theorem setX_text (s : State) (r : RegNo) (v : Word) : (setX s r v).text = s.text := rfl
@[simp] theorem setX_trap (s : State) (r : RegNo) (v : Word) : (setX s r v).trap = s.trap := rfl
@[simp] theorem setX_draws (s : State) (r : RegNo) (v : Word) : (setX s r v).draws = s.draws := rfl

/-! ### advancePc -/

@[simp] theorem advancePc_cfg (s : State) : (advancePc s).cfg = s.cfg := rfl
@[simp] theorem advancePc_x (s : State) : (advancePc s).x = s.x := rfl
@[simp] theorem advancePc_pc (s : State) : (advancePc s).pc = zx s.cfg (s.pc + 4#64) := rfl
@[simp] theorem advancePc_vreg (s : State) : (advancePc s).vreg = s.vreg := rfl
@[simp] theorem advancePc_vs (s : State) : (advancePc s).vs = s.vs := rfl
@[simp] theorem advancePc_mstatusOther (s : State) : (advancePc s).mstatusOther = s.mstatusOther := rfl
@[simp] theorem advancePc_misaOther (s : State) : (advancePc s).misaOther = s.misaOther := rfl
@[simp] theorem advancePc_vtype (s : State) : (advancePc s).vtype = s.vtype := rfl
@[simp] theorem advancePc_vl (s : State) : (advancePc s).vl = s.vl := rfl
@[simp] theorem advancePc_vstart (s : State) : (advancePc s).vstart = s.vstart := rfl
@[simp] theorem advancePc_vxrm (s : State) : (advancePc s).vxrm = s.vxrm := rfl
@[simp] theorem advancePc_vxsat (s : State) : (advancePc s).vxsat = s.vxsat := rfl
@[simp] theorem advancePc_text (s : State) : (advancePc s).text = s.text := rfl
@[simp] theorem advancePc_trap (s : State) : (advancePc s).trap = s.trap := rfl
@[simp] theorem advancePc_draws (s : State) : (advancePc s).draws = s.draws := rfl

/-! ### csrWrite -/

@[simp] theorem csrWrite_cfg (s : State) (csr : Csr) (w : Word) : (csrWrite s csr w).cfg = s.cfg := rfl
@[simp] theorem csrWrite_x (s : State) (csr : Csr) (w : Word) : (csrWrite s csr w).x = s.x := rfl
@[simp] theorem csrWrite_pc (s : State) (csr : Csr) (w : Word) : (csrWrite s csr w).pc = s.pc := rfl
@[simp] theorem csrWrite_vreg (s : State) (csr : Csr) (w : Word) : (csrWrite s csr w).vreg = s.vreg := rfl
@[simp] theorem csrWrite_vs (s : State) (csr : Csr) (w : Word) : (csrWrite s csr w).vs = s.vs := rfl
@[simp] theorem csrWrite_mstatusOther (s : State) (csr : Csr) (w : Word) : (csrWrite s csr w).mstatusOther = s.mstatusOther := rfl
@[simp] theorem csrWrite_misaOther (s : State) (csr : Csr) (w : Word) : (csrWrite s csr w).misaOther = s.misaOther := rfl
@[simp] theorem csrWrite_vtype (s : State) (csr : Csr) (w : Word) : (csrWrite s csr w).vtype = s.vtype := rfl
@[simp] theorem csrWrite_vl (s : State) (csr : Csr) (w : Word) : (csrWrite s csr w).vl = s.vl := rfl
@[simp] theorem csrWrite_vstart (s : State) (csr : Csr) (w : Word) : (csrWrite s csr w).vstart = if csr = .vstart then w.toNat % 2 ^ vstartBits s.cfg else s.vstart := rfl
@[simp] theorem csrWrite_vxrm (s : State) (csr : Csr) (w : Word) : (csrWrite s csr w).vxrm = if csr = .vxrm then w.extractLsb' 0 2 else if csr = .vcsr then w.extractLsb' 1 2 else s.vxrm := rfl
@[simp] theorem csrWrite_vxsat (s : State) (csr : Csr) (w : Word) : (csrWrite s csr w).vxsat = if csr = .vxsat ∨ csr = .vcsr then w.getLsbD 0 else s.vxsat := rfl
@[simp] theorem csrWrite_text (s : State) (csr : Csr) (w : Word) : (csrWrite s csr w).text = s.text := rfl
@[simp] theorem csrWrite_trap (s : State) (csr : Csr) (w : Word) : (csrWrite s csr w).trap = s.trap := rfl
@[simp] theorem csrWrite_draws (s : State) (csr : Csr) (w : Word) : (csrWrite s csr w).draws = s.draws := rfl

/-! ### applyDirty -/

@[simp] theorem applyDirty_cfg (old s : State) : (applyDirty old s).cfg = s.cfg := rfl
@[simp] theorem applyDirty_x (old s : State) : (applyDirty old s).x = s.x := rfl
@[simp] theorem applyDirty_pc (old s : State) : (applyDirty old s).pc = s.pc := rfl
@[simp] theorem applyDirty_vreg (old s : State) : (applyDirty old s).vreg = s.vreg := rfl
@[simp] theorem applyDirty_vs (old s : State) : (applyDirty old s).vs = vsAfter s.vs (vectorStateChanged old s) (Config.drawDirty s.draws) := rfl
@[simp] theorem applyDirty_mstatusOther (old s : State) : (applyDirty old s).mstatusOther = s.mstatusOther := rfl
@[simp] theorem applyDirty_misaOther (old s : State) : (applyDirty old s).misaOther = s.misaOther := rfl
@[simp] theorem applyDirty_vtype (old s : State) : (applyDirty old s).vtype = s.vtype := rfl
@[simp] theorem applyDirty_vl (old s : State) : (applyDirty old s).vl = s.vl := rfl
@[simp] theorem applyDirty_vstart (old s : State) : (applyDirty old s).vstart = s.vstart := rfl
@[simp] theorem applyDirty_vxrm (old s : State) : (applyDirty old s).vxrm = s.vxrm := rfl
@[simp] theorem applyDirty_vxsat (old s : State) : (applyDirty old s).vxsat = s.vxsat := rfl
@[simp] theorem applyDirty_text (old s : State) : (applyDirty old s).text = s.text := rfl
@[simp] theorem applyDirty_trap (old s : State) : (applyDirty old s).trap = s.trap := rfl
@[simp] theorem applyDirty_draws (old s : State) : (applyDirty old s).draws = s.draws + 1 := rfl

/-! ### spontaneousDirty -/

@[simp] theorem spontaneousDirty_cfg (s : State) : (spontaneousDirty s).cfg = s.cfg := rfl
@[simp] theorem spontaneousDirty_x (s : State) : (spontaneousDirty s).x = s.x := rfl
@[simp] theorem spontaneousDirty_pc (s : State) : (spontaneousDirty s).pc = s.pc := rfl
@[simp] theorem spontaneousDirty_vreg (s : State) : (spontaneousDirty s).vreg = s.vreg := rfl
@[simp] theorem spontaneousDirty_vs (s : State) : (spontaneousDirty s).vs = vsAfter s.vs false (Config.drawSpontaneous s.draws) := rfl
@[simp] theorem spontaneousDirty_mstatusOther (s : State) : (spontaneousDirty s).mstatusOther = s.mstatusOther := rfl
@[simp] theorem spontaneousDirty_misaOther (s : State) : (spontaneousDirty s).misaOther = s.misaOther := rfl
@[simp] theorem spontaneousDirty_vtype (s : State) : (spontaneousDirty s).vtype = s.vtype := rfl
@[simp] theorem spontaneousDirty_vl (s : State) : (spontaneousDirty s).vl = s.vl := rfl
@[simp] theorem spontaneousDirty_vstart (s : State) : (spontaneousDirty s).vstart = s.vstart := rfl
@[simp] theorem spontaneousDirty_vxrm (s : State) : (spontaneousDirty s).vxrm = s.vxrm := rfl
@[simp] theorem spontaneousDirty_vxsat (s : State) : (spontaneousDirty s).vxsat = s.vxsat := rfl
@[simp] theorem spontaneousDirty_text (s : State) : (spontaneousDirty s).text = s.text := rfl
@[simp] theorem spontaneousDirty_trap (s : State) : (spontaneousDirty s).trap = s.trap := rfl
@[simp] theorem spontaneousDirty_draws (s : State) : (spontaneousDirty s).draws = s.draws + 1 := rfl

/-! ### takeTrap -/

@[simp] theorem takeTrap_cfg (t : Trap) (s : State) : (takeTrap t s).cfg = s.cfg := rfl
@[simp] theorem takeTrap_x (t : Trap) (s : State) : (takeTrap t s).x = (Config.takeTrap s.cfg s.draws t (baseState s)).x.map (zx s.cfg) := rfl
@[simp] theorem takeTrap_pc (t : Trap) (s : State) : (takeTrap t s).pc = zx s.cfg (Config.takeTrap s.cfg s.draws t (baseState s)).pc := rfl
@[simp] theorem takeTrap_vreg (t : Trap) (s : State) : (takeTrap t s).vreg = s.vreg := rfl
@[simp] theorem takeTrap_vs (t : Trap) (s : State) : (takeTrap t s).vs = s.vs := rfl
@[simp] theorem takeTrap_mstatusOther (t : Trap) (s : State) : (takeTrap t s).mstatusOther = zx s.cfg (Config.takeTrap s.cfg s.draws t (baseState s)).mstatusOther &&& ~~~vsMask := rfl
@[simp] theorem takeTrap_misaOther (t : Trap) (s : State) : (takeTrap t s).misaOther = zx s.cfg (Config.takeTrap s.cfg s.draws t (baseState s)).misaOther &&& ~~~misaVMask := rfl
@[simp] theorem takeTrap_vtype (t : Trap) (s : State) : (takeTrap t s).vtype = s.vtype := rfl
@[simp] theorem takeTrap_vl (t : Trap) (s : State) : (takeTrap t s).vl = s.vl := rfl
@[simp] theorem takeTrap_vstart (t : Trap) (s : State) : (takeTrap t s).vstart = s.vstart := rfl
@[simp] theorem takeTrap_vxrm (t : Trap) (s : State) : (takeTrap t s).vxrm = s.vxrm := rfl
@[simp] theorem takeTrap_vxsat (t : Trap) (s : State) : (takeTrap t s).vxsat = s.vxsat := rfl
@[simp] theorem takeTrap_text (t : Trap) (s : State) : (takeTrap t s).text = s.text := rfl
@[simp] theorem takeTrap_trap (t : Trap) (s : State) : (takeTrap t s).trap = none := rfl
@[simp] theorem takeTrap_draws (t : Trap) (s : State) : (takeTrap t s).draws = s.draws + 1 := rfl

/-! ### resumeAt -/

@[simp] theorem resumeAt_cfg (pc : Word) (s : State) : (resumeAt pc s).cfg = s.cfg := rfl
@[simp] theorem resumeAt_x (pc : Word) (s : State) : (resumeAt pc s).x = s.x := rfl
@[simp] theorem resumeAt_pc (pc : Word) (s : State) : (resumeAt pc s).pc = zx s.cfg pc := rfl
@[simp] theorem resumeAt_vreg (pc : Word) (s : State) : (resumeAt pc s).vreg = s.vreg := rfl
@[simp] theorem resumeAt_vs (pc : Word) (s : State) : (resumeAt pc s).vs = s.vs := rfl
@[simp] theorem resumeAt_mstatusOther (pc : Word) (s : State) : (resumeAt pc s).mstatusOther = s.mstatusOther := rfl
@[simp] theorem resumeAt_misaOther (pc : Word) (s : State) : (resumeAt pc s).misaOther = s.misaOther := rfl
@[simp] theorem resumeAt_vtype (pc : Word) (s : State) : (resumeAt pc s).vtype = s.vtype := rfl
@[simp] theorem resumeAt_vl (pc : Word) (s : State) : (resumeAt pc s).vl = s.vl := rfl
@[simp] theorem resumeAt_vstart (pc : Word) (s : State) : (resumeAt pc s).vstart = s.vstart := rfl
@[simp] theorem resumeAt_vxrm (pc : Word) (s : State) : (resumeAt pc s).vxrm = s.vxrm := rfl
@[simp] theorem resumeAt_vxsat (pc : Word) (s : State) : (resumeAt pc s).vxsat = s.vxsat := rfl
@[simp] theorem resumeAt_text (pc : Word) (s : State) : (resumeAt pc s).text = s.text := rfl
@[simp] theorem resumeAt_trap (pc : Word) (s : State) : (resumeAt pc s).trap = none := rfl
@[simp] theorem resumeAt_draws (pc : Word) (s : State) : (resumeAt pc s).draws = s.draws := rfl

/-! ### writeMstatus -/

@[simp] theorem writeMstatus_cfg (s : State) (v : Word) : (writeMstatus s v).cfg = s.cfg := rfl
@[simp] theorem writeMstatus_x (s : State) (v : Word) : (writeMstatus s v).x = s.x := rfl
@[simp] theorem writeMstatus_pc (s : State) (v : Word) : (writeMstatus s v).pc = s.pc := rfl
@[simp] theorem writeMstatus_vreg (s : State) (v : Word) : (writeMstatus s v).vreg = s.vreg := rfl
@[simp] theorem writeMstatus_vs (s : State) (v : Word) : (writeMstatus s v).vs = vsOfCode (v.extractLsb' 9 2) := rfl
@[simp] theorem writeMstatus_mstatusOther (s : State) (v : Word) : (writeMstatus s v).mstatusOther = zx s.cfg v &&& ~~~vsMask := rfl
@[simp] theorem writeMstatus_misaOther (s : State) (v : Word) : (writeMstatus s v).misaOther = s.misaOther := rfl
@[simp] theorem writeMstatus_vtype (s : State) (v : Word) : (writeMstatus s v).vtype = s.vtype := rfl
@[simp] theorem writeMstatus_vl (s : State) (v : Word) : (writeMstatus s v).vl = s.vl := rfl
@[simp] theorem writeMstatus_vstart (s : State) (v : Word) : (writeMstatus s v).vstart = s.vstart := rfl
@[simp] theorem writeMstatus_vxrm (s : State) (v : Word) : (writeMstatus s v).vxrm = s.vxrm := rfl
@[simp] theorem writeMstatus_vxsat (s : State) (v : Word) : (writeMstatus s v).vxsat = s.vxsat := rfl
@[simp] theorem writeMstatus_text (s : State) (v : Word) : (writeMstatus s v).text = s.text := rfl
@[simp] theorem writeMstatus_trap (s : State) (v : Word) : (writeMstatus s v).trap = s.trap := rfl
@[simp] theorem writeMstatus_draws (s : State) (v : Word) : (writeMstatus s v).draws = s.draws := rfl

/-! ### accrueVxsat -/

@[simp] theorem accrueVxsat_cfg (b : Bool) (s : State) : (accrueVxsat b s).cfg = s.cfg := rfl
@[simp] theorem accrueVxsat_x (b : Bool) (s : State) : (accrueVxsat b s).x = s.x := rfl
@[simp] theorem accrueVxsat_pc (b : Bool) (s : State) : (accrueVxsat b s).pc = s.pc := rfl
@[simp] theorem accrueVxsat_vreg (b : Bool) (s : State) : (accrueVxsat b s).vreg = s.vreg := rfl
@[simp] theorem accrueVxsat_vs (b : Bool) (s : State) : (accrueVxsat b s).vs = s.vs := rfl
@[simp] theorem accrueVxsat_mstatusOther (b : Bool) (s : State) : (accrueVxsat b s).mstatusOther = s.mstatusOther := rfl
@[simp] theorem accrueVxsat_misaOther (b : Bool) (s : State) : (accrueVxsat b s).misaOther = s.misaOther := rfl
@[simp] theorem accrueVxsat_vtype (b : Bool) (s : State) : (accrueVxsat b s).vtype = s.vtype := rfl
@[simp] theorem accrueVxsat_vl (b : Bool) (s : State) : (accrueVxsat b s).vl = s.vl := rfl
@[simp] theorem accrueVxsat_vstart (b : Bool) (s : State) : (accrueVxsat b s).vstart = s.vstart := rfl
@[simp] theorem accrueVxsat_vxrm (b : Bool) (s : State) : (accrueVxsat b s).vxrm = s.vxrm := rfl
@[simp] theorem accrueVxsat_vxsat (b : Bool) (s : State) : (accrueVxsat b s).vxsat = (s.vxsat || b) := rfl
@[simp] theorem accrueVxsat_text (b : Bool) (s : State) : (accrueVxsat b s).text = s.text := rfl
@[simp] theorem accrueVxsat_trap (b : Bool) (s : State) : (accrueVxsat b s).trap = s.trap := rfl
@[simp] theorem accrueVxsat_draws (b : Bool) (s : State) : (accrueVxsat b s).draws = s.draws := rfl

/-! ### withFetchWord -/

@[simp] theorem withFetchWord_cfg (s : State) (n w : Nat) : (s.withFetchWord n w).cfg = s.cfg := rfl
@[simp] theorem withFetchWord_x (s : State) (n w : Nat) : (s.withFetchWord n w).x = s.x := rfl
@[simp] theorem withFetchWord_pc (s : State) (n w : Nat) : (s.withFetchWord n w).pc = s.pc := rfl
@[simp] theorem withFetchWord_vreg (s : State) (n w : Nat) : (s.withFetchWord n w).vreg = s.vreg := rfl
@[simp] theorem withFetchWord_vs (s : State) (n w : Nat) : (s.withFetchWord n w).vs = s.vs := rfl
@[simp] theorem withFetchWord_mstatusOther (s : State) (n w : Nat) : (s.withFetchWord n w).mstatusOther = s.mstatusOther := rfl
@[simp] theorem withFetchWord_misaOther (s : State) (n w : Nat) : (s.withFetchWord n w).misaOther = s.misaOther := rfl
@[simp] theorem withFetchWord_vtype (s : State) (n w : Nat) : (s.withFetchWord n w).vtype = s.vtype := rfl
@[simp] theorem withFetchWord_vl (s : State) (n w : Nat) : (s.withFetchWord n w).vl = s.vl := rfl
@[simp] theorem withFetchWord_vstart (s : State) (n w : Nat) : (s.withFetchWord n w).vstart = s.vstart := rfl
@[simp] theorem withFetchWord_vxrm (s : State) (n w : Nat) : (s.withFetchWord n w).vxrm = s.vxrm := rfl
@[simp] theorem withFetchWord_vxsat (s : State) (n w : Nat) : (s.withFetchWord n w).vxsat = s.vxsat := rfl
@[simp] theorem withFetchWord_text (s : State) (n w : Nat) : (s.withFetchWord n w).text = placeWord s.cfg s.text (readPc s) (BitVec.ofNat 32 (w % 2 ^ n)) := rfl
@[simp] theorem withFetchWord_trap (s : State) (n w : Nat) : (s.withFetchWord n w).trap = none := rfl
@[simp] theorem withFetchWord_draws (s : State) (n w : Nat) : (s.withFetchWord n w).draws = s.draws := rfl

end Sys2Proof.Laws
end

