-- ==== Sys2Proof/Laws/Registers.lean ====
section
/-! SUPPORT. XLEN-bit values, integer registers, `pc`, and what the `VS` rule can do. -/

namespace Sys2Proof.Laws

open Sys2Proof.Machine

/-! ### XLEN-bit values -/

theorem xlenBits_cases (c : Config) : xlenBits c = 32 ∨ xlenBits c = 64 := by
  unfold xlenBits; cases c.xlen <;> simp

/-- trunc_XLEN, as a number. -/
theorem zx_toNat (c : Config) (v : Word) : (zx c v).toNat = v.toNat % 2 ^ xlenBits c := by
  unfold zx xlenBits
  cases c.xlen
  · simp only [BitVec.toNat_setWidth]; omega
  · have := v.isLt; simp only; omega

@[simp] theorem zx_zx (c : Config) (v : Word) : zx c (zx c v) = zx c v := by
  apply BitVec.eq_of_toNat_eq
  simp [zx_toNat]

@[simp] theorem zx_zero (c : Config) : zx c 0#64 = 0#64 := by
  apply BitVec.eq_of_toNat_eq
  simp [zx_toNat]

theorem zx_toNat_lt (c : Config) (v : Word) : (zx c v).toNat < 2 ^ xlenBits c := by
  rw [zx_toNat]; exact Nat.mod_lt _ (Nat.two_pow_pos _)

/-- Adding to a value and cutting is adding to the cut value and cutting. -/
theorem zx_add (c : Config) (a b : Word) : zx c (zx c a + b) = zx c (a + b) := by
  apply BitVec.eq_of_toNat_eq
  rcases xlenBits_cases c with h | h <;> simp only [zx_toNat, BitVec.toNat_add, h] <;> omega

theorem xword_toNat (c : Config) (n : Nat) : (xword c n).toNat = n % 2 ^ xlenBits c := by
  unfold xword
  rcases xlenBits_cases c with h | h <;> simp only [zx_toNat, BitVec.toNat_ofNat, h] <;> omega

@[simp] theorem zx_xword (c : Config) (n : Nat) : zx c (xword c n) = xword c n := zx_zx c _

/-! ### Integer registers -/

@[simp] theorem readX_zero (s : State) : readX s 0#5 = 0#64 := by simp [readX]

@[simp] theorem zx_readX (s : State) (r : RegNo) : zx s.cfg (readX s r) = readX s r := by
  unfold readX; split <;> simp

/-- Two states with the same parameters and the same register cells read the same. -/
theorem readX_congr {s t : State} (hc : t.cfg = s.cfg) (hx : t.x = s.x) (r : RegNo) : readX t r = readX s r := by
  unfold readX; simp [hc, hx]

/-- Reading any register after a write. -/
theorem readX_setX (s : State) (rd r : RegNo) (v : Word) :
    readX (setX s rd v) r = if r = rd ∧ rd ≠ 0#5 then zx s.cfg v else readX s r := by
  by_cases hd : rd = 0#5
  · subst hd; simp [readX]
  · by_cases hr : r = rd
    · subst hr; simp [readX, hd]
    · have hne : rd.toNat ≠ r.toNat := fun h => hr (BitVec.eq_of_toNat_eq h.symm)
      simp [readX, hd, hr, hne]

/-- A register file whose every cell is an XLEN-bit value stays one when an XLEN-bit value is put in. -/
theorem fits_set {c : Config} {x : Vector Word 32} (h : ∀ r : Fin 32, zx c x[r] = x[r]) (n : Nat) (hn : n < 32)
    (v : Word) (r : Fin 32) : zx c (x.set n (zx c v) hn)[r] = (x.set n (zx c v) hn)[r] := by
  simp only [Fin.getElem_fin, Vector.getElem_set]
  split
  · simp
  · exact h r

/-- The same for a write through `setX`. -/
theorem fits_setX {c : Config} {x : Vector Word 32} (h : ∀ r : Fin 32, zx c x[r] = x[r]) (rd : RegNo) (v : Word)
    (r : Fin 32) :
    zx c (if rd = 0#5 then x else x.set rd.toNat (zx c v) rd.isLt)[r] =
      (if rd = 0#5 then x else x.set rd.toNat (zx c v) rd.isLt)[r] := by
  split
  · exact h r
  · exact fits_set h _ _ _ _

/-! ### `pc` -/

/-- Advancing `pc` adds 4 modulo 2^XLEN. -/
theorem readPc_advancePc (s : State) :
    (readPc (advancePc s)).toNat = ((readPc s).toNat + 4) % 2 ^ xlenBits s.cfg := by
  unfold readPc
  rcases xlenBits_cases s.cfg with h | h <;>
    simp only [advancePc_pc, advancePc_cfg, zx_zx, zx_toNat, BitVec.toNat_add, BitVec.toNat_ofNat, h] <;> omega

/-! ### The `VS` rule (10_state.md R27) -/

@[simp] theorem vsAfter_off (a b : Bool) : vsAfter .off a b = .off := rfl
@[simp] theorem vsAfter_dirty (a b : Bool) : vsAfter .dirty a b = .dirty := rfl

/-- The rule leaves `VS` as it is or makes it Dirty. -/
theorem vsAfter_cases (v : VsState) (a b : Bool) : vsAfter v a b = v ∨ vsAfter v a b = .dirty := by
  cases v <;> cases a <;> cases b <;> simp [vsAfter]

/-- A change of vector state makes Initial and Clean Dirty. -/
theorem vsAfter_changed {v : VsState} (h : v = .initial ∨ v = .clean) (b : Bool) : vsAfter v true b = .dirty := by
  rcases h with rfl | rfl <;> simp [vsAfter]

/-- Off comes only from Off. -/
theorem vsAfter_eq_off {v : VsState} {a b : Bool} : vsAfter v a b = .off ↔ v = .off := by
  cases v <;> cases a <;> cases b <;> simp [vsAfter]

/-- The comparison says what it is for. -/
theorem vectorStateChanged_eq_false {old new : State} :
    vectorStateChanged old new = false ↔
      new.vtype = old.vtype ∧ new.vl = old.vl ∧ new.vstart = old.vstart ∧ new.vxrm = old.vxrm ∧
        new.vxsat = old.vxsat ∧ new.vreg = old.vreg := by
  simp [vectorStateChanged, and_assoc]

end Sys2Proof.Laws
end

