-- ==== Sys2Proof/Laws/Access.lean ====
section
/-! SUPPORT. What the two shared courses of the table's instructions can do: `accessCsr`, `setConfig`; and with them
what `exec` can do. Every later proof about an instruction cites these. -/

namespace Sys2Proof.Laws

open Sys2Proof.Machine

/-! ### The three ways an instruction ends in a next state -/

/-- The exception is pending, nothing else differs. -/
def trapped (s : State) : State := { s with trap := some ⟨.illegalInstruction, readPc s⟩ }

/-- A CSR was read. -/
def afterRead (s : State) (csr : Csr) (rd : RegNo) : State := advancePc (setX s rd (csrRead s csr))

/-- A CSR was read and `w` written to it. -/
def afterWrite (s : State) (csr : Csr) (rd : RegNo) (w : Word) : State :=
  advancePc (applyDirty s (setX (csrWrite s csr w) rd (csrRead s csr)))

/-! ### Fields: trapped -/

@[simp] theorem trapped_cfg (s : State) : (trapped s).cfg = s.cfg := rfl
@[simp] theorem trapped_x (s : State) : (trapped s).x = s.x := rfl
@[simp] theorem trapped_pc (s : State) : (trapped s).pc = s.pc := rfl
@[simp] theorem trapped_vreg (s : State) : (trapped s).vreg = s.vreg := rfl
@[simp] theorem trapped_vs (s : State) : (trapped s).vs = s.vs := rfl
@[simp] theorem trapped_mstatusOther (s : State) : (trapped s).mstatusOther = s.mstatusOther := rfl
@[simp] theorem trapped_misaOther (s : State) : (trapped s).misaOther = s.misaOther := rfl
@[simp] theorem trapped_vtype (s : State) : (trapped s).vtype = s.vtype := rfl
@[simp] theorem trapped_vl (s : State) : (trapped s).vl = s.vl := rfl
@[simp] theorem trapped_vstart (s : State) : (trapped s).vstart = s.vstart := rfl
@[simp] theorem trapped_vxrm (s : State) : (trapped s).vxrm = s.vxrm := rfl
@[simp] theorem trapped_vxsat (s : State) : (trapped s).vxsat = s.vxsat := rfl
@[simp] theorem trapped_text (s : State) : (trapped s).text = s.text := rfl
@[simp] theorem trapped_trap (s : State) : (trapped s).trap = some ⟨.illegalInstruction, readPc s⟩ := rfl
@[simp] theorem trapped_draws (s : State) : (trapped s).draws = s.draws := rfl

/-! ### Fields: afterRead -/

@[simp] theorem afterRead_cfg (s : State) (csr : Csr) (rd : RegNo) : (afterRead s csr rd).cfg = s.cfg := rfl
@[simp] theorem afterRead_x (s : State) (csr : Csr) (rd : RegNo) : (afterRead s csr rd).x = if rd = 0#5 then s.x else s.x.set rd.toNat (zx s.cfg (csrRead s csr)) rd.isLt := rfl
@[simp] theorem afterRead_pc (s : State) (csr : Csr) (rd : RegNo) : (afterRead s csr rd).pc = zx s.cfg (s.pc + 4#64) := rfl
@[simp] theorem afterRead_vreg (s : State) (csr : Csr) (rd : RegNo) : (afterRead s csr rd).vreg = s.vreg := rfl
@[simp] theorem afterRead_vs (s : State) (csr : Csr) (rd : RegNo) : (afterRead s csr rd).vs = s.vs := rfl
@[simp] theorem afterRead_mstatusOther (s : State) (csr : Csr) (rd : RegNo) : (afterRead s csr rd).mstatusOther = s.mstatusOther := rfl
@[simp] theorem afterRead_misaOther (s : State) (csr : Csr) (rd : RegNo) : (afterRead s csr rd).misaOther = s.misaOther := rfl
@[simp] theorem afterRead_vtype (s : State) (csr : Csr) (rd : RegNo) : (afterRead s csr rd).vtype = s.vtype := rfl
@[simp] theorem afterRead_vl (s : State) (csr : Csr) (rd : RegNo) : (afterRead s csr rd).vl = s.vl := rfl
@[simp] theorem afterRead_vstart (s : State) (csr : Csr) (rd : RegNo) : (afterRead s csr rd).vstart = s.vstart := rfl
@[simp] theorem afterRead_vxrm (s : State) (csr : Csr) (rd : RegNo) : (afterRead s csr rd).vxrm = s.vxrm := rfl
@[simp] theorem afterRead_vxsat (s : State) (csr : Csr) (rd : RegNo) : (afterRead s csr rd).vxsat = s.vxsat := rfl
@[simp] theorem afterRead_text (s : State) (csr : Csr) (rd : RegNo) : (afterRead s csr rd).text = s.text := rfl
@[simp] theorem afterRead_trap (s : State) (csr : Csr) (rd : RegNo) : (afterRead s csr rd).trap = s.trap := rfl
@[simp] theorem afterRead_draws (s : State) (csr : Csr) (rd : RegNo) : (afterRead s csr rd).draws = s.draws := rfl

/-! ### Fields: afterWrite -/

@[simp] theorem afterWrite_cfg (s : State) (csr : Csr) (rd : RegNo) (w : Word) : (afterWrite s csr rd w).cfg = s.cfg := rfl
@[simp] theorem afterWrite_x (s : State) (csr : Csr) (rd : RegNo) (w : Word) : (afterWrite s csr rd w).x = if rd = 0#5 then s.x else s.x.set rd.toNat (zx s.cfg (csrRead s csr)) rd.isLt := rfl
@[simp] theorem afterWrite_pc (s : State) (csr : Csr) (rd : RegNo) (w : Word) : (afterWrite s csr rd w).pc = zx s.cfg (s.pc + 4#64) := rfl
@[simp] theorem afterWrite_vreg (s : State) (csr : Csr) (rd : RegNo) (w : Word) : (afterWrite s csr rd w).vreg = s.vreg := rfl
@[simp] theorem afterWrite_vs (s : State) (csr : Csr) (rd : RegNo) (w : Word) : (afterWrite s csr rd w).vs = vsAfter s.vs (vectorStateChanged s (setX (csrWrite s csr w) rd (csrRead s csr))) (Config.drawDirty s.draws) := rfl
@[simp] theorem afterWrite_mstatusOther (s : State) (csr : Csr) (rd : RegNo) (w : Word) : (afterWrite s csr rd w).mstatusOther = s.mstatusOther := rfl
@[simp] theorem afterWrite_misaOther (s : State) (csr : Csr) (rd : RegNo) (w : Word) : (afterWrite s csr rd w).misaOther = s.misaOther := rfl
@[simp] theorem afterWrite_vtype (s : State) (csr : Csr) (rd : RegNo) (w : Word) : (afterWrite s csr rd w).vtype = s.vtype := rfl
@[simp] theorem afterWrite_vl (s : State) (csr : Csr) (rd : RegNo) (w : Word) : (afterWrite s csr rd w).vl = s.vl := rfl
@[simp] theorem afterWrite_vstart (s : State) (csr : Csr) (rd : RegNo) (w : Word) : (afterWrite s csr rd w).vstart = (csrWrite s csr w).vstart := rfl
@[simp] theorem afterWrite_vxrm (s : State) (csr : Csr) (rd : RegNo) (w : Word) : (afterWrite s csr rd w).vxrm = (csrWrite s csr w).vxrm := rfl
@[simp] theorem afterWrite_vxsat (s : State) (csr : Csr) (rd : RegNo) (w : Word) : (afterWrite s csr rd w).vxsat = (csrWrite s csr w).vxsat := rfl
@[simp] theorem afterWrite_text (s : State) (csr : Csr) (rd : RegNo) (w : Word) : (afterWrite s csr rd w).text = s.text := rfl
@[simp] theorem afterWrite_trap (s : State) (csr : Csr) (rd : RegNo) (w : Word) : (afterWrite s csr rd w).trap = s.trap := rfl
@[simp] theorem afterWrite_draws (s : State) (csr : Csr) (rd : RegNo) (w : Word) : (afterWrite s csr rd w).draws = s.draws + 1 := rfl

/-! ### Fields: installConfig -/

@[simp] theorem installConfig_cfg (ty : VType) (vl : Nat) (rd : RegNo) (s : State) : (installConfig ty vl rd s).cfg = s.cfg := rfl
@[simp] theorem installConfig_x (ty : VType) (vl : Nat) (rd : RegNo) (s : State) : (installConfig ty vl rd s).x = if rd = 0#5 then s.x else s.x.set rd.toNat (zx s.cfg (xword s.cfg vl)) rd.isLt := rfl
@[simp] theorem installConfig_pc (ty : VType) (vl : Nat) (rd : RegNo) (s : State) : (installConfig ty vl rd s).pc = zx s.cfg (s.pc + 4#64) := rfl
@[simp] theorem installConfig_vreg (ty : VType) (vl : Nat) (rd : RegNo) (s : State) : (installConfig ty vl rd s).vreg = s.vreg := rfl
@[simp] theorem installConfig_mstatusOther (ty : VType) (vl : Nat) (rd : RegNo) (s : State) : (installConfig ty vl rd s).mstatusOther = s.mstatusOther := rfl
@[simp] theorem installConfig_misaOther (ty : VType) (vl : Nat) (rd : RegNo) (s : State) : (installConfig ty vl rd s).misaOther = s.misaOther := rfl
@[simp] theorem installConfig_vtype (ty : VType) (vl : Nat) (rd : RegNo) (s : State) : (installConfig ty vl rd s).vtype = ty := rfl
@[simp] theorem installConfig_vl (ty : VType) (vl : Nat) (rd : RegNo) (s : State) : (installConfig ty vl rd s).vl = vl := rfl
@[simp] theorem installConfig_vstart (ty : VType) (vl : Nat) (rd : RegNo) (s : State) : (installConfig ty vl rd s).vstart = 0 := rfl
@[simp] theorem installConfig_vxrm (ty : VType) (vl : Nat) (rd : RegNo) (s : State) : (installConfig ty vl rd s).vxrm = s.vxrm := rfl
@[simp] theorem installConfig_vxsat (ty : VType) (vl : Nat) (rd : RegNo) (s : State) : (installConfig ty vl rd s).vxsat = s.vxsat := rfl
@[simp] theorem installConfig_text (ty : VType) (vl : Nat) (rd : RegNo) (s : State) : (installConfig ty vl rd s).text = s.text := rfl
@[simp] theorem installConfig_trap (ty : VType) (vl : Nat) (rd : RegNo) (s : State) : (installConfig ty vl rd s).trap = s.trap := rfl
@[simp] theorem installConfig_draws (ty : VType) (vl : Nat) (rd : RegNo) (s : State) : (installConfig ty vl rd s).draws = s.draws + 1 := rfl

theorem raiseIllegal_eq (s : State) : raiseIllegal s = .next (trapped s) := rfl

theorem reservedUse_traps {s : State} (h : s.cfg.reservedTraps = true) (r : Refusal) :
    reservedUse r s = .next (trapped s) := by
  simp [reservedUse, h, raiseIllegal_eq]

theorem reservedUse_refuses {s : State} (h : s.cfg.reservedTraps = false) (r : Refusal) :
    reservedUse r s = .refused r := by
  simp [reservedUse, h]

theorem reservedUse_next {s t : State} {r : Refusal} (h : reservedUse r s = .next t) : t = trapped s := by
  unfold reservedUse at h
  split at h
  · exact (Host.Outcome.next.inj h).symm
  · cases h

/-! ### `accessCsr` -/

theorem csrReadOnly_of_readWrite {csr : Csr} (h : csrReadWrite csr = true) : csrReadOnly csr = false := by
  cases csr <;> simp_all [csrReadWrite, csrReadOnly]

theorem isVector_of_readWrite {csr : Csr} (h : csrReadWrite csr = true) : csr.isVector = true := by
  cases csr <;> simp_all [csrReadWrite, Csr.isVector]

theorem accessCsr_base (addr : BitVec 12) (rd : RegNo) (f : Option (Word → Word)) (s : State) :
    accessCsr (.base addr) rd f s = .refused (.baseCsr addr) := rfl

/-- On a vector CSR the course does not look at the CSR before the checks. -/
theorem accessCsr_vector {csr : Csr} (h : csr.isVector = true) (rd : RegNo) (f : Option (Word → Word)) (s : State) :
    accessCsr csr rd f s =
      if s.vs = .off then raiseIllegal s
      else
        match f with
        | none => .next (afterRead s csr rd)
        | some g => if csrReadOnly csr then raiseIllegal s else .next (afterWrite s csr rd (g (csrRead s csr))) := by
  cases csr <;> first | rfl | simp [Csr.isVector] at h

theorem accessCsr_off {csr : Csr} (h : csr.isVector = true) (rd : RegNo) (f : Option (Word → Word)) {s : State}
    (hs : s.vs = .off) : accessCsr csr rd f s = .next (trapped s) := by
  rw [accessCsr_vector h, if_pos hs, raiseIllegal_eq]

theorem accessCsr_read {csr : Csr} (h : csr.isVector = true) (rd : RegNo) {s : State} (hs : s.vs ≠ .off) :
    accessCsr csr rd none s = .next (afterRead s csr rd) := by
  rw [accessCsr_vector h, if_neg hs]

theorem accessCsr_write {csr : Csr} (h : csrReadWrite csr = true) (rd : RegNo) (g : Word → Word) {s : State}
    (hs : s.vs ≠ .off) : accessCsr csr rd (some g) s = .next (afterWrite s csr rd (g (csrRead s csr))) := by
  rw [accessCsr_vector (isVector_of_readWrite h), if_neg hs]
  simp [csrReadOnly_of_readWrite h]

theorem accessCsr_readOnly {csr : Csr} (h : csrReadOnly csr = true) (rd : RegNo) (g : Word → Word) (s : State) :
    accessCsr csr rd (some g) s = .next (trapped s) := by
  rw [accessCsr_vector (by cases csr <;> simp_all [csrReadOnly, Csr.isVector])]
  by_cases hs : s.vs = .off
  · rw [if_pos hs, raiseIllegal_eq]
  · rw [if_neg hs]; simp only [h, if_true, raiseIllegal_eq]

/-- Everything `accessCsr` can do when it answers a next state. -/
theorem accessCsr_cases {csr : Csr} {rd : RegNo} {f : Option (Word → Word)} {s t : State}
    (h : accessCsr csr rd f s = .next t) :
    (t = trapped s ∧ csr.isVector = true ∧ (s.vs = .off ∨ (f.isSome = true ∧ csrReadOnly csr = true))) ∨
    (t = afterRead s csr rd ∧ csr.isVector = true ∧ f = none ∧ s.vs ≠ .off) ∨
    (∃ g, t = afterWrite s csr rd (g (csrRead s csr)) ∧ f = some g ∧ csrReadWrite csr = true ∧ s.vs ≠ .off) := by
  by_cases hv : csr.isVector = true
  · rw [accessCsr_vector hv] at h
    by_cases hs : s.vs = .off
    · rw [if_pos hs, raiseIllegal_eq] at h
      exact .inl ⟨(Host.Outcome.next.inj h).symm, hv, .inl hs⟩
    · rw [if_neg hs] at h
      cases f with
      | none => exact .inr (.inl ⟨(Host.Outcome.next.inj h).symm, hv, rfl, hs⟩)
      | some g =>
        by_cases hr : csrReadOnly csr = true
        · simp only [hr, if_true, raiseIllegal_eq] at h
          exact .inl ⟨(Host.Outcome.next.inj h).symm, hv, .inr ⟨rfl, hr⟩⟩
        · simp only [hr] at h
          refine .inr (.inr ⟨g, (Host.Outcome.next.inj h).symm, rfl, ?_, hs⟩)
          cases csr <;> simp_all [csrReadOnly, csrReadWrite, Csr.isVector]
  · cases csr <;> first | (simp [Csr.isVector] at hv; done) | (rw [accessCsr_base] at h; cases h)

/-! ### `setConfig` -/

theorem setConfig_off (req : Word) (mode : AvlMode) (rd : RegNo) {s : State} (hs : s.vs = .off) :
    setConfig req mode rd s = .next (trapped s) := by
  rw [setConfig, if_pos hs, raiseIllegal_eq]

theorem sewOfCode_eq_some {v : BitVec 3} {sew : Sew} : sewOfCode v = some sew ↔ v = sewCode sew := by
  revert v; cases sew <;> decide

theorem lmulOfCode_eq_some {v : BitVec 3} {lmul : Lmul} : lmulOfCode v = some lmul ↔ v = lmulCode lmul := by
  revert v; cases lmul <;> decide

/-- The fields of a request below 256, as digits of the number. -/
theorem requestOf_small {c : Config} {req : Word} (h : req.toNat < 256) :
    (requestOf c req).vill = false ∧ (requestOf c req).rsv = 0 ∧
      ((requestOf c req).vma = decide (req.toNat / 128 = 1)) ∧
      ((requestOf c req).vta = decide (req.toNat / 64 % 2 = 1)) ∧
      (requestOf c req).vsew.toNat = req.toNat / 8 % 8 ∧ (requestOf c req).vlmul.toNat = req.toNat % 8 := by
  have hx := xlenBits_cases c
  refine ⟨?_, ?_, ?_, ?_, ?_, ?_⟩ <;> simp only [requestOf]
  · rw [BitVec.getLsbD]
    exact Nat.testBit_lt_two_pow (Nat.lt_of_lt_of_le h (by rcases hx with hx | hx <;> rw [hx] <;> decide))
  · rcases hx with hx | hx <;> rw [hx] <;> omega
  · simp only [BitVec.getLsbD, Nat.testBit_eq_decide_div_mod_eq, decide_eq_decide]; omega
  · simp only [BitVec.getLsbD, Nat.testBit_eq_decide_div_mod_eq]
  · simp [BitVec.extractLsb'_toNat, Nat.shiftRight_eq_div_pow]
  · simp [BitVec.extractLsb'_toNat]

/-- A request of XLEN bits with `vill` and the reserved bits 0 is below 256. -/
theorem request_lt {c : Config} {req : Word} (hz : zx c req = req) (hv : (requestOf c req).vill = false)
    (hr : (requestOf c req).rsv = 0) : req.toNat < 256 := by
  have hlt : req.toNat < 2 ^ xlenBits c := by rw [← hz]; exact zx_toNat_lt _ _
  simp only [requestOf, BitVec.getLsbD, Nat.testBit_eq_decide_div_mod_eq, decide_eq_false_iff_not] at hv hr
  rcases xlenBits_cases c with hx | hx <;> rw [hx] at hv hr hlt <;> omega

/-- Everything `setConfig` can do when it answers a next state. -/
theorem setConfig_cases {req : Word} {mode : AvlMode} {rd : RegNo} {s t : State}
    (h : setConfig req mode rd s = .next t) :
    (t = trapped s ∧ (s.vs = .off ∨ s.cfg.reservedTraps = true)) ∨
    (t = installConfig .illegal 0 rd s ∧ s.vs ≠ .off ∧ requestedFields s.cfg req = none) ∨
    (∃ f vl, t = installConfig (.legal f) vl rd s ∧ s.vs ≠ .off ∧ requestedFields s.cfg req = some f ∧
      ((∃ avl, mode = .value avl ∧ vl = chooseVl s.cfg avl (vlmaxOf s.cfg f.vsew f.vlmul)) ∨
        (mode = .max ∧ vl = vlmaxOf s.cfg f.vsew f.vlmul) ∨
        (mode = .keep ∧ vl = s.vl ∧ vlmaxOfType s.cfg s.vtype = some (vlmaxOf s.cfg f.vsew f.vlmul)))) := by
  unfold setConfig at h
  by_cases hs : s.vs = .off
  · rw [if_pos hs, raiseIllegal_eq] at h
    exact .inl ⟨(Host.Outcome.next.inj h).symm, .inl hs⟩
  rw [if_neg hs] at h
  cases hf : requestedFields s.cfg req with
  | none =>
    rw [hf] at h
    exact .inr (.inl ⟨(Host.Outcome.next.inj h).symm, hs, rfl⟩)
  | some f =>
    rw [hf] at h
    cases mode with
    | value avl => exact .inr (.inr ⟨f, _, (Host.Outcome.next.inj h).symm, hs, rfl, .inl ⟨avl, rfl, rfl⟩⟩)
    | max => exact .inr (.inr ⟨f, _, (Host.Outcome.next.inj h).symm, hs, rfl, .inr (.inl ⟨rfl, rfl⟩)⟩)
    | keep =>
      simp only at h
      split at h
      next hk => exact .inr (.inr ⟨f, _, (Host.Outcome.next.inj h).symm, hs, rfl, .inr (.inr ⟨rfl, rfl, hk⟩)⟩)
      next hk =>
        refine .inl ⟨reservedUse_next h, .inr ?_⟩
        by_contra hr
        rw [reservedUse_refuses (by simpa using hr)] at h
        cases h

/-! ### `exec` -/

theorem exec_csrrw (rd : RegNo) (csr : Csr) (rs1 : RegNo) (s : State) :
    exec (.csrrw rd csr rs1) s = accessCsr csr rd (some fun _ => readX s rs1) s := rfl
theorem exec_csrrs (rd : RegNo) (csr : Csr) (rs1 : RegNo) (s : State) :
    exec (.csrrs rd csr rs1) s = accessCsr csr rd (if rs1 ≠ 0#5 then some fun t => t ||| readX s rs1 else none) s := rfl
theorem exec_csrrc (rd : RegNo) (csr : Csr) (rs1 : RegNo) (s : State) :
    exec (.csrrc rd csr rs1) s =
      accessCsr csr rd (if rs1 ≠ 0#5 then some fun t => t &&& ~~~readX s rs1 else none) s := rfl
theorem exec_csrrwi (rd : RegNo) (csr : Csr) (uimm : BitVec 5) (s : State) :
    exec (.csrrwi rd csr uimm) s = accessCsr csr rd (some fun _ => uimmValue uimm) s := rfl
theorem exec_csrrsi (rd : RegNo) (csr : Csr) (uimm : BitVec 5) (s : State) :
    exec (.csrrsi rd csr uimm) s =
      accessCsr csr rd (if uimm ≠ 0#5 then some fun t => t ||| uimmValue uimm else none) s := rfl
theorem exec_csrrci (rd : RegNo) (csr : Csr) (uimm : BitVec 5) (s : State) :
    exec (.csrrci rd csr uimm) s =
      accessCsr csr rd (if uimm ≠ 0#5 then some fun t => t &&& ~~~uimmValue uimm else none) s := rfl
theorem exec_vsetvli (rd rs1 : RegNo) (zimm : BitVec 11) (s : State) :
    exec (.vsetvli rd rs1 zimm) s = setConfig (zimm.setWidth 64) (avlModeOf s rd rs1) rd s := rfl
theorem exec_vsetivli (rd : RegNo) (uimm : BitVec 5) (zimm : BitVec 10) (s : State) :
    exec (.vsetivli rd uimm zimm) s = setConfig (zimm.setWidth 64) (.value uimm.toNat) rd s := rfl
theorem exec_vsetvl (rd rs1 rs2 : RegNo) (s : State) :
    exec (.vsetvl rd rs1 rs2) s = setConfig (readX s rs2) (avlModeOf s rd rs1) rd s := rfl

/-- A CSR-access instruction that writes is the shared course with something to write. -/
theorem exec_of_write {csr : Csr} {i : Instr} (hi : isCsrAccess csr i = true) (hw : doesWrite i = true) (s : State) :
    ∃ rd g, exec i s = accessCsr csr rd (some g) s := by
  cases i with
  | csrrw rd c rs1 => cases (beq_iff_eq.mp hi : c = csr); exact ⟨_, _, exec_csrrw ..⟩
  | csrrs rd c rs1 =>
    cases (beq_iff_eq.mp hi : c = csr)
    exact ⟨_, _, by rw [exec_csrrs, if_pos (bne_iff_ne.mp hw)]⟩
  | csrrc rd c rs1 =>
    cases (beq_iff_eq.mp hi : c = csr)
    exact ⟨_, _, by rw [exec_csrrc, if_pos (bne_iff_ne.mp hw)]⟩
  | csrrwi rd c u => cases (beq_iff_eq.mp hi : c = csr); exact ⟨_, _, exec_csrrwi ..⟩
  | csrrsi rd c u =>
    cases (beq_iff_eq.mp hi : c = csr)
    exact ⟨_, _, by rw [exec_csrrsi, if_pos (bne_iff_ne.mp hw)]⟩
  | csrrci rd c u =>
    cases (beq_iff_eq.mp hi : c = csr)
    exact ⟨_, _, by rw [exec_csrrci, if_pos (bne_iff_ne.mp hw)]⟩
  | vsetvli rd rs1 z => exact absurd hi (by simp [isCsrAccess])
  | vsetivli rd u z => exact absurd hi (by simp [isCsrAccess])
  | vsetvl rd rs1 rs2 => exact absurd hi (by simp [isCsrAccess])

/-- A CSR-access instruction that only reads is the shared course with nothing to write. -/
theorem exec_of_read {csr : Csr} {i : Instr} (hi : isCsrAccess csr i = true) (hw : doesWrite i = false) (s : State) :
    ∃ rd, exec i s = accessCsr csr rd none s := by
  have zero : ∀ {v : BitVec 5}, (v != 0#5) = false → ¬v ≠ 0#5 := by simp
  cases i with
  | csrrw rd c rs1 => exact absurd hw (by simp [doesWrite])
  | csrrs rd c rs1 => cases (beq_iff_eq.mp hi : c = csr); exact ⟨rd, by rw [exec_csrrs, if_neg (zero hw)]⟩
  | csrrc rd c rs1 => cases (beq_iff_eq.mp hi : c = csr); exact ⟨rd, by rw [exec_csrrc, if_neg (zero hw)]⟩
  | csrrwi rd c u => exact absurd hw (by simp [doesWrite])
  | csrrsi rd c u => cases (beq_iff_eq.mp hi : c = csr); exact ⟨rd, by rw [exec_csrrsi, if_neg (zero hw)]⟩
  | csrrci rd c u => cases (beq_iff_eq.mp hi : c = csr); exact ⟨rd, by rw [exec_csrrci, if_neg (zero hw)]⟩
  | vsetvli rd rs1 z => exact absurd hi (by simp [isCsrAccess])
  | vsetivli rd u z => exact absurd hi (by simp [isCsrAccess])
  | vsetvl rd rs1 rs2 => exact absurd hi (by simp [isCsrAccess])

/-- A configuration instruction is the shared update. -/
theorem exec_of_config {i : Instr} (hi : isConfig i = true) (s : State) :
    ∃ req mode rd, exec i s = setConfig req mode rd s := by
  cases i with
  | vsetvli rd rs1 z => exact ⟨_, _, _, exec_vsetvli ..⟩
  | vsetivli rd u z => exact ⟨_, _, _, exec_vsetivli ..⟩
  | vsetvl rd rs1 rs2 => exact ⟨_, _, _, exec_vsetvl ..⟩
  | _ => exact absurd hi (by simp [isConfig])

/-- What an instruction of the table can do when it answers a next state. -/
def ExecResult (i : Instr) (s t : State) : Prop :=
  t = trapped s ∨
  (∃ csr rd, t = afterRead s csr rd ∧ csr.isVector = true ∧ isCsrAccess csr i = true ∧ doesWrite i = false ∧
    s.vs ≠ .off) ∨
  (∃ csr rd w, t = afterWrite s csr rd w ∧ csrReadWrite csr = true ∧ isCsrAccess csr i = true ∧
    doesWrite i = true ∧ s.vs ≠ .off) ∨
  (∃ rd, t = installConfig .illegal 0 rd s ∧ isConfig i = true ∧ s.vs ≠ .off) ∨
  (∃ f vl rd, t = installConfig (.legal f) vl rd s ∧ isConfig i = true ∧ s.vs ≠ .off ∧
    (∃ req, requestedFields s.cfg req = some f) ∧
    ((∃ avl, vl = chooseVl s.cfg avl (vlmaxOf s.cfg f.vsew f.vlmul)) ∨ vl = vlmaxOf s.cfg f.vsew f.vlmul ∨
      (vl = s.vl ∧ vlmaxOfType s.cfg s.vtype = some (vlmaxOf s.cfg f.vsew f.vlmul))))

/-- Everything an instruction of the table can do when it answers a next state. -/
theorem exec_cases {i : Instr} {s t : State} (h : exec i s = .next t) : ExecResult i s t := by
  have config : ∀ {req mode rd}, setConfig req mode rd s = .next t → isConfig i = true → ExecResult i s t := by
    intro req mode rd h hi
    rcases setConfig_cases h with ⟨rfl, -⟩ | ⟨rfl, hs, -⟩ | ⟨f, vl, rfl, hs, hf, hm⟩
    · exact .inl rfl
    · exact .inr (.inr (.inr (.inl ⟨rd, rfl, hi, hs⟩)))
    · refine .inr (.inr (.inr (.inr ⟨f, vl, rd, rfl, hi, hs, ⟨req, hf⟩, ?_⟩)))
      rcases hm with ⟨a, -, h⟩ | ⟨-, h⟩ | ⟨-, h⟩
      · exact .inl ⟨a, h⟩
      · exact .inr (.inl h)
      · exact .inr (.inr h)
  have access : ∀ {csr rd f}, accessCsr csr rd f s = .next t → isCsrAccess csr i = true →
      (f = none → doesWrite i = false) → (∀ g, f = some g → doesWrite i = true) → ExecResult i s t := by
    intro csr rd f h hi h0 h1
    rcases accessCsr_cases h with ⟨rfl, -⟩ | ⟨rfl, hv, hf, hs⟩ | ⟨g, rfl, hf, hv, hs⟩
    · exact .inl rfl
    · exact .inr (.inl ⟨csr, rd, rfl, hv, hi, h0 hf, hs⟩)
    · exact .inr (.inr (.inl ⟨csr, rd, _, rfl, hv, hi, h1 g hf, hs⟩))
  cases i with
  | csrrw rd csr rs1 => exact access (exec_csrrw .. ▸ h) (by simp [isCsrAccess]) (by simp) (by simp [doesWrite])
  | csrrs rd csr rs1 => exact access (exec_csrrs .. ▸ h) (by simp [isCsrAccess]) (by simp [doesWrite]) (by simp [doesWrite])
  | csrrc rd csr rs1 => exact access (exec_csrrc .. ▸ h) (by simp [isCsrAccess]) (by simp [doesWrite]) (by simp [doesWrite])
  | csrrwi rd csr u => exact access (exec_csrrwi .. ▸ h) (by simp [isCsrAccess]) (by simp) (by simp [doesWrite])
  | csrrsi rd csr u => exact access (exec_csrrsi .. ▸ h) (by simp [isCsrAccess]) (by simp [doesWrite]) (by simp [doesWrite])
  | csrrci rd csr u => exact access (exec_csrrci .. ▸ h) (by simp [isCsrAccess]) (by simp [doesWrite]) (by simp [doesWrite])
  | vsetvli rd rs1 z => exact config (exec_vsetvli .. ▸ h) rfl
  | vsetivli rd u z => exact config (exec_vsetivli .. ▸ h) rfl
  | vsetvl rd rs1 rs2 => exact config (exec_vsetvl .. ▸ h) rfl

/-! ### The `VS` rule at the end of an instruction -/

/-- Reordering: what the comparison of the rule says of the vector state. -/
theorem vectorStateChanged_eq_false' {s t : State} : vectorStateChanged s t = false ↔ SameVectorState s t := by
  rw [vectorStateChanged_eq_false]; unfold SameVectorState; tauto

/-- Where the rule was applied to a state whose `VS` was still the old one, `VS` obeys it; `t` may differ from that
state in anything but the vector state and `VS`. -/
theorem vsObeysDirtyRule_of {s u t : State} (hu : u.vs = s.vs) (hv : t.vs = (applyDirty s u).vs)
    (ht : SameVectorState u t) : VsObeysDirtyRule s t := by
  have hsame : SameVectorState s t ↔ vectorStateChanged s u = false := by
    rw [vectorStateChanged_eq_false']; unfold SameVectorState at *; obtain ⟨a, b, c, d, e, f⟩ := ht
    rw [a, b, c, d, e, f]
  rw [applyDirty_vs, hu] at hv
  refine ⟨fun h => by rw [hv, h]; rfl, fun h => by rw [hv, h]; rfl, ?_, fun h hn => ?_⟩
  · rw [hv]; exact vsAfter_cases _ _ _
  · rw [hv]
    have : vectorStateChanged s u = true := by
      by_contra hc; exact hn (hsame.mpr (by simpa using hc))
    rw [this]; exact vsAfter_changed h _

/-! ### What the three ways leave -/

theorem readX_advancePc (s : State) (r : RegNo) : readX (advancePc s) r = readX s r :=
  readX_congr (by simp) (by simp) r

/-- An XLEN-bit value of `u` in `rd`, the other registers those of `s`. -/
theorem xWritten_of {s t u : State} {rd : RegNo} {v : Word} (hc : u.cfg = s.cfg) (hx : u.x = s.x)
    (ht : t.cfg = u.cfg) (htx : t.x = (setX u rd v).x) (hv : zx s.cfg v = v) : XWritten s t rd v := by
  intro r
  rw [readX_congr (s := setX u rd v) (by simp [ht]) htx, readX_setX, readX_congr hc hx, hc, hv]

theorem pcAdvanced_of {s t : State} (hc : t.cfg = s.cfg) (h : t.pc = (advancePc s).pc) : PcAdvanced s t := by
  unfold PcAdvanced
  rw [← readPc_advancePc]
  simp [readPc, hc, h]

@[simp] theorem zx_csrRead (s : State) (csr : Csr) : zx s.cfg (csrRead s csr) = csrRead s csr := by
  cases csr with
  | vtype =>
    unfold csrRead vtypeValue
    cases s.vtype with
    | illegal => unfold zx xlenBits; cases s.cfg.xlen <;> rfl
    | legal f =>
      unfold zx; cases s.cfg.xlen <;> simp only
      apply BitVec.eq_of_toNat_eq; simp only [BitVec.toNat_setWidth]; omega
  | vxsat => unfold csrRead zx; cases s.cfg.xlen <;> cases s.vxsat <;> rfl
  | vxrm =>
    unfold csrRead zx; cases s.cfg.xlen <;> simp only
    apply BitVec.eq_of_toNat_eq; simp only [BitVec.toNat_setWidth]; omega
  | vcsr =>
    unfold csrRead vcsrValue zx; cases s.cfg.xlen <;> simp only
    apply BitVec.eq_of_toNat_eq; simp only [BitVec.toNat_setWidth]; omega
  | vstart => simp [csrRead]
  | vl => simp [csrRead]
  | vlenb => simp [csrRead]
  | base a => simp [csrRead]

/-- `afterRead`, whole. -/
theorem afterRead_spec (s : State) (csr : Csr) (rd : RegNo) :
    XWritten s (afterRead s csr rd) rd (csrRead s csr) ∧ PcAdvanced s (afterRead s csr rd) ∧
      SameVectorState s (afterRead s csr rd) ∧ (afterRead s csr rd).vs = s.vs ∧ RestUnchanged s (afterRead s csr rd) ∧
      (afterRead s csr rd).trap = s.trap ∧ (afterRead s csr rd).draws = s.draws :=
  ⟨xWritten_of (u := s) rfl rfl rfl rfl (by simp), pcAdvanced_of rfl rfl, ⟨rfl, rfl, rfl, rfl, rfl, rfl⟩, rfl,
    ⟨rfl, rfl, rfl, rfl, fun _ => rfl⟩, rfl, rfl⟩

/-- A CSR write, field by field. -/
theorem csrWrite_spec (s : State) (csr : Csr) (w : Word) : CsrWritten s (csrWrite s csr w) csr w := by
  refine ⟨rfl, rfl, rfl, ?_, ?_⟩
  · rw [csrWrite_vxrm]
    split
    · simp [BitVec.extractLsb'_toNat]
    · split
      · simp [BitVec.extractLsb'_toNat, Nat.shiftRight_eq_div_pow]
      · rfl
  · rw [csrWrite_vxsat]
    split
    · simp [BitVec.getLsbD, Nat.testBit_zero]
    · rfl

/-- `afterWrite`, whole. -/
theorem afterWrite_spec (s : State) (csr : Csr) (rd : RegNo) (w : Word) :
    CsrAccessCompleted s (afterWrite s csr rd w) csr rd w :=
  ⟨csrWrite_spec s csr w, xWritten_of (u := csrWrite s csr w) rfl rfl rfl rfl (by simp), pcAdvanced_of rfl rfl,
    vsObeysDirtyRule_of (u := setX (csrWrite s csr w) rd (csrRead s csr)) rfl rfl ⟨rfl, rfl, rfl, rfl, rfl, rfl⟩,
    ⟨rfl, rfl, rfl, rfl, fun _ => rfl⟩, rfl⟩

/-- `installConfig`, whole. -/
theorem installConfig_spec (ty : VType) (vl : Nat) (rd : RegNo) (s : State) :
    ConfigInstalled s (installConfig ty vl rd s) ty vl rd :=
  ⟨rfl, rfl, rfl, rfl, rfl,
    xWritten_of (u := { s with vtype := ty, vl := vl, vstart := 0 }) rfl rfl rfl rfl (by simp), pcAdvanced_of rfl rfl,
    vsObeysDirtyRule_of (u := setX { s with vtype := ty, vl := vl, vstart := 0 } rd (xword s.cfg vl)) rfl rfl
      ⟨rfl, rfl, rfl, rfl, rfl, rfl⟩,
    ⟨rfl, rfl, rfl, rfl, fun _ => rfl⟩, rfl⟩

end Sys2Proof.Laws
end

