-- ==== Sys2Proof/Laws/Encoding.lean ====
section
/-! SUPPORT. The fields of an encoded word, its bits, and what a word that decodes matches. -/

namespace Sys2Proof.Laws

/-- A word under a mask has a pattern when it has the pattern's bits under the mask. -/
theorem and_mask_eq (w m p : BitVec 32) :
    w &&& m = p ↔ ∀ i < 32, (w.getLsbD i && m.getLsbD i) = p.getLsbD i := by
  constructor
  · rintro rfl i _; simp
  · intro h; apply BitVec.eq_of_getLsbD_eq; intro i hi; simpa using h i hi

/-- Two slices are equal when their bits are. -/
theorem extract_eq_iff {w p : BitVec 32} (a n : Nat) :
    w.extractLsb' a n = p.extractLsb' a n ↔ ∀ i < n, w.getLsbD (a + i) = p.getLsbD (a + i) := by
  constructor
  · intro h i hi
    have := congrArg (fun v => v.getLsbD i) h
    simpa [hi] using this
  · intro h; apply BitVec.eq_of_getLsbD_eq; intro i hi; simpa [hi] using h i hi

/-! ### CSR addresses -/

theorem csrOfAddr_csrAddr (c : Csr) (h : c.isVector = true) : csrOfAddr (csrAddr c) = c := by
  cases c <;> simp_all [csrOfAddr, csrAddr, Csr.isVector]

theorem csrAddr_csrOfAddr (a : BitVec 12) : csrAddr (csrOfAddr a) = a := by
  unfold csrOfAddr
  split_ifs <;> simp_all [csrAddr]

/-! ### Fields of an encoded word -/

theorem fields_encodeCsr (csr : BitVec 12) (rs1 : BitVec 5) (f : BitVec 3) (rd : RegNo) :
    rdField (encodeCsr csr rs1 f rd) = rd ∧ rs1Field (encodeCsr csr rs1 f rd) = rs1 ∧
      csrField (encodeCsr csr rs1 f rd) = csr := by
  unfold encodeCsr rdField rs1Field csrField
  refine ⟨?_, ?_, ?_⟩ <;>
  · apply BitVec.eq_of_getLsbD_eq
    intro i hi
    simp only [BitVec.getLsbD_extractLsb', BitVec.getLsbD_append, hi, decide_true, Bool.true_and]
    split_ifs <;> first | omega | (congr 1; omega)

theorem fields_encodeVsetvli (zimm : BitVec 11) (rs1 rd : RegNo) :
    rdField (encodeVsetvli zimm rs1 rd) = rd ∧ rs1Field (encodeVsetvli zimm rs1 rd) = rs1 ∧
      zimm11Field (encodeVsetvli zimm rs1 rd) = zimm := by
  unfold encodeVsetvli rdField rs1Field zimm11Field
  refine ⟨?_, ?_, ?_⟩ <;>
  · apply BitVec.eq_of_getLsbD_eq
    intro i hi
    simp only [BitVec.getLsbD_extractLsb', BitVec.getLsbD_append, hi, decide_true, Bool.true_and]
    split_ifs <;> first | omega | (congr 1; omega)

theorem fields_encodeVsetivli (zimm : BitVec 10) (uimm : BitVec 5) (rd : RegNo) :
    rdField (encodeVsetivli zimm uimm rd) = rd ∧ rs1Field (encodeVsetivli zimm uimm rd) = uimm ∧
      zimm10Field (encodeVsetivli zimm uimm rd) = zimm := by
  unfold encodeVsetivli rdField rs1Field zimm10Field
  refine ⟨?_, ?_, ?_⟩ <;>
  · apply BitVec.eq_of_getLsbD_eq
    intro i hi
    simp only [BitVec.getLsbD_extractLsb', BitVec.getLsbD_append, hi, decide_true, Bool.true_and]
    split_ifs <;> first | omega | (congr 1; omega)

theorem fields_encodeVsetvl (rs2 rs1 rd : RegNo) :
    rdField (encodeVsetvl rs2 rs1 rd) = rd ∧ rs1Field (encodeVsetvl rs2 rs1 rd) = rs1 ∧
      rs2Field (encodeVsetvl rs2 rs1 rd) = rs2 := by
  unfold encodeVsetvl rdField rs1Field rs2Field
  refine ⟨?_, ?_, ?_⟩ <;>
  · apply BitVec.eq_of_getLsbD_eq
    intro i hi
    simp only [BitVec.getLsbD_extractLsb', BitVec.getLsbD_append, hi, decide_true, Bool.true_and]
    split_ifs <;> first | omega | (congr 1; omega)

/-! ### The fixed bits of an encoded word -/

theorem encodeCsr_and (csr : BitVec 12) (rs1 : BitVec 5) (f : BitVec 3) (rd : RegNo) :
    encodeCsr csr rs1 f rd &&& 0x0000707F#32 = encodeCsr 0 0 f 0 := by
  rw [and_mask_eq]; unfold encodeCsr
  intro i hi
  simp only [BitVec.getLsbD_append]
  interval_cases i <;> simp (decide := true)

theorem encodeVsetvli_and (zimm : BitVec 11) (rs1 rd : RegNo) :
    encodeVsetvli zimm rs1 rd &&& 0x8000707F#32 = 0x00007057#32 := by
  rw [and_mask_eq]; unfold encodeVsetvli
  intro i hi
  simp only [BitVec.getLsbD_append]
  interval_cases i <;> simp (decide := true)

theorem encodeVsetivli_and (zimm : BitVec 10) (uimm : BitVec 5) (rd : RegNo) :
    encodeVsetivli zimm uimm rd &&& 0xC000707F#32 = 0xC0007057#32 := by
  rw [and_mask_eq]; unfold encodeVsetivli
  intro i hi
  simp only [BitVec.getLsbD_append]
  interval_cases i <;> simp (decide := true)

theorem encodeVsetvl_and (rs2 rs1 rd : RegNo) :
    encodeVsetvl rs2 rs1 rd &&& 0xFE00707F#32 = 0x80007057#32 := by
  rw [and_mask_eq]; unfold encodeVsetvl
  intro i hi
  simp only [BitVec.getLsbD_append]
  interval_cases i <;> simp (decide := true)

/-- A word that matches one row has its pattern under any part of the row's mask. -/
theorem and_of_and {w m p : BitVec 32} (h : w &&& m = p) (m' : BitVec 32) (hm : m &&& m' = m') : w &&& m' = p &&& m' := by
  rw [← h, BitVec.and_assoc, hm]

/-! ### What a word that decodes matches -/

theorem ite_ok {ε α : Type} {c : Prop} [Decidable c] {a i : α} {e : Except ε α}
    (h : (if c then .ok a else e) = .ok i) : (c ∧ i = a) ∨ e = .ok i := by
  by_cases hc : c
  · rw [if_pos hc] at h; exact .inl ⟨hc, (Except.ok.inj h).symm⟩
  · rw [if_neg hc] at h; exact .inr h

theorem ite_error {ε α : Type} {c : Prop} [Decidable c] {x i : Except ε α} {e : Except ε α}
    (h : (if c then x else e) = i) : x = i ∨ e = i := by
  by_cases hc : c
  · rw [if_pos hc] at h; exact .inl h
  · rw [if_neg hc] at h; exact .inr h

/-- The one inversion of `decode`: the row it matched, and the instruction made of the word's fields. -/
theorem decode_ok {w : BitVec 32} {i : Instr} (h : decode w = .ok i) :
    (rowMatches rowCsrrw w = true ∧ i = .csrrw (rdField w) (csrOfAddr (csrField w)) (rs1Field w)) ∨
    (rowMatches rowCsrrs w = true ∧ i = .csrrs (rdField w) (csrOfAddr (csrField w)) (rs1Field w)) ∨
    (rowMatches rowCsrrc w = true ∧ i = .csrrc (rdField w) (csrOfAddr (csrField w)) (rs1Field w)) ∨
    (rowMatches rowCsrrwi w = true ∧ i = .csrrwi (rdField w) (csrOfAddr (csrField w)) (rs1Field w)) ∨
    (rowMatches rowCsrrsi w = true ∧ i = .csrrsi (rdField w) (csrOfAddr (csrField w)) (rs1Field w)) ∨
    (rowMatches rowCsrrci w = true ∧ i = .csrrci (rdField w) (csrOfAddr (csrField w)) (rs1Field w)) ∨
    (rowMatches rowVsetvli w = true ∧ i = .vsetvli (rdField w) (rs1Field w) (zimm11Field w)) ∨
    (rowMatches rowVsetivli w = true ∧ i = .vsetivli (rdField w) (rs1Field w) (zimm10Field w)) ∨
    (rowMatches rowVsetvl w = true ∧ i = .vsetvl (rdField w) (rs1Field w) (rs2Field w)) := by
  unfold decode at h
  rcases ite_ok h with h | h
  · exact .inl h
  rcases ite_ok h with h | h
  · exact .inr (.inl h)
  rcases ite_ok h with h | h
  · exact .inr (.inr (.inl h))
  rcases ite_ok h with h | h
  · exact .inr (.inr (.inr (.inl h)))
  rcases ite_ok h with h | h
  · exact .inr (.inr (.inr (.inr (.inl h))))
  rcases ite_ok h with h | h
  · exact .inr (.inr (.inr (.inr (.inr (.inl h)))))
  rcases ite_ok h with h | h
  · exact .inr (.inr (.inr (.inr (.inr (.inr (.inl h))))))
  rcases ite_ok h with h | h
  · exact .inr (.inr (.inr (.inr (.inr (.inr (.inr (.inl h)))))))
  rcases ite_ok h with h | h
  · exact .inr (.inr (.inr (.inr (.inr (.inr (.inr (.inr h)))))))
  rcases ite_error h with h | h
  · exact absurd h (by simp)
  rcases ite_error h with h | h
  · exact absurd h (by simp)
  rcases ite_error h with h | h
  · exact absurd h (by simp)
  exact absurd h (by simp)

/-! ### Bytes of a word -/

/-- The bytes of a word, put together, are the word. -/
theorem wordOfBytes_wordBytes (w : BitVec 32) :
    wordOfBytes (w.extractLsb' 0 8) (w.extractLsb' 8 8) (w.extractLsb' 16 8) (w.extractLsb' 24 8) = w := by
  apply BitVec.eq_of_getLsbD_eq
  intro i hi
  unfold wordOfBytes
  simp only [BitVec.getLsbD_append, BitVec.getLsbD_extractLsb']
  split
  · next h => simp [h]
  · split
    · next h => simp [h]; congr 1; omega
    · split
      · next h => simp [h]; congr 1; omega
      · next h1 h2 h3 =>
        have : i - 8 - 8 - 8 < 8 := by omega
        simp [this]; congr 1; omega

end Sys2Proof.Laws
end

