-- ==== Sys2Proof/Laws/Frame.lean ====
section
/-! SUPPORT. The frame of vector instructions: numbers made of bits, what `vectorInstruction` can do, and the bits of the
registers it leaves. -/

namespace Sys2Proof.Laws

open Sys2Proof.Machine

/-! ### Numbers made of bits -/

theorem natOfBits_lt (n : Nat) (f : Nat → Bool) : natOfBits n f < 2 ^ n := by
  induction n with
  | zero => simp [natOfBits]
  | succ n ih =>
    rw [natOfBits, Nat.pow_succ]
    split <;> omega

/-- The bits of the number are the bits given. -/
theorem testBit_natOfBits (n : Nat) (f : Nat → Bool) (i : Nat) :
    (natOfBits n f).testBit i = (decide (i < n) && f i) := by
  induction n with
  | zero => simp [natOfBits]
  | succ n ih =>
    have hlt := natOfBits_lt n f
    rw [natOfBits]
    by_cases hf : f n = true
    · rw [if_pos hf, Nat.add_comm]
      rcases Nat.lt_trichotomy i n with h | h | h
      · rw [Nat.testBit_two_pow_add_gt h, ih]; simp [h, Nat.lt_succ_of_lt h]
      · subst h; rw [Nat.testBit_two_pow_add_eq, ih]; simp [hf]
      · have hi : natOfBits n f < 2 ^ i := Nat.lt_trans hlt (Nat.pow_lt_pow_right (by omega) h)
        have hs : 2 ^ n + natOfBits n f < 2 ^ i :=
          Nat.lt_of_lt_of_le (show _ < 2 ^ (n + 1) by rw [Nat.pow_succ]; omega) (Nat.pow_le_pow_right (by omega) h)
        rw [Nat.testBit_lt_two_pow hs]; simp; omega
    · rw [if_neg hf, Nat.add_zero, ih]
      by_cases h : i = n
      · subst h; simp [hf]
      · congr 1; simp only [decide_eq_decide]; omega

/-- Two numbers made of the same bits are the same. -/
theorem natOfBits_congr {n : Nat} {f g : Nat → Bool} (h : ∀ i < n, f i = g i) : natOfBits n f = natOfBits n g := by
  induction n with
  | zero => rfl
  | succ n ih => rw [natOfBits, natOfBits, ih fun i hi => h i (by omega), h n (by omega)]

/-! ### The outcomes of the checks and of `vectorInstruction` -/

/-- Steps 1 to 4 of the frame all pass. -/
structure ChecksPass (depends requiresZero misnumbered : Bool) (word : BitVec 32) (s : State) : Prop where
  on : s.vs ≠ .off
  typed : depends = true → s.vtype ≠ .illegal
  atZero : requiresZero = true → s.vstart = 0
  legal : legalVstart s.cfg word s.vtype s.vstart = true
  bound : depends = true → s.vstart < currentVlmax s
  large : inSmallLmulRegion s = false
  numbered : misnumbered = false

/-- Everything the checks can do when they answer a next state. -/
theorem frameChecks_cases {d z m : Bool} {w : BitVec 32} {s t : State} {work : Host.Outcome State Fault Refusal}
    (h : frameChecks d z m w s work = .next t) : t = trapped s ∨ (ChecksPass d z m w s ∧ work = .next t) := by
  have raise : ∀ {t}, raiseIllegal s = .next t → t = trapped s := fun h => (Host.Outcome.next.inj h).symm
  unfold frameChecks at h
  split at h
  · exact .inl (raise h)
  split at h
  · exact .inl (raise h)
  split at h
  · exact .inl (raise h)
  split at h
  · exact .inl (raise h)
  split at h
  · split at h
    · exact .inl (raise h)
    · exact .inl (reservedUse_next h)
  split at h
  · exact .inl (reservedUse_next h)
  split at h
  · exact .inl (reservedUse_next h)
  next h1 h2 h3 h4 h5 h6 h7 =>
    simp only [Bool.and_eq_true, decide_eq_true_eq, not_and, Bool.not_eq_eq_eq_not, Bool.not_true, Bool.not_eq_true,
      Bool.not_eq_false] at h2 h3 h4 h5 h6 h7
    exact .inr ⟨⟨h1, h2, fun hz => Decidable.byContradiction fun h => by simp [h3 h] at hz, h4, fun hd => Nat.lt_of_not_le (h5 hd), h6, h7⟩, h⟩

/-- Checks that pass leave the outcome to the instruction's own work. -/
theorem frameChecks_of_pass {d z m : Bool} {w : BitVec 32} {s : State} (h : ChecksPass d z m w s)
    (work : Host.Outcome State Fault Refusal) : frameChecks d z m w s work = work := by
  have h2 : ¬((d && decide (s.vtype = .illegal)) = true) := by simpa using h.typed
  have h3 : ¬((decide (s.vstart ≠ 0) && z) = true) := by
    simp only [Bool.and_eq_true, decide_eq_true_eq, not_and]
    exact fun h0 hz => h0 (h.atZero hz)
  have h5 : ¬((d && decide (currentVlmax s ≤ s.vstart)) = true) := by simpa using h.bound
  rw [frameChecks, if_neg h.on, if_neg h2, if_neg h3, if_neg (by simp [h.legal]), if_neg h5, if_neg (by simp [h.large]),
    if_neg (by simp [h.numbered])]

/-- The checks of an instruction. -/
abbrev FrameChecksPass (I : VInstr) (s : State) : Prop :=
  ChecksPass (dependsOnVtype I.cls) I.requiresVstartZero (hasMisnumberedGroup I s) I.word s

/-- Everything the frame can do when it answers a next state. -/
theorem vectorInstruction_cases {I : VInstr} {stop : Option Stop} {s t : State}
    (h : vectorInstruction I stop s = .next t) :
    t = trapped s ∨ (FrameChecksPass I s ∧ t = completeVector I s) ∨
      ∃ p, stop = some p ∧ FrameChecksPass I s ∧ canStopAt I p s = true ∧ t = trapAtElement I p s := by
  unfold vectorInstruction at h
  rcases frameChecks_cases h with h | ⟨hp, h⟩
  · exact .inl h
  · cases stop with
    | none => exact .inr (.inl ⟨hp, (Host.Outcome.next.inj h).symm⟩)
    | some p =>
      by_cases hc : canStopAt I p s = true
      · simp only [if_pos hc] at h
        exact .inr (.inr ⟨p, rfl, hp, hc, (Host.Outcome.next.inj h).symm⟩)
      · simp only [if_neg hc] at h
        exact .inr (.inl ⟨hp, (Host.Outcome.next.inj h).symm⟩)

/-- Where a trap can be taken. -/
theorem canStopAt_iff (I : VInstr) (p : Stop) (s : State) :
    canStopAt I p s = true ↔ s.vstart ≤ p.element ∧ p.element < s.vl ∧
      (p.isInterrupt = false → maskAllows I s p.element = true) ∧ (I.requiresVstartZero = true → p.element = 0) ∧
      legalVstart s.cfg I.word s.vtype p.element = true ∧
      sourcesIntact I p.element s (trapAtElement I p s) = true := by
  cases hi : p.isInterrupt <;> cases hz : I.requiresVstartZero <;> simp [canStopAt, hi, hz, and_assoc]

/-! ### The fields a completing or a stopped instruction leaves -/

@[simp] theorem writeScalar_cfg (I : VInstr) (s : State) : (writeScalar I s).cfg = s.cfg := by
  unfold writeScalar; split <;> rfl
@[simp] theorem writeScalar_pc (I : VInstr) (s : State) : (writeScalar I s).pc = s.pc := by
  unfold writeScalar; split <;> rfl
@[simp] theorem writeScalar_vreg (I : VInstr) (s : State) : (writeScalar I s).vreg = s.vreg := by
  unfold writeScalar; split <;> rfl
@[simp] theorem writeScalar_vs (I : VInstr) (s : State) : (writeScalar I s).vs = s.vs := by
  unfold writeScalar; split <;> rfl
@[simp] theorem writeScalar_mstatusOther (I : VInstr) (s : State) : (writeScalar I s).mstatusOther = s.mstatusOther := by
  unfold writeScalar; split <;> rfl
@[simp] theorem writeScalar_misaOther (I : VInstr) (s : State) : (writeScalar I s).misaOther = s.misaOther := by
  unfold writeScalar; split <;> rfl
@[simp] theorem writeScalar_vtype (I : VInstr) (s : State) : (writeScalar I s).vtype = s.vtype := by
  unfold writeScalar; split <;> rfl
@[simp] theorem writeScalar_vl (I : VInstr) (s : State) : (writeScalar I s).vl = s.vl := by
  unfold writeScalar; split <;> rfl
@[simp] theorem writeScalar_vstart (I : VInstr) (s : State) : (writeScalar I s).vstart = s.vstart := by
  unfold writeScalar; split <;> rfl
@[simp] theorem writeScalar_vxrm (I : VInstr) (s : State) : (writeScalar I s).vxrm = s.vxrm := by
  unfold writeScalar; split <;> rfl
@[simp] theorem writeScalar_vxsat (I : VInstr) (s : State) : (writeScalar I s).vxsat = s.vxsat := by
  unfold writeScalar; split <;> rfl
@[simp] theorem writeScalar_text (I : VInstr) (s : State) : (writeScalar I s).text = s.text := by
  unfold writeScalar; split <;> rfl
@[simp] theorem writeScalar_trap (I : VInstr) (s : State) : (writeScalar I s).trap = s.trap := by
  unfold writeScalar; split <;> rfl
@[simp] theorem writeScalar_draws (I : VInstr) (s : State) : (writeScalar I s).draws = s.draws := by
  unfold writeScalar; split <;> rfl

@[simp] theorem completeVector_cfg (I : VInstr) (s : State) : (completeVector I s).cfg = s.cfg := by
  simp [completeVector]
@[simp] theorem completeVector_vreg (I : VInstr) (s : State) : (completeVector I s).vreg = writeElements I none s := by
  simp [completeVector]
@[simp] theorem completeVector_vtype (I : VInstr) (s : State) : (completeVector I s).vtype = s.vtype := by
  simp [completeVector]
@[simp] theorem completeVector_vl (I : VInstr) (s : State) : (completeVector I s).vl = vlAfter I.cls s.vl := by
  simp [completeVector]
@[simp] theorem completeVector_vstart (I : VInstr) (s : State) : (completeVector I s).vstart = 0 := by
  simp [completeVector]
@[simp] theorem completeVector_vxrm (I : VInstr) (s : State) : (completeVector I s).vxrm = s.vxrm := by
  simp [completeVector]
@[simp] theorem completeVector_vxsat (I : VInstr) (s : State) :
    (completeVector I s).vxsat = (s.vxsat || someSaturates I none s) := by
  simp [completeVector]
@[simp] theorem completeVector_text (I : VInstr) (s : State) : (completeVector I s).text = s.text := by
  simp [completeVector]
@[simp] theorem completeVector_trap (I : VInstr) (s : State) : (completeVector I s).trap = s.trap := by
  simp [completeVector]
@[simp] theorem completeVector_mstatusOther (I : VInstr) (s : State) :
    (completeVector I s).mstatusOther = s.mstatusOther := by
  simp [completeVector]
@[simp] theorem completeVector_misaOther (I : VInstr) (s : State) : (completeVector I s).misaOther = s.misaOther := by
  simp [completeVector]
theorem completeVector_pc (I : VInstr) (s : State) : (completeVector I s).pc = (advancePc s).pc := by
  simp [completeVector]

@[simp] theorem trapAtElement_cfg (I : VInstr) (p : Stop) (s : State) : (trapAtElement I p s).cfg = s.cfg := rfl
@[simp] theorem trapAtElement_vreg (I : VInstr) (p : Stop) (s : State) :
    (trapAtElement I p s).vreg = writeElements I (some p.element) s := rfl
@[simp] theorem trapAtElement_vtype (I : VInstr) (p : Stop) (s : State) : (trapAtElement I p s).vtype = s.vtype := rfl
@[simp] theorem trapAtElement_vl (I : VInstr) (p : Stop) (s : State) : (trapAtElement I p s).vl = s.vl := rfl
@[simp] theorem trapAtElement_vstart (I : VInstr) (p : Stop) (s : State) : (trapAtElement I p s).vstart = p.element := rfl
@[simp] theorem trapAtElement_vxrm (I : VInstr) (p : Stop) (s : State) : (trapAtElement I p s).vxrm = s.vxrm := rfl
@[simp] theorem trapAtElement_vxsat (I : VInstr) (p : Stop) (s : State) :
    (trapAtElement I p s).vxsat = (s.vxsat || someSaturates I (some p.element) s) := rfl
@[simp] theorem trapAtElement_trap (I : VInstr) (p : Stop) (s : State) :
    (trapAtElement I p s).trap = some ⟨stopCause p, readPc s⟩ := rfl
@[simp] theorem trapAtElement_pc (I : VInstr) (p : Stop) (s : State) : (trapAtElement I p s).pc = s.pc := rfl

/-! ### The bits that are left -/

/-- One register after a group was written. -/
theorem writeGroup_getElem (I : VInstr) (s : State) (L : Layout) (stop : Option Nat) (vd : Nat) (result : Nat → Nat)
    (r : Nat) (hr : r < 32) :
    (writeGroup I s L stop vd result)[r] =
      if vd ≤ r ∧ r < vd + L.registers then
        natOfBits s.cfg.vlen fun b =>
          elementBit I s L stop (groupTailEnd s.cfg L) (elementAt s.cfg L (r - vd) b) (vregBit s r b)
            ((result (elementAt s.cfg L (r - vd) b)).testBit (b % L.width))
      else s.vreg[r] := by
  simp [writeGroup]

/-- One register after a mask was written. -/
theorem writeMask_getElem (I : VInstr) (s : State) (L : Layout) (stop : Option Nat) (vd : RegNo)
    (result full : Nat → Bool) (r : Nat) (hr : r < 32) :
    (writeMask I s L stop vd result full)[r] =
      if vd.toNat = r then
        natOfBits s.cfg.vlen fun x => maskDestBit I s L stop full x (vregBit s vd.toNat x) (result x)
      else s.vreg[r] := by
  simp [writeMask, Vector.getElem_set]

/-- The layout of an instruction that depends on `vtype`. -/
theorem layoutOf_of_depends {I : VInstr} (h : dependsOnVtype I.cls = true) (s : State) :
    layoutOf I s = layoutOfVtype s.cfg s.vtype := by
  unfold layoutOf; cases hc : I.cls <;> simp_all [dependsOnVtype]

/-- Only a fault-only-first load changes `vl`. -/
theorem vlAfter_of_ne {cls : VClass} (h : ∀ n, cls ≠ .faultOnlyFirstLoad n) (vl : Nat) : vlAfter cls vl = vl := by
  cases cls <;> first | rfl | exact absurd rfl (h _)

theorem vlAfter_le (cls : VClass) (vl : Nat) : vlAfter cls vl ≤ vl := by cases cls <;> simp [vlAfter]

/-- `saturatesAt` reads nothing of the state but `vxrm`. -/
theorem saturatesAt_congr (I : VInstr) {s t : State} (h : t.vxrm = s.vxrm) (x : Nat) :
    saturatesAt I t x = saturatesAt I s x := by
  unfold saturatesAt; rw [h]

theorem vregBits_eq (s : State) {n : Nat} (h : n < 32) : vregBits s n = s.vreg[n] := by
  simp [vregBits, h]

/-- The bits of an element are bits of a register. -/
theorem getLsbD_elem (s : State) (n i w j : Nat) (hj : j < w) :
    (elem s n i w).getLsbD j = (vregBits s (n + i / (s.cfg.vlen / w))).testBit (i % (s.cfg.vlen / w) * w + j) := by
  rw [elem, BitVec.getLsbD_ofNat, Nat.testBit_shiftRight]
  simp [hj]

/-- Every bit of every element of a group that an instruction wrote, stopped or not. -/
theorem getLsbD_elem_of_group {I : VInstr} {s t : State} {L : Layout} {vd : RegNo} {result : Nat → VResult}
    {stop : Option Nat} (hd : I.dest = .group vd result) (hL : layoutOf I s = some L) (hfit : LayoutFits s.cfg L)
    (hv : s.vstart < s.vl) (hg : vd.toNat + L.registers ≤ 32) (hcfg : t.cfg = s.cfg)
    (ht : t.vreg = writeElements I stop s) {x : Nat} (hx : x < groupTailEnd s.cfg L) {j : Nat} (hj : j < L.width) :
    (elem t vd.toNat x L.width).getLsbD j =
      elementBit I s L stop (groupTailEnd s.cfg L) x ((elem s vd.toNat x L.width).getLsbD j)
        ((resultValue s.vxrm (result x)).testBit j) := by
  obtain ⟨hp, hdv, hG, hvm⟩ := hfit
  have hW : writeElements I stop s = writeGroup I s L stop vd.toNat fun x => resultValue s.vxrm (result x) := by
    unfold writeElements; rw [if_neg (by omega), hd, hL]
  have hE : s.cfg.vlen / L.width * L.width = s.cfg.vlen := Nat.div_mul_cancel hdv
  have hE0 : 0 < s.cfg.vlen / L.width := by
    rcases Nat.eq_zero_or_pos (s.cfg.vlen / L.width) with h | h
    · rw [h] at hvm; unfold groupTailEnd at hx; rw [h] at hx; omega
    · exact h
  rw [getLsbD_elem _ _ _ _ _ hj, getLsbD_elem _ _ _ _ _ hj, hcfg]
  generalize hEE : s.cfg.vlen / L.width = E at *
  have hxG : x < L.registers * E := by
    have hx' : x < max L.elements E := by rw [← hEE]; exact hx
    have h1 : E ≤ L.registers * E := Nat.le_mul_of_pos_left _ hG
    omega
  have hq : x / E < L.registers := by rw [Nat.div_lt_iff_lt_mul hE0]; exact hxG
  have hr : x % E < E := Nat.mod_lt _ hE0
  have h32 : vd.toNat + x / E < 32 := by omega
  have hb : x % E * L.width + j < s.cfg.vlen := by
    rw [← hE]
    calc _ < x % E * L.width + L.width := by omega
      _ = (x % E + 1) * L.width := by ring
      _ ≤ _ := Nat.mul_le_mul_right _ hr
  have d1 : (x % E * L.width + j) / L.width = x % E := by
    rw [Nat.mul_comm, Nat.mul_add_div hp, Nat.div_eq_of_lt hj]; omega
  have d2 : (x % E * L.width + j) % L.width = j := by
    rw [Nat.mul_comm, Nat.mul_add_mod, Nat.mod_eq_of_lt hj]
  have hxE : (vd.toNat + x / E - vd.toNat) * E + x % E = x := by
    rw [Nat.add_sub_cancel_left, Nat.mul_comm]; exact Nat.div_add_mod x E
  rw [vregBits_eq _ h32, vregBits_eq _ h32]
  simp only [ht, hW]
  rw [writeGroup_getElem _ _ _ _ _ _ _ h32, if_pos ⟨Nat.le_add_right _ _, Nat.add_lt_add_left hq _⟩, testBit_natOfBits]
  simp only [elementAt, hb, decide_true, Bool.true_and, hEE, d1, d2, hxE]
  congr 1
  simp only [vregBit, hb, decide_true, Bool.true_and, vregBits_eq _ h32]

/-- Every bit of a mask register that an instruction wrote, stopped or not. -/
theorem vregBit_of_mask {I : VInstr} {s t : State} {L : Layout} {vd : RegNo} {result full : Nat → Bool}
    {stop : Option Nat} (hd : I.dest = .mask vd result full) (hL : layoutOf I s = some L) (hv : s.vstart < s.vl)
    (hcfg : t.cfg = s.cfg) (ht : t.vreg = writeElements I stop s) {x : Nat} (hx : x < s.cfg.vlen) :
    vregBit t vd.toNat x = maskDestBit I s L stop full x (vregBit s vd.toNat x) (result x) := by
  have hW : writeElements I stop s = writeMask I s L stop vd result full := by
    unfold writeElements; rw [if_neg (by omega), hd, hL]
  simp only [vregBit, hcfg, hx, decide_true, Bool.true_and]
  rw [vregBits_eq _ vd.isLt]
  simp only [ht, hW]
  rw [writeMask_getElem _ _ _ _ _ _ _ _ vd.isLt, if_pos rfl, testBit_natOfBits]
  simp [hx, vregBit]

/-- The flag is raised exactly when the instruction is a fixed-point one and some element of the body, allowed by the
mask and reached, saturates. -/
theorem someSaturates_iff (I : VInstr) (stop : Option Nat) (s : State) :
    someSaturates I stop s = true ↔ I.cls = .fixedPoint ∧
      ∃ x, s.vstart ≤ x ∧ x < s.vl ∧ maskAllows I s x = true ∧ reached stop x = true ∧ saturatesAt I s x = true := by
  simp only [someSaturates, List.any_eq_true, List.mem_range, Bool.and_eq_true, decide_eq_true_eq]
  constructor
  · rintro ⟨hc, x, h, ⟨⟨a, b⟩, c⟩, d⟩; exact ⟨hc, x, a, h, b, c, d⟩
  · rintro ⟨hc, x, a, h, b, c, d⟩; exact ⟨hc, x, h, ⟨⟨a, b⟩, c⟩, d⟩

end Sys2Proof.Laws
end

