-- ==== Sys2Proof/Laws/Memory.lean ====
section
/-! SUPPORT. The program text: reading after placing, and the canonical form. -/

namespace Sys2Proof.Laws

open Sys2Proof.Machine

/-- A placed byte reads back, and every other address reads as before. -/
theorem readByte_writeByte (m : Memory) (a : Nat) (b : Byte) (h : m.wf) (a' : Nat) :
    readByte (writeByte m a b) a' = if a' = a then some b else readByte m a' := by
  induction m with
  | nil => simp [writeByte, readByte, eq_comm]
  | cons p m ih =>
    obtain ⟨k, v⟩ := p
    have htail : Memory.wf m := (List.pairwise_cons.mp h).2
    simp only [writeByte]
    split
    · simp only [readByte]; grind
    · split
      · simp only [readByte]; grind
      · simp only [readByte, ih htail]; grind

/-- Where the addresses of a text placed in come from. -/
theorem mem_writeByte {m : Memory} {a : Nat} {b : Byte} {p : Host.Cell} (h : p ∈ writeByte m a b) :
    p = (a, b) ∨ p ∈ m := by
  induction m with
  | nil => simpa [writeByte] using h
  | cons q m ih =>
    simp only [writeByte] at h
    split at h
    · simpa using h
    · split at h
      · rcases List.mem_cons.mp h with h | h
        · exact .inl h
        · exact .inr (List.mem_cons_of_mem _ h)
      · rcases List.mem_cons.mp h with h | h
        · exact .inr (h ▸ List.mem_cons_self)
        · rcases ih h with h | h
          · exact .inl h
          · exact .inr (List.mem_cons_of_mem _ h)

/-- Placing a byte keeps the canonical form. -/
theorem wf_writeByte (m : Memory) (a : Nat) (b : Byte) (h : m.wf) : (writeByte m a b).wf := by
  induction m with
  | nil => simp [writeByte, Memory.wf]
  | cons q m ih =>
    obtain ⟨k, v⟩ := q
    obtain ⟨hk, htail⟩ := List.pairwise_cons.mp h
    simp only [writeByte]
    split
    next hlt =>
      refine List.pairwise_cons.mpr ⟨fun p hp => ?_, h⟩
      rcases List.mem_cons.mp hp with rfl | hp
      · exact hlt
      · exact Nat.lt_trans hlt (hk p hp)
    · split
      next heq => subst heq; exact List.pairwise_cons.mpr ⟨hk, htail⟩
      next hnlt hne =>
        refine List.pairwise_cons.mpr ⟨fun p hp => ?_, ih htail⟩
        rcases mem_writeByte hp with rfl | hp
        · show k < a; omega
        · exact hk p hp

/-- Placing a run of bytes keeps the canonical form. -/
theorem wf_placeBytes (c : Config) (m : Memory) (a : Word) (bs : List Byte) (h : m.wf) :
    (placeBytes c m a bs).wf := by
  induction bs generalizing m a with
  | nil => exact h
  | cons b bs ih => exact ih _ _ (wf_writeByte _ _ _ h)

/-- Placing a word keeps the canonical form. -/
theorem wf_placeWord (c : Config) (m : Memory) (a : Word) (w : BitVec 32) (h : m.wf) : (placeWord c m a w).wf :=
  wf_placeBytes c m a _ h

/-- The text of the reset state has the canonical form. -/
theorem wf_reset : State.reset.text.wf := by simp [State.reset, Memory.wf]

/-- The address of byte `k`, as a number. -/
theorem byteAddr_eq (c : Config) (a : Word) (k : Nat) :
    byteAddr c a k = (a.toNat + k) % 2 ^ xlenBits c := by
  unfold byteAddr
  rcases xlenBits_cases c with h | h <;>
    simp only [zx_toNat, BitVec.toNat_add, BitVec.toNat_ofNat, h] <;> omega

/-- Four addresses in a row are four addresses. -/
theorem byteAddr_ne (c : Config) (a : Word) {i j : Nat} (hi : i < 4) (hj : j < 4) (h : i ≠ j) :
    byteAddr c a i ≠ byteAddr c a j := by
  rw [byteAddr_eq, byteAddr_eq]
  rcases xlenBits_cases c with hx | hx <;> rw [hx] <;> omega

/-- The addresses a placed word goes to. -/
theorem placeWord_eq (c : Config) (m : Memory) (a : Word) (w : BitVec 32) :
    placeWord c m a w =
      writeByte (writeByte (writeByte (writeByte m (byteAddr c a 0) (w.extractLsb' 0 8)) (byteAddr c a 1)
        (w.extractLsb' 8 8)) (byteAddr c a 2) (w.extractLsb' 16 8)) (byteAddr c a 3) (w.extractLsb' 24 8) := by
  have h : ∀ a k, byteAddr c (a + 1#64) k = byteAddr c a (k + 1) := by
    intro a k
    simp only [byteAddr_eq, BitVec.toNat_add, BitVec.toNat_ofNat]
    rcases xlenBits_cases c with hx | hx <;> rw [hx] <;> omega
  simp [placeWord, wordBytes, placeBytes, h]

/-- Reading any byte after a word is placed. -/
theorem readByte_placeWord (c : Config) (m : Memory) (a : Word) (w : BitVec 32) (h : m.wf) (x : Nat) :
    readByte (placeWord c m a w) x =
      if x = byteAddr c a 3 then some (w.extractLsb' 24 8)
      else if x = byteAddr c a 2 then some (w.extractLsb' 16 8)
      else if x = byteAddr c a 1 then some (w.extractLsb' 8 8)
      else if x = byteAddr c a 0 then some (w.extractLsb' 0 8)
      else readByte m x := by
  rw [placeWord_eq, readByte_writeByte _ _ _ (by repeat apply wf_writeByte
                                                 exact h),
    readByte_writeByte _ _ _ (by repeat apply wf_writeByte
                                 exact h),
    readByte_writeByte _ _ _ (by repeat apply wf_writeByte
                                 exact h), readByte_writeByte _ _ _ h]

/-- A placed word reads back. -/
theorem readWord_placeWord (c : Config) (m : Memory) (a : Word) (w : BitVec 32) (h : m.wf) :
    readWord c (placeWord c m a w) a = some w := by
  have n := fun {i j : Nat} hi hj hn => byteAddr_ne c a (i := i) (j := j) hi hj hn
  simp only [readWord, readByte_placeWord c m a w h]
  simp [n (i := 0) (j := 1) (by omega) (by omega) (by omega), n (i := 0) (j := 2) (by omega) (by omega) (by omega),
    n (i := 0) (j := 3) (by omega) (by omega) (by omega), n (i := 1) (j := 2) (by omega) (by omega) (by omega),
    n (i := 1) (j := 3) (by omega) (by omega) (by omega), n (i := 2) (j := 3) (by omega) (by omega) (by omega),
    wordOfBytes_wordBytes]

end Sys2Proof.Laws
end

