-- ==== Sys2Proof/Laws/Params.lean ====
section
/-! SUPPORT. What the constraints on the parameters give: VLEN, VLMAX, and the derived sizes. -/

namespace Sys2Proof.Laws

open Sys2Proof.Machine

/-! ### VLEN -/

/-- VLEN is a power of two from 8 to 65536. -/
theorem vlen_pow {c : Config} (h : configValid c = true) : ∃ k, 3 ≤ k ∧ k ≤ 16 ∧ c.vlen = 2 ^ k := by
  simp only [configValid, Bool.and_eq_true, List.any_eq_true, List.mem_range, decide_eq_true_eq, beq_iff_eq] at h
  obtain ⟨⟨⟨⟨⟨⟨⟨k, hk, hk3, hv⟩, -⟩, -⟩, -⟩, -⟩, -⟩, -⟩ := h
  exact ⟨k, hk3, by omega, hv⟩

theorem vlen_bounds {c : Config} (h : configValid c = true) : 8 ≤ c.vlen ∧ c.vlen ≤ 65536 := by
  obtain ⟨k, h3, h16, hv⟩ := vlen_pow h
  rw [hv]
  exact ⟨(Nat.pow_le_pow_right (by omega) h3 : 2 ^ 3 ≤ 2 ^ k), (Nat.pow_le_pow_right (by omega) h16 : 2 ^ k ≤ 2 ^ 16)⟩

/-- A supported configuration holds at least one element. -/
theorem one_le_vlmax {c : Config} (h : configValid c = true) {sew : Sew} {lmul : Lmul}
    (hs : supports c sew lmul = true) : 1 ≤ vlmaxOf c sew lmul := by
  simp only [configValid, Bool.and_eq_true] at h
  have h := h.2
  simp only [List.all_eq_true, decide_eq_true_eq] at h
  exact h (sew, lmul) (by simpa [supports] using hs)

/-- A supported element is no wider than ELEN, nor than a register. -/
theorem sewBits_le_vlen {c : Config} (h : configValid c = true) {sew : Sew} {lmul : Lmul}
    (hs : supports c sew lmul = true) : sewBits sew ≤ c.vlen := by
  simp only [configValid, Bool.and_eq_true] at h
  obtain ⟨⟨⟨⟨⟨⟨-, hE⟩, -⟩, hS⟩, -⟩, -⟩, -⟩ := h
  simp only [List.all_eq_true, decide_eq_true_eq] at hE hS
  exact Nat.le_trans (hS (sew, lmul) (by simpa [supports] using hs)) hE

/-! ### VLMAX -/

theorem sewBits_pow (sew : Sew) : ∃ k, 3 ≤ k ∧ k ≤ 6 ∧ sewBits sew = 2 ^ k := by
  cases sew
  · exact ⟨3, by decide⟩
  · exact ⟨4, by decide⟩
  · exact ⟨5, by decide⟩
  · exact ⟨6, by decide⟩

theorem lmulEighths_pow (lmul : Lmul) : ∃ k, k ≤ 6 ∧ lmulEighths lmul = 2 ^ k := by
  cases lmul
  · exact ⟨0, by decide⟩
  · exact ⟨1, by decide⟩
  · exact ⟨2, by decide⟩
  · exact ⟨3, by decide⟩
  · exact ⟨4, by decide⟩
  · exact ⟨5, by decide⟩
  · exact ⟨6, by decide⟩

/-- VLMAX is exact where it is at least 1: everything in the quotient is a power of two. -/
theorem vlmax_exact {c : Config} (h : configValid c = true) {sew : Sew} {lmul : Lmul}
    (h1 : 1 ≤ vlmaxOf c sew lmul) : vlmaxOf c sew lmul * (8 * sewBits sew) = lmulEighths lmul * c.vlen := by
  obtain ⟨k, -, -, hv⟩ := vlen_pow h
  obtain ⟨a, -, -, hs⟩ := sewBits_pow sew
  obtain ⟨b, -, hl⟩ := lmulEighths_pow lmul
  unfold vlmaxOf at *
  have h8 : 8 * sewBits sew = 2 ^ (a + 3) := by rw [hs, Nat.pow_add]; omega
  have hn : lmulEighths lmul * c.vlen = 2 ^ (b + k) := by rw [hl, hv, Nat.pow_add]
  rw [h8, hn] at h1 ⊢
  apply Nat.div_mul_cancel
  apply Nat.pow_dvd_pow
  by_contra hlt
  have : 2 ^ (b + k) < 2 ^ (a + 3) := Nat.pow_lt_pow_right (by omega) (by omega)
  rw [Nat.div_eq_of_lt this] at h1
  omega

/-- VLMAX is at most VLEN. -/
theorem vlmax_le_vlen (c : Config) (sew : Sew) (lmul : Lmul) : vlmaxOf c sew lmul ≤ c.vlen := by
  unfold vlmaxOf
  apply Nat.div_le_of_le_mul
  have hl : lmulEighths lmul ≤ 64 := by cases lmul <;> decide
  have hs : 8 ≤ sewBits sew := by cases sew <;> decide
  exact Nat.mul_le_mul (by omega) (Nat.le_refl _)

/-- A supported VLMAX is at most the largest. -/
theorem vlmax_le_max {c : Config} {sew : Sew} {lmul : Lmul} (hs : supports c sew lmul = true) :
    vlmaxOf c sew lmul ≤ vlmaxMax c := by
  unfold vlmaxMax
  have hm : (sew, lmul) ∈ c.supportedPairs := by simpa [supports] using hs
  generalize c.supportedPairs = l at hm
  induction l with
  | nil => cases hm
  | cons p l ih =>
    simp only [List.map_cons, List.foldr_cons]
    rcases List.mem_cons.mp hm with rfl | hm
    · exact Nat.le_max_left _ _
    · exact Nat.le_trans (ih hm) (Nat.le_max_right _ _)

/-- The largest VLMAX is at most VLEN. -/
theorem vlmaxMax_le (c : Config) : vlmaxMax c ≤ c.vlen := by
  unfold vlmaxMax
  generalize c.supportedPairs = l
  induction l with
  | nil => exact Nat.zero_le _
  | cons p l ih =>
    simp only [List.map_cons, List.foldr_cons]
    exact Nat.max_le.mpr ⟨vlmax_le_vlen _ _ _, ih⟩

/-! ### ceil(log2 n) -/

/-- 2^ceil(log2 n) is at least n. -/
theorem le_two_pow_ceilLog2 (n : Nat) : n ≤ 2 ^ ceilLog2 n := by
  unfold ceilLog2
  split
  · simpa using ‹n ≤ 1›
  · have := Nat.lt_log2_self (n := n - 1)
    omega

/-- ceil(log2 2^k) is k. -/
theorem ceilLog2_two_pow (k : Nat) : ceilLog2 (2 ^ k) = k := by
  unfold ceilLog2
  rcases k with _ | k
  · simp
  · have h2 : 2 ≤ 2 ^ (k + 1) := by rw [Nat.pow_succ]; have := Nat.two_pow_pos k; omega
    rw [if_neg (by omega)]
    have : Nat.log2 (2 ^ (k + 1) - 1) = k := by
      rw [Nat.log2_eq_iff (by omega)]
      rw [Nat.pow_succ] at *
      omega
    omega

/-- ceil(log2 n) is the least such exponent. -/
theorem ceilLog2_le {n k : Nat} (h : n ≤ 2 ^ k) : ceilLog2 n ≤ k := by
  unfold ceilLog2
  split
  · exact Nat.zero_le _
  · have : Nat.log2 (n - 1) < k := (Nat.log2_lt (by omega)).mpr (by omega)
    omega

end Sys2Proof.Laws
end

