-- ==== Sys2Proof/Laws/PerInstr.lean ====
section
/-! SUPPORT. Statements for all instructions, one lemma per constructor. -/

namespace Sys2Proof.Laws

/-- The row of the opcode map that an instruction belongs to (30_encoding.md R135). -/
def rowOf : Instr → OpcodeRow
  | .csrrw _ _ _ => rowCsrrw
  | .csrrs _ _ _ => rowCsrrs
  | .csrrc _ _ _ => rowCsrrc
  | .csrrwi _ _ _ => rowCsrrwi
  | .csrrsi _ _ _ => rowCsrrsi
  | .csrrci _ _ _ => rowCsrrci
  | .vsetvli _ _ _ => rowVsetvli
  | .vsetivli _ _ _ => rowVsetivli
  | .vsetvl _ _ _ => rowVsetvl

/-- The word of an instruction has the pattern of its row under the row's mask. -/
def EncodeMatchesRow.Statement (i : Instr) : Prop := encode i &&& (rowOf i).mask = (rowOf i).pattern

theorem EncodeMatchesRow.csrrw (rd : RegNo) (csr : Csr) (rs1 : RegNo) :
    EncodeMatchesRow.Statement (.csrrw rd csr rs1) :=
  (encodeCsr_and (csrAddr csr) rs1 0b001#3 rd).trans rfl

theorem EncodeMatchesRow.csrrs (rd : RegNo) (csr : Csr) (rs1 : RegNo) :
    EncodeMatchesRow.Statement (.csrrs rd csr rs1) :=
  (encodeCsr_and (csrAddr csr) rs1 0b010#3 rd).trans rfl

theorem EncodeMatchesRow.csrrc (rd : RegNo) (csr : Csr) (rs1 : RegNo) :
    EncodeMatchesRow.Statement (.csrrc rd csr rs1) :=
  (encodeCsr_and (csrAddr csr) rs1 0b011#3 rd).trans rfl

theorem EncodeMatchesRow.csrrwi (rd : RegNo) (csr : Csr) (uimm : BitVec 5) :
    EncodeMatchesRow.Statement (.csrrwi rd csr uimm) :=
  (encodeCsr_and (csrAddr csr) uimm 0b101#3 rd).trans rfl

theorem EncodeMatchesRow.csrrsi (rd : RegNo) (csr : Csr) (uimm : BitVec 5) :
    EncodeMatchesRow.Statement (.csrrsi rd csr uimm) :=
  (encodeCsr_and (csrAddr csr) uimm 0b110#3 rd).trans rfl

theorem EncodeMatchesRow.csrrci (rd : RegNo) (csr : Csr) (uimm : BitVec 5) :
    EncodeMatchesRow.Statement (.csrrci rd csr uimm) :=
  (encodeCsr_and (csrAddr csr) uimm 0b111#3 rd).trans rfl

theorem EncodeMatchesRow.vsetvli (rd rs1 : RegNo) (zimm : BitVec 11) :
    EncodeMatchesRow.Statement (.vsetvli rd rs1 zimm) :=
  encodeVsetvli_and zimm rs1 rd

theorem EncodeMatchesRow.vsetivli (rd : RegNo) (uimm : BitVec 5) (zimm : BitVec 10) :
    EncodeMatchesRow.Statement (.vsetivli rd uimm zimm) :=
  encodeVsetivli_and zimm uimm rd

theorem EncodeMatchesRow.vsetvl (rd rs1 rs2 : RegNo) : EncodeMatchesRow.Statement (.vsetvl rd rs1 rs2) :=
  encodeVsetvl_and rs2 rs1 rd

end Sys2Proof.Laws
end

