-- ==== Sys2Proof/Laws/Rounding.lean ====
section
/-! SUPPORT. The bits that rounding looks at, as digits of the number. -/

namespace Sys2Proof.Laws

open Sys2Proof.Machine

/-- The half bit: the part rounded off is at least one half. -/
theorem halfBit_eq {w : Nat} (v : BitVec w) {d : Nat} (hd : 1 ≤ d) :
    v.getLsbD (d - 1) = decide (2 ^ (d - 1) ≤ v.toNat % 2 ^ d) := by
  obtain ⟨e, rfl⟩ : ∃ e, d = e + 1 := ⟨d - 1, by omega⟩
  rw [Nat.add_sub_cancel, BitVec.getLsbD, Nat.testBit_eq_decide_div_mod_eq, decide_eq_decide, Nat.mod_pow_succ]
  have hp := Nat.two_pow_pos e
  have hr := Nat.mod_lt v.toNat hp
  have h2 := Nat.mod_two_eq_zero_or_one (v.toNat / 2 ^ e)
  rcases h2 with h | h <;> rw [h] <;> omega

/-- The bit of weight one after the shift. -/
theorem unitBit_eq {w : Nat} (v : BitVec w) (d : Nat) : v.getLsbD d = decide (v.toNat / 2 ^ d % 2 = 1) := by
  rw [BitVec.getLsbD, Nat.testBit_eq_decide_div_mod_eq]

/-- The bits below the half bit. -/
theorem lowBits_eq {w : Nat} (v : BitVec w) {d : Nat} (hd : 1 ≤ d) :
    lowBits v (d - 1) = v.toNat % 2 ^ d % 2 ^ (d - 1) := by
  unfold lowBits
  rw [Nat.mod_mod_of_dvd _ (Nat.pow_dvd_pow 2 (by omega))]

/-! The increment of each mode (43_fixed_point_rounding.md R262), in these digits. -/

theorem roundIncrement_rnu {w : Nat} (v : BitVec w) {d : Nat} (hd : 1 ≤ d) :
    roundIncrement v d 0#2 = decide (2 ^ (d - 1) ≤ v.toNat % 2 ^ d) := by
  rw [roundIncrement, if_neg (by omega), if_pos rfl, halfBit_eq v hd]

theorem roundIncrement_rne {w : Nat} (v : BitVec w) {d : Nat} (hd : 1 ≤ d) :
    roundIncrement v d 1#2 =
      (decide (2 ^ (d - 1) ≤ v.toNat % 2 ^ d) &&
        (decide (v.toNat % 2 ^ d % 2 ^ (d - 1) ≠ 0) || decide (v.toNat / 2 ^ d % 2 = 1))) := by
  rw [roundIncrement, if_neg (by omega), if_neg (by decide), if_pos rfl, halfBit_eq v hd, lowBits_eq v hd, unitBit_eq]

theorem roundIncrement_rdn {w : Nat} (v : BitVec w) (d : Nat) : roundIncrement v d 2#2 = false := by
  unfold roundIncrement
  split
  · rfl
  · rw [if_neg (by decide), if_neg (by decide), if_pos rfl]

theorem roundIncrement_rod {w : Nat} (v : BitVec w) {d : Nat} (hd : 1 ≤ d) :
    roundIncrement v d 3#2 = (!decide (v.toNat / 2 ^ d % 2 = 1) && decide (v.toNat % 2 ^ d ≠ 0)) := by
  rw [roundIncrement, if_neg (by omega), if_neg (by decide), if_neg (by decide), if_neg (by decide), unitBit_eq]
  rfl

/-- A signed value and its pattern have the same remainder, and quotients of the same parity, below the width. -/
theorem toInt_digits {w : Nat} (v : BitVec w) {d : Nat} (hd : d < w) :
    v.toInt % 2 ^ d = (v.toNat % 2 ^ d : Nat) ∧ v.toInt / 2 ^ d % 2 = (v.toNat / 2 ^ d % 2 : Nat) := by
  obtain ⟨k, rfl⟩ : ∃ k, w = d + 1 + k := ⟨w - d - 1, by omega⟩
  have hw : (2 : Int) ^ (d + 1 + k) = 2 ^ d * (2 * 2 ^ k) := by rw [Int.pow_add, Int.pow_succ]; ring
  have hp : (0 : Int) < 2 ^ d := by positivity
  have key : ∃ b : Int, v.toInt = (v.toNat : Int) + 2 ^ d * (2 * 2 ^ k * b) := by
    rw [BitVec.toInt_eq_toNat_cond]
    split
    · exact ⟨0, by simp⟩
    · refine ⟨-1, ?_⟩
      push_cast
      rw [hw]; ring
  obtain ⟨b, hb⟩ := key
  rw [hb]
  constructor
  · rw [Int.add_mul_emod_self_left]; push_cast; rfl
  · rw [Int.add_mul_ediv_left _ _ (ne_of_gt hp), Int.mul_assoc 2, Int.add_mul_emod_self_left]; push_cast; rfl

end Sys2Proof.Laws
end

