-- ==== Sys2Proof/Laws/Step.lean ====
section
/-! SUPPORT. What one step can do, and how a property of steps becomes one of runs. -/

namespace Sys2Proof.Laws

open Sys2Proof.Machine

theorem step_of_trap {s : State} {t : Trap} (h : s.trap = some t) : step s = .next (spontaneousDirty (takeTrap t s)) := by
  simp [step, h, betweenInstructions]

theorem step_of_decoded {s : State} {w : BitVec 32} {i : Instr} (ht : s.trap = none) (hf : fetch s = .word w)
    (hd : decode w = .ok i) : step s = betweenInstructions (exec i s) := by
  simp only [step, ht, hf, hd]

theorem step_of_undecoded {s : State} {w : BitVec 32} {e : DecodeError} (ht : s.trap = none) (hf : fetch s = .word w)
    (hd : decode w = .error e) : step s = betweenInstructions (undecoded e w s) := by
  simp only [step, ht, hf, hd]

theorem step_of_noText {s : State} (ht : s.trap = none) (hf : fetch s = .noText) :
    step s = .fault (.noProgramText (readPc s)) := by
  simp only [step, ht, hf, betweenInstructions]

theorem betweenInstructions_next {o : Host.Outcome State Fault Refusal} {t : State}
    (h : betweenInstructions o = .next t) : ∃ u, o = .next u ∧ t = spontaneousDirty u := by
  cases o with
  | next u => exact ⟨u, rfl, (Host.Outcome.next.inj h).symm⟩
  | fault r => cases h
  | refused r => cases h

theorem undecoded_next {e : DecodeError} {w : BitVec 32} {s t : State} (h : undecoded e w s = .next t) :
    t = trapped s := by
  cases e with
  | reservedConfig => exact reservedUse_next h
  | vectorOutOfScope =>
    rcases frameChecks_cases h with h | ⟨-, h⟩
    · exact h
    · cases h
  | truncated | notFullWord | baseInstruction => cases h

/-- Everything a step can do when it answers a next state. -/
theorem step_cases {s t : State} (h : step s = .next t) :
    ∃ u, t = spontaneousDirty u ∧
      ((∃ tr, s.trap = some tr ∧ u = takeTrap tr s) ∨
        (s.trap = none ∧ u = trapped s) ∨
        (s.trap = none ∧ ∃ w i, fetch s = .word w ∧ decode w = .ok i ∧ exec i s = .next u)) := by
  cases ht : s.trap with
  | some tr =>
    rw [step_of_trap ht] at h
    exact ⟨_, (Host.Outcome.next.inj h).symm, .inl ⟨tr, rfl, rfl⟩⟩
  | none =>
    cases hf : fetch s with
    | misaligned => simp only [step, ht, hf, betweenInstructions] at h; cases h
    | noText => rw [step_of_noText ht hf] at h; cases h
    | word w =>
      cases hd : decode w with
      | ok i =>
        rw [step_of_decoded ht hf hd] at h
        obtain ⟨u, hu, rfl⟩ := betweenInstructions_next h
        exact ⟨u, rfl, .inr (.inr ⟨rfl, w, i, rfl, hd, hu⟩)⟩
      | error e =>
        rw [step_of_undecoded ht hf hd] at h
        obtain ⟨u, hu, rfl⟩ := betweenInstructions_next h
        exact ⟨u, rfl, .inr (.inl ⟨rfl, undecoded_next hu⟩)⟩

/-- What every step does not touch. -/
theorem exec_fixed {i : Instr} {s t : State} (h : exec i s = .next t) :
    t.cfg = s.cfg ∧ t.vreg = s.vreg ∧ t.text = s.text ∧ t.mstatusOther = s.mstatusOther ∧ t.misaOther = s.misaOther := by
  rcases exec_cases h with rfl | ⟨csr, rd, rfl, -⟩ | ⟨csr, rd, w, rfl, -⟩ | ⟨rd, rfl, -⟩ | ⟨f, vl, rd, rfl, -⟩ <;>
    exact ⟨rfl, rfl, rfl, rfl, rfl⟩

theorem step_fixed {s t : State} (h : step s = .next t) : t.cfg = s.cfg ∧ t.vreg = s.vreg ∧ t.text = s.text := by
  obtain ⟨u, rfl, ⟨tr, -, rfl⟩ | ⟨-, rfl⟩ | ⟨-, w, i, -, -, hu⟩⟩ := step_cases h
  · exact ⟨rfl, rfl, rfl⟩
  · exact ⟨rfl, rfl, rfl⟩
  · exact ⟨(exec_fixed hu).1, (exec_fixed hu).2.1, (exec_fixed hu).2.2.1⟩

/-- A relation that holds of a state and itself, and that a step extends, holds along every run. -/
theorem run_induction {R : State → State → Prop} (refl : ∀ s, R s s)
    (extend : ∀ s t u, step s = .next t → R t u → R s u) :
    ∀ (n : Nat) (s t : State), Sys2Proof.core.run n s = .next t → R s t := by
  intro n
  induction n with
  | zero => intro s t h; cases h; exact refl s
  | succ n ih =>
    intro s t h
    simp only [Host.Core.run] at h
    split at h
    next u hu => exact extend s u t hu (ih u t h)
    · cases h
    · cases h

end Sys2Proof.Laws
end

