-- ==== Sys2Proof/Tests/Slice0.lean ====
section
/-! SUPPORT. Tests: ill-formed instructions, one word per instruction, worked vectors of 95_test_vectors.md (the id
stands in the docstring), and for every obligation that has hypotheses a theorem that they can all be met.

A next state's `VS` is tested only where the vector state changed: elsewhere it is a draw. -/

-- One theorem after another: evaluated side by side, the tests hold a thread's stack each.
set_option Elab.async false

open Sys2Proof Sys2Proof.Machine

namespace Sys2Proof.Tests

/-- The outcome is a next state with the property. -/
def nextHas (o : Host.Outcome State Fault Refusal) (p : State → Bool) : Bool :=
  match o with
  | .next t => p t
  | .fault _ | .refused _ => false

theorem next_of_nextHas {o : Host.Outcome State Fault Refusal} {p : State → Bool} (h : nextHas o p = true) :
    ∃ t, o = .next t ∧ p t = true := by
  cases o with
  | next t => exact ⟨t, rfl, h⟩
  | fault r => cases h
  | refused r => cases h

/-- The outcome Trap(illegal-instruction, state), nothing else changed. -/
def trapsHere (s : State) (o : Host.Outcome State Fault Refusal) : Bool :=
  nextHas o fun t => t == { s with trap := some ⟨.illegalInstruction, readPc s⟩ }

def refusedWith (r : Refusal) (o : Host.Outcome State Fault Refusal) : Bool :=
  match o with
  | .refused r' => r == r'
  | .next _ | .fault _ => false

/-! ### States -/

/-- The fields of 0xD2: e32, m4, ta, ma. -/
def d2 : VFields := ⟨true, true, .e32, .m4⟩

/-- The default start state of family 1: `VS` = Clean, `vtype` = 0xD2, `vl` = 16, on IMPL-A. -/
def family1 : State := { State.reset with vs := .clean, vtype := .legal d2, vl := 16 }

/-- A state of IMPL-A that is not the reset state in any register: x1 is all ones, v1 is all ones, a word at `pc`. -/
def busy : State :=
  ({ setX family1 1#5 (BitVec.allOnes 64) with
      pc := 0x1000#64, vreg := (Vector.replicate 32 0).set 1 (2 ^ 128 - 1), vstart := 127, vxrm := 3#2, vxsat := true,
      mstatusOther := 0x80#64, misaOther := 0x100#64 }).withFetchWord 32 0x0D2572D7

/-- A state of IMPL-B, `vill` set. -/
def small : State := { State.reset with cfg := implB }

/-- The other choices of an implementation: reserved uses trap, compressed instructions. -/
def trapping : State := { family1 with cfg := { implA with reservedTraps := true, compressed := true } }

/-! ### Well-formedness: the one check of `Instr.wellFormed`, for each instruction that it concerns -/

theorem test_illFormed_csrrw : (Instr.csrrw 5#5 (.base 0x300#12) 6#5).wellFormed = false := by decide
theorem test_illFormed_csrrs : (Instr.csrrs 5#5 (.base 0xC00#12) 6#5).wellFormed = false := by decide
theorem test_illFormed_csrrc : (Instr.csrrc 5#5 (.base 0x00B#12) 6#5).wellFormed = false := by decide
theorem test_illFormed_csrrwi : (Instr.csrrwi 5#5 (.base 0xC23#12) 6#5).wellFormed = false := by decide
theorem test_illFormed_csrrsi : (Instr.csrrsi 5#5 (.base 0x007#12) 6#5).wellFormed = false := by decide
theorem test_illFormed_csrrci : (Instr.csrrci 5#5 (.base 0x100#12) 6#5).wellFormed = false := by decide

/-! ### Decoding: words written bit by bit from 30_encoding.md sections 2 and 3 -/

/-- csr = 0x008, rs1 = a0, funct3 = 001, rd = t0 -/
theorem test_decode_csrrw : decodeTableWord 32 0b000000001000_01010_001_00101_1110011 =
    some (.csrrw 5#5 .vstart 10#5) := by decide
/-- csr = 0xC20, rs1 = x0, funct3 = 010, rd = t1 -/
theorem test_decode_csrrs : decodeTableWord 32 0b110000100000_00000_010_00110_1110011 =
    some (.csrrs 6#5 .vl 0#5) := by decide
/-- csr = 0x00F, rs1 = t0, funct3 = 011, rd = x0 -/
theorem test_decode_csrrc : decodeTableWord 32 0b000000001111_00101_011_00000_1110011 =
    some (.csrrc 0#5 .vcsr 5#5) := by decide
/-- csr = 0x00A, uimm = 2, funct3 = 101, rd = t0 -/
theorem test_decode_csrrwi : decodeTableWord 32 0b000000001010_00010_101_00101_1110011 =
    some (.csrrwi 5#5 .vxrm 2#5) := by decide
/-- csr = 0x009, uimm = 1, funct3 = 110, rd = x0 -/
theorem test_decode_csrrsi : decodeTableWord 32 0b000000001001_00001_110_00000_1110011 =
    some (.csrrsi 0#5 .vxsat 1#5) := by decide
/-- csr = 0xC22, uimm = 1, funct3 = 111, rd = t0 -/
theorem test_decode_csrrci : decodeTableWord 32 0b110000100010_00001_111_00101_1110011 =
    some (.csrrci 5#5 .vlenb 1#5) := by decide
/-- bit 31 = 0, zimm = 0x0D2, rs1 = a0, funct3 = 111, rd = t0 -/
theorem test_decode_vsetvli : decodeTableWord 32 0b0_00011010010_01010_111_00101_1010111 =
    some (.vsetvli 5#5 10#5 0x0D2#11) := by decide
/-- bits 31:30 = 11, zimm = 0x0C9, uimm = 10, funct3 = 111, rd = t0 -/
theorem test_decode_vsetivli : decodeTableWord 32 0b11_0011001001_01010_111_00101_1010111 =
    some (.vsetivli 5#5 10#5 0x0C9#10) := by decide
/-- bits 31:25 = 1000000, rs2 = a1, rs1 = a0, funct3 = 111, rd = t0 -/
theorem test_decode_vsetvl : decodeTableWord 32 0b1000000_01011_01010_111_00101_1010111 =
    some (.vsetvl 5#5 10#5 11#5) := by decide
/-- csr = 0xC21, `vtype`; the same bits encode back -/
theorem test_encode_vtype : encode (.csrrs 5#5 .vtype 0#5) = 0b110000100001_00000_010_00101_1110011#32 := by decide

/-- The four immediates of example S4. -/
theorem test_vtypei_flags : vtypei .e32 .m4 (some true) (some true) = 0xD2#8 ∧
    vtypei .e32 .m4 (some false) (some true) = 0x92#8 ∧ vtypei .e32 .m4 (some true) = 0x52#8 ∧
    vtypei .e32 .m4 = 0x12#8 := by decide

/-! ### Parameters -/

/-- The table of the two reference implementations. -/
theorem test_implA : configValid implA = true ∧ sewLmul1Min implA = 8 ∧ sewLmul1Max implA = 64 ∧
    vlmaxMax implA = 128 ∧ vstartBits implA = 7 ∧ vlBits implA = 8 := by decide
theorem test_implB : configValid implB = true ∧ sewLmul1Min implB = 8 ∧ sewLmul1Max implB = 32 ∧
    vlmaxMax implB = 32 ∧ vstartBits implB = 5 ∧ vlBits implB = 6 ∧ belowLmulBound implB .mf8 = true ∧
    belowLmulBound implB .mf4 = false := by decide

/-! ### CSR access -/

/-- C2: only seven bits of `vstart` are writable. -/
theorem test_csrrw_vstart : nextHas (exec (.csrrw 5#5 .vstart 10#5) (setX family1 10#5 0x1FF#64)) (fun t =>
    t.vstart == 0x7F && readX t 5#5 == 0#64 && t.vs == .dirty && readPc t == 4#64) = true := by decide
/-- C6: a write to `vl` traps. -/
theorem test_csrrw_vl : trapsHere (setX family1 5#5 4#64) (exec (.csrrw 0#5 .vl 5#5) (setX family1 5#5 4#64)) = true := by
  decide
/-- C17: set bits, then drop what does not fit. -/
theorem test_csrrs_vstart : nextHas (exec (.csrrs 5#5 .vstart 10#5) { setX family1 10#5 0x84#64 with vstart := 3 })
    (fun t => t.vstart == 7 && readX t 5#5 == 3#64 && t.vs == .dirty) = true := by decide
/-- C11: the test of `rs1` is on the register number. -/
theorem test_csrrs_vtype : trapsHere family1 (exec (.csrrs 5#5 .vtype 6#5) family1) = true := by decide
/-- C18: clear bits. -/
theorem test_csrrc_vxrm : nextHas (exec (.csrrc 5#5 .vxrm 10#5) { setX family1 10#5 1#64 with vxrm := 3#2 })
    (fun t => t.vxrm == 2#2 && readX t 5#5 == 3#64 && t.vs == .dirty) = true := by decide
/-- C20: as C11, for `csrrc`. -/
theorem test_csrrc_vlenb : trapsHere family1 (exec (.csrrc 5#5 .vlenb 10#5) family1) = true := by decide
/-- C22: the low two bits of 7. -/
theorem test_csrrwi_vxrm : nextHas (exec (.csrrwi 5#5 .vxrm 7#5) family1)
    (fun t => t.vxrm == 3#2 && readX t 5#5 == 0#64 && t.vs == .dirty) = true := by decide
/-- C24: an index beyond VLMAX - 1 can be written. -/
theorem test_csrrwi_vstart : nextHas (exec (.csrrwi 0#5 .vstart 31#5) family1)
    (fun t => t.vstart == 31 && t.x == family1.x && t.vs == .dirty) = true := by decide
/-- C29: bits 2:1 of `vcsr` are `vxrm`. -/
theorem test_csrrsi_vcsr : nextHas (exec (.csrrsi 5#5 .vcsr 6#5) { family1 with vxsat := true })
    (fun t => t.vxrm == 3#2 && t.vxsat && readX t 5#5 == 1#64 && csrRead t .vcsr == 7#64) = true := by decide
/-- C27: `uimm` = 0 does not write, so `vl` can be read. -/
theorem test_csrrsi_vl : nextHas (exec (.csrrsi 5#5 .vl 0#5) family1)
    (fun t => readX t 5#5 == 16#64 && t.vs == .clean) = true := by decide
/-- C30: bit 0 of `vcsr` is `vxsat`. -/
theorem test_csrrci_vcsr : nextHas (exec (.csrrci 5#5 .vcsr 1#5) { family1 with vxrm := 3#2, vxsat := true })
    (fun t => t.vxrm == 3#2 && !t.vxsat && readX t 5#5 == 7#64 && t.vs == .dirty) = true := by decide
/-- C33: only the low five bits can be cleared. -/
theorem test_csrrci_vstart : nextHas (exec (.csrrci 5#5 .vstart 31#5) { family1 with vstart := 0x55 })
    (fun t => t.vstart == 0x40 && readX t 5#5 == 0x55#64 && t.vs == .dirty) = true := by decide

/-! ### Configuration -/

/-- V10: AVL is unsigned. -/
theorem test_vsetvli_avl : nextHas (exec (.vsetvli 5#5 10#5 0x0D2#11) (setX State.reset 10#5 (BitVec.allOnes 64)))
    (fun t => t.vl == 16 && readX t 5#5 == 16#64 && csrRead t .vtype == 0xD2#64 && t.vs == .dirty) = true := by decide
/-- B6: 16 > (1/4)*32 is not supported; bit XLEN-1 of `vtype` is bit 31. -/
theorem test_vsetvli_unsupported : nextHas (exec (.vsetvli 6#5 0#5 0x0CE#11) small)
    (fun t => t.vl == 0 && readX t 6#5 == 0#64 && csrRead t .vtype == 0x80000000#64) = true := by decide
/-- V34: `uimm` = 0 is a length, not a mode. -/
theorem test_vsetivli_zero : nextHas (exec (.vsetivli 5#5 0#5 0x0C9#10) family1)
    (fun t => t.vl == 0 && csrRead t .vtype == 0xC9#64 && t.vs == .dirty) = true := by decide
/-- V37: VLMAX = 32 at e32, m8. -/
theorem test_vsetivli_long : nextHas (exec (.vsetivli 5#5 31#5 0x0D3#10) family1)
    (fun t => t.vl == 31 && readX t 5#5 == 31#64 && csrRead t .vtype == 0xD3#64) = true := by decide
/-- V48: both sources are read before `rd` is written. -/
theorem test_vsetvl_aliased : nextHas (exec (.vsetvl 5#5 5#5 5#5) (setX family1 5#5 9#64))
    (fun t => t.vl == 9 && readX t 5#5 == 9#64 && csrRead t .vtype == 0x09#64) = true := by decide
/-- V44: with bit XLEN-1 set the low bits are not kept. -/
theorem test_vsetvl_vill : nextHas (exec (.vsetvl 5#5 10#5 11#5) (setX (setX family1 10#5 10#64) 11#5 0x80000000000000C9#64))
    (fun t => t.vl == 0 && csrRead t .vtype == 0x8000000000000000#64 && t.vs == .dirty) = true := by decide

/-- V31: the Keep form with another VLMAX. -/
theorem test_keep_refused : refusedWith .reservedKeepForm (exec (.vsetvli 0#5 0#5 0x0C8#11) family1) = true := by decide

/-! ### The first step after reset -/

/-- V9 as a step: the word placed at `pc` is fetched and run. -/
theorem test_step_vsetivli : nextHas (step (State.reset.withFetchWord 32 0xCC9572D7))
    (fun t => t.vl == 10 && readX t 5#5 == 10#64 && readPc t == 4#64 && t.vs == .dirty) = true := by decide
/-- Z3 as a step. -/
theorem test_step_csrrs : nextHas (step (State.reset.withFetchWord 32 0xC22022F3))
    (fun t => readX t 5#5 == 16#64 && readPc t == 4#64 && t.trap == none) = true := by decide

/-! ### Rounding (rows of 43_fixed_point_rounding.md R264) -/

/-- 10/4 and 14/4, the two ties. -/
theorem test_roundoff_unsigned : [0#2, 1#2, 2#2, 3#2].map (roundoffUnsigned 10#8 2) = [3, 2, 2, 3] ∧
    [0#2, 1#2, 2#2, 3#2].map (roundoffUnsigned 14#8 2) = [4, 4, 3, 3] := by decide
/-- -5/2 and -7/4. -/
theorem test_roundoff_signed : [0#2, 1#2, 2#2, 3#2].map (roundoffSigned (-5#8) 1) = [-2, -2, -3, -3] ∧
    [0#2, 1#2, 2#2, 3#2].map (roundoffSigned (-7#8) 2) = [-2, -2, -2, -1] := by decide

/-! ### The frame (family 4): e32, m1 on IMPL-A, old elements [A, B, C, D] = [10, 11, 12, 13], results 100 + x -/

def old32 : Nat := 10 + 11 * 2 ^ 32 + 12 * 2 ^ 64 + 13 * 2 ^ 96

/-- v2 is the destination, v0 the mask with bits 1 0 1 1. -/
def frameState (vstart vl : Nat) (vta vma : Bool) : State :=
  { State.reset with
    vs := .clean, vtype := .legal ⟨vma, vta, .e32, .m1⟩, vl := vl, vstart := vstart
    vreg := ((Vector.replicate 32 0).set 0 13).set 2 old32 }

/-- A generic element-wise fixed-point instruction with destination v2 and source v4. -/
def vop (masked : Bool) : VInstr where
  word := 0x02000157#32
  cls := .fixedPoint
  requiresVstartZero := false
  masked := masked
  sources := [.group 4#5]
  dest := .group 2#5 (fun x => .value (100 + x))
  saturates := fun x => x == 1

/-- A mask-producing instruction with destination v2: results 1, full-length results 0. -/
def vmop : VInstr := { vop false with cls := .maskProducing, dest := .mask 2#5 (fun _ => true) (fun _ => false) }

/-- A whole-register move of two registers to v2, of elements 64 bits wide. -/
def vmove : VInstr := { vop false with cls := .wholeRegister 2 64 }

def elements (s : State) : List Nat := (List.range 4).map fun x => (elem s 2 x 32).toNat

/-- F3: masked, undisturbed. -/
theorem test_frame_masked : nextHas (vectorInstruction (vop true) none (frameState 0 3 false false))
    (fun t => elements t == [100, 11, 102, 13] && t.vstart == 0 && !t.vxsat && t.vs == .dirty) = true := by decide +kernel
/-- F9: prestart elements are kept. -/
theorem test_frame_prestart : nextHas (vectorInstruction (vop false) none (frameState 3 4 false false))
    (fun t => elements t == [10, 11, 12, 103] && t.vstart == 0) = true := by decide +kernel
/-- F11 and F12: a trap at element 2, and the instruction again. -/
theorem test_frame_trap : nextHas (vectorInstruction (vop false) (some ⟨2, 7, true⟩) (frameState 0 4 false false))
    (fun t => elements t == [100, 101, 12, 13] && t.vstart == 2 && t.vxsat && t.trap == some ⟨.interrupt 7, 0#64⟩ &&
      nextHas (vectorInstruction (vop false) none (resumeAt 0#64 t))
        (fun u => elements u == [100, 101, 102, 103] && u.vstart == 0)) = true := by decide +kernel
/-- F10: `vstart` out of bounds. -/
theorem test_frame_outOfBounds :
    refusedWith .reservedVstart (vectorInstruction (vop false) none (frameState 4 4 false false)) = true := by decide +kernel
/-- F16: bits 0 and 1 of a mask destination are results. -/
theorem test_frame_mask : [0, 1].map (fun x =>
    maskDestBit vmop (frameState 0 2 false false) ⟨32, 1, 4, false, false⟩ none (fun _ => false) x false true) =
    [true, true] := by decide +kernel

/-- An instruction that rounds two bits off base + x and fits the rounded value to 8 bits of at most 3. -/
def vround (base : Nat) : VInstr where
  word := 0x02000157#32
  cls := .fixedPoint
  requiresVstartZero := false
  masked := false
  sources := [.group 4#5]
  dest := .group 2#5 fun x =>
    .rounded ⟨8, BitVec.ofNat 8 (base + x), 2, false⟩ (fun n => min n.toNat 3) (fun n => decide (3 < n))
  saturates := fun _ => false

/-- 43_fixed_point_rounding.md R264, rows 10, 11 and 14: the modes rnu and rdn, with and without saturation. -/
theorem test_frame_rounding :
    nextHas (vectorInstruction (vround 10) none { frameState 0 2 false false with vxrm := 0#2 })
      (fun t => elements t == [3, 3, 12, 13] && !t.vxsat) = true ∧
    nextHas (vectorInstruction (vround 10) none { frameState 0 2 false false with vxrm := 2#2 })
      (fun t => elements t == [2, 2, 12, 13] && !t.vxsat) = true ∧
    nextHas (vectorInstruction (vround 14) none { frameState 0 1 false false with vxrm := 0#2 })
      (fun t => elements t == [3, 11, 12, 13] && t.vxsat) = true := by decide +kernel

/-- X6: a whole-register move with `vill` set completes, whatever LMUL was; v2 is a multiple of its two registers. -/
theorem test_frame_wholeRegister : nextHas (vectorInstruction vmove none State.reset)
    (fun t => t.trap == none && t.vstart == 0 && readPc t == 4#64) = true := by decide +kernel
/-- An exception cannot be taken at an element that is masked off; an interrupt can. -/
theorem test_frame_exception :
    canStopAt (vop true) ⟨1, 7, false⟩ (frameState 0 3 false false) = false ∧
    canStopAt (vop true) ⟨1, 7, true⟩ (frameState 0 3 false false) = true ∧
    canStopAt (vop true) ⟨2, 7, false⟩ (frameState 0 3 false false) = true := by decide +kernel
/-- A masked instruction that overwrites v0 cannot be stopped once it has overwritten a mask bit it still needs. -/
theorem test_frame_maskLost :
    canStopAt { vop true with dest := .group 0#5 (fun _ => .value 0) } ⟨1, 7, true⟩ (frameState 0 4 false false) = false ∧
    canStopAt { vop true with dest := .group 0#5 (fun _ => .value 0) } ⟨0, 7, true⟩ (frameState 0 4 false false) = true := by
  decide +kernel

/-- A word of the vector arithmetic instructions with `VS` = Off, and with `vill` set, raises illegal-instruction. -/
theorem test_step_vectorWord :
    nextHas (step ({ family1 with vs := .off }.withFetchWord 32 0x02000157))
      (fun t => t.trap == some ⟨.illegalInstruction, 0#64⟩ && t.vs == .off) = true ∧
    nextHas (step (State.reset.withFetchWord 32 0x02000157))
      (fun t => t.trap == some ⟨.illegalInstruction, 0#64⟩ && t.vstart == 0) = true ∧
    refusedWith (.vectorOutOfScope 0x02000157#32) (step (family1.withFetchWord 32 0x02000157)) = true := by decide +kernel

/-! ### The hypotheses of the obligations can be met: `witness_<obligation>`

Clause by clause, at boundary values. -/

/-- Instructions run to the end of the address space and wrap there: `pc` = 2^64 - 2, with compressed instructions. -/
def atTheTop : State := { trapping with pc := 0xFFFFFFFFFFFFFFFE#64 }.withFetchWord 32 0x0D2572D7

def off : State := { family1 with vs := .off }

def allFields : List VFields :=
  [true, false].flatMap fun vma => [true, false].flatMap fun vta =>
    allSew.flatMap fun sew => allLmul.map fun lmul => ⟨vma, vta, sew, lmul⟩

theorem mem_allFields (f : VFields) : f ∈ allFields := by
  obtain ⟨vma, vta, sew, lmul⟩ := f
  cases vma <;> cases vta <;> cases sew <;> cases lmul <;> decide

theorem unsupported_of_all {c : Config} {n : Nat}
    (h : (allFields.all fun f => n != fieldsNumber f || !supports c f.vsew f.vlmul) = true) (f : VFields)
    (hn : n = fieldsNumber f) : supports c f.vsew f.vlmul = false := by
  have := List.all_eq_true.mp h f (mem_allFields f)
  simpa [hn] using this

theorem busy_invariant : Invariant busy where
  cfgValid := by decide
  configConsistent := ⟨by decide, by decide⟩
  vstartFits := by decide
  vregFits := by decide +kernel
  xFits := by decide +kernel
  pcFits := by decide
  mstatusFits := by decide
  misaFits := by decide
  textWf := by decide +kernel
  textInSpace := by decide +kernel

theorem small_invariant : Invariant { small with pc := 0xFFFFFFFC#64, vstart := 31 } where
  cfgValid := by decide
  configConsistent := rfl
  vstartFits := by decide
  vregFits := by decide +kernel
  xFits := by decide +kernel
  pcFits := by decide
  mstatusFits := by decide
  misaFits := by decide
  textWf := by decide
  textInSpace := by decide

theorem witness_EncodeThenDecodeIsIdentity : (Instr.csrrci 31#5 .vlenb 31#5).wellFormed = true ∧
    (Instr.vsetvli 31#5 31#5 0x7FF#11).wellFormed = true := by decide

theorem witness_DecodedWordIsItsEncoding : decode 0xFFFFFFD7#32 = .ok (.vsetivli 31#5 31#5 0x3FF#10) := by decide

theorem witness_DecodeFollowsOpcodeMap : rowVsetvl ∈ opcodeMap ∧ 0x81FFFFD7#32 &&& rowVsetvl.mask = rowVsetvl.pattern := by
  decide

theorem witness_ConfigPatternsAreToldApart :
    ([0x7FFFFFD7#32, 0xC0007057#32, 0x81FFFFD7#32, 0x82007057#32, 0xBFFFFFD7#32].all fun w =>
      w.extractLsb' 0 7 == 0b1010111#7 && w.extractLsb' 12 3 == 0b111#3) = true ∧
    (0x7FFFFFD7#32).extractLsb' 31 1 = 0b0#1 ∧ (0xC0007057#32).extractLsb' 30 2 = 0b11#2 ∧
    (0x81FFFFD7#32).extractLsb' 25 7 = 0b1000000#7 ∧
    ([0x82007057#32, 0xBFFFFFD7#32].all fun w => w.extractLsb' 30 2 == 0b10#2 && w.extractLsb' 25 5 != 0#5) = true ∧
    ([0x00000057#32, 0xFFFFEFD7#32].all fun w => w.extractLsb' 0 7 == 0b1010111#7 && w.extractLsb' 12 3 != 0b111#3) =
      true := by decide

theorem witness_ConfigPatternsAreToldApart_decoded : decode 0x7FFFFFD7#32 = .ok (.vsetvli 31#5 31#5 0x7FF#11) ∧
    isConfig (.vsetvli 31#5 31#5 0x7FF#11) = true := by decide

theorem witness_StepRunsTheDecodedInstruction :
    (∀ s ∈ [busy, atTheTop], s.trap = none ∧ (readPc s).toNat % (if s.cfg.compressed then 2 else 4) = 0 ∧
      readByte s.text ((readPc s).toNat % 2 ^ xlenBits s.cfg) = some 0xD7#8 ∧
      readByte s.text (((readPc s).toNat + 1) % 2 ^ xlenBits s.cfg) = some 0x72#8 ∧
      readByte s.text (((readPc s).toNat + 2) % 2 ^ xlenBits s.cfg) = some 0x25#8 ∧
      readByte s.text (((readPc s).toNat + 3) % 2 ^ xlenBits s.cfg) = some 0x0D#8) ∧
    decode (0x0D#8 ++ 0x25#8 ++ 0x72#8 ++ 0xD7#8 : BitVec (8 + 8 + 8 + 8)) = .ok (.vsetvli 5#5 10#5 0x0D2#11) := by
  decide +kernel

theorem witness_PlacedWordIsFetched : ∀ s ∈ [busy, atTheTop],
    0xFFFFFFFF < 2 ^ 32 ∧ s.text.wf ∧ (readPc s).toNat % fetchAlignment s.cfg = 0 := by decide +kernel

theorem witness_PendingTrapGoesToBase :
    ({ family1 with trap := some ⟨.illegalInstruction, 0#64⟩ } : State).trap = some ⟨.illegalInstruction, 0#64⟩ := by
  decide

theorem witness_UndecodedWordsStopByName :
    State.reset.trap = none ∧ fetch State.reset = .noText ∧
    ((readPc { family1 with pc := 2#64 }).toNat % (if implA.compressed then 2 else 4) ≠ 0) ∧
    ((readPc { trapping with pc := 1#64 }).toNat % (if trapping.cfg.compressed then 2 else 4) ≠ 0) ∧
    (∀ w ∈ [0x82007057, 0xBE007057, 0x00000057, 0x00000073, 0x00000000],
      fetch (family1.withFetchWord 32 w) = .word (BitVec.ofNat 32 w) ∧
      fetch (trapping.withFetchWord 32 w) = .word (BitVec.ofNat 32 w)) ∧
    decode 0x82007057#32 = .error .reservedConfig ∧ decode 0xBE007057#32 = .error .reservedConfig ∧
    family1.cfg.reservedTraps = false ∧ trapping.cfg.reservedTraps = true ∧
    decode 0x00000057#32 = .error .vectorOutOfScope ∧ decode 0x00000073#32 = .error .baseInstruction ∧
    decode 0#32 = .error .notFullWord := by decide +kernel

/-- The vector word of the clauses: with `VS` = Off, with `vill` set, and with every check passed at VLMAX = 1. -/
theorem witness_UndecodedWordsStopByName_vector :
    off.vs = .off ∧ State.reset.vtype = .illegal ∧
    (∀ s ∈ [({ small with vtype := .legal ⟨true, true, .e32, .m1⟩ } : State).withFetchWord 32 0xFFFFEFD7],
      s.trap = none ∧ fetch s = .word 0xFFFFEFD7#32 ∧ s.vs ≠ .off ∧
      s.vtype = .legal ⟨true, true, .e32, .m1⟩ ∧ s.vstart = 0 ∧ vlmaxOf s.cfg .e32 .m1 = 1 ∧
      belowLmulBound s.cfg .m1 = false) ∧
    decode 0xFFFFEFD7#32 = .error .vectorOutOfScope := by decide +kernel

theorem witness_VectorWordsMeetTheFrameChecks :
    (family1.withFetchWord 32 0x02000157).trap = none ∧
    fetch (family1.withFetchWord 32 0x02000157) = .word 0x02000157#32 ∧
    decode 0x02000157#32 = .error .vectorOutOfScope ∧ (vop false).word = 0x02000157#32 ∧
    dependsOnVtype (vop false).cls = true ∧
    ∃ I : VInstr, I.word = 0x02000157#32 ∧ dependsOnVtype I.cls = true ∧
      I.requiresVstartZero = Config.requiresVstartZero family1.cfg 0x02000157#32 ∧
      hasMisnumberedGroup I (family1.withFetchWord 32 0x02000157) = false :=
  ⟨by decide, by decide +kernel, by decide, rfl, rfl,
    { vop false with
      requiresVstartZero := Config.requiresVstartZero family1.cfg 0x02000157#32, sources := [], dest := .none },
    rfl, rfl, rfl, rfl⟩

theorem witness_CsrReadsReturnStoredValues : ∃ s t, Invariant s ∧ s.vtype ≠ .illegal ∧ Invariant t ∧ t.vtype = .illegal :=
  ⟨busy, _, busy_invariant, by decide, small_invariant, by decide⟩

theorem witness_VtypeReadValue : small.cfg.xlen = .rv32 ∧ small.vtype = .illegal ∧ State.reset.cfg.xlen = .rv64 ∧
    State.reset.vtype = .illegal ∧ family1.vtype = .legal ⟨true, true, .e32, .m4⟩ := by decide

theorem witness_RegisterFormsWriteCsr : family1.vs ≠ .off ∧
    ∀ csr ∈ [Csr.vstart, .vxsat, .vxrm, .vcsr], csrReadWrite csr = true ∧ 31#5 ≠ 0#5 := by decide

theorem witness_ImmediateFormsWriteCsr : busy.vs ≠ .off ∧ csrReadWrite .vcsr = true ∧ 1#5 ≠ 0#5 ∧ 31#5 ≠ 0#5 := by
  decide

theorem witness_ReadingFormsOnlyRead : busy.vs ≠ .off ∧ Csr.isVector .vlenb = true ∧
    Instr.csrrci 31#5 .vlenb 0#5 ∈
      [Instr.csrrs 31#5 .vlenb 0#5, .csrrc 31#5 .vlenb 0#5, .csrrsi 31#5 .vlenb 0#5, .csrrci 31#5 .vlenb 0#5] := by
  decide

theorem witness_ReadOnlyCsrWritesTrap : ∀ csr ∈ [Csr.vl, Csr.vtype, Csr.vlenb], csr ∈ [Csr.vl, Csr.vtype, Csr.vlenb] ∧
    isCsrAccess csr (.csrrs 5#5 csr 6#5) = true ∧ doesWrite (.csrrs 5#5 csr 6#5) = true ∧
    isCsrAccess csr (.csrrsi 5#5 csr 0#5) = true ∧ doesWrite (.csrrsi 5#5 csr 0#5) = false ∧ family1.vs ≠ .off := by
  decide

theorem witness_VsOffTrapsEverything : off.vs = .off ∧ Csr.isVector .vlenb = true ∧
    isCsrAccess .vlenb (.csrrs 5#5 .vlenb 0#5) = true ∧ isConfig (.vsetvli 5#5 10#5 0x0D2#11) = true := by decide

theorem witness_VsOffTrapsEverything_word :
    (off.withFetchWord 32 0x00000057).vs = .off ∧ (off.withFetchWord 32 0x00000057).trap = none ∧
    fetch (off.withFetchWord 32 0x00000057) = .word 0x00000057#32 ∧
    decode 0x00000057#32 = .error .vectorOutOfScope := by decide +kernel

theorem witness_BaseCsrAccessIsRefused : isCsrAccess (.base 0x300#12) (.csrrw 0#5 (.base 0x300#12) 0#5) = true := by
  decide

/-- A write of all ones from x1 completes on each read-write CSR; the largest index of IMPL-A can be stored. -/
theorem witness_CsrWriteStoresItsField :
    (∀ csr ∈ [Csr.vstart, .vxsat, .vxrm, .vcsr], ∃ t, busy.vs ≠ .off ∧ csrReadWrite csr = true ∧ Invariant busy ∧
      exec (.csrrw 5#5 csr 1#5) busy = .next t) ∧
    (readX (setX family1 1#5 127#64) 1#5).toNat < 2 ^ vstartBits (setX family1 1#5 127#64).cfg := by
  refine ⟨fun csr h => ?_, by decide⟩
  have hall : ∀ csr ∈ [Csr.vstart, .vxsat, .vxrm, .vcsr], csrReadWrite csr = true ∧
      nextHas (exec (.csrrw 5#5 csr 1#5) busy) (fun _ => true) = true := by decide +kernel
  obtain ⟨t, ht, -⟩ := next_of_nextHas (hall csr h).2
  exact ⟨t, by decide, (hall csr h).1, busy_invariant, ht⟩

theorem witness_CsrInstructionsAreNoVectorInstructions :
    ∀ p ∈ [(Csr.vstart, Instr.csrrw 5#5 .vstart 1#5), (.vcsr, .csrrci 5#5 .vcsr 31#5), (.vlenb, .csrrs 5#5 .vlenb 0#5)],
      p.1.isVector = true ∧ isCsrAccess p.1 p.2 = true ∧ busy.vs ≠ .off ∧
        (doesWrite p.2 = true → csrReadWrite p.1 = true) := by decide

theorem witness_SupportedRequestsAreTheFieldNumbers :
    ([0xD2#64, 0x80000000#64, 0xFFFFFFFF#64].all fun req => zx implB req == req) = true ∧
    ([0xD2#64, 0x8000000000000000#64, 0x100#64].all fun req => zx implA req == req) = true ∧
    requestedFields implA 0xD2#64 = some d2 ∧ requestedFields implA 0x8000000000000000#64 = none ∧
    requestedFields implB 0xDA#64 = none ∧ 0 ≤ (lmulCode .m1).toInt ∧ (lmulCode .mf2).toInt < 0 := by decide

theorem witness_ChooseVlObeysItsBounds : 16 ≤ 16 ∧ (16 < 17 ∧ 17 < 2 * 16) ∧ (16 < 31 ∧ 31 < 2 * 16) ∧ 2 * 16 ≤ 32 ∧
    1 ≤ 1 := by decide

theorem witness_SupportedRequestWithLength : family1.vs ≠ .off ∧ supports family1.cfg d2.vsew d2.vlmul = true ∧
    (0x0D2#11).toNat = fieldsNumber d2 ∧ (0x0D2#10).toNat = fieldsNumber d2 ∧
    (readX (setX family1 31#5 0xD2#64) 31#5).toNat = fieldsNumber d2 ∧ 31#5 ≠ 0#5 := by decide

theorem witness_SupportedRequestForMaximum : State.reset.vs ≠ .off ∧ 1#5 ≠ 0#5 ∧
    supports State.reset.cfg .e8 .mf8 = true ∧ (0x0C5#11).toNat = fieldsNumber ⟨true, true, .e8, .mf8⟩ ∧
    (readX (setX State.reset 31#5 0xC5#64) 31#5).toNat = fieldsNumber ⟨true, true, .e8, .mf8⟩ := by decide

/-- V29 and V31; `vill` set beforehand (V32); both values of `reserved_traps`. -/
theorem witness_KeepFormNeedsTheSameVlmax :
    family1.vs ≠ .off ∧ supports implA .e16 .m2 = true ∧ (0x009#11).toNat = fieldsNumber ⟨false, false, .e16, .m2⟩ ∧
    (readX (setX family1 31#5 0x09#64) 31#5).toNat = fieldsNumber ⟨false, false, .e16, .m2⟩ ∧
    vlmaxOfType implA family1.vtype = some (vlmaxOf implA .e16 .m2) ∧ supports implA .e16 .m1 = true ∧
    (0x0C8#11).toNat = fieldsNumber ⟨true, true, .e16, .m1⟩ ∧
    vlmaxOfType implA family1.vtype ≠ some (vlmaxOf implA .e16 .m1) ∧
    vlmaxOfType implA State.reset.vtype ≠ some (vlmaxOf implA .e16 .m1) ∧
    trapping.cfg.reservedTraps = true ∧ supports trapping.cfg .e16 .m1 = true ∧
    vlmaxOfType trapping.cfg trapping.vtype ≠ some (vlmaxOf trapping.cfg .e16 .m1) ∧
    family1.cfg.reservedTraps = false ∧ State.reset.cfg.reservedTraps = false := by decide

/-- V21, V17, V28, V39, V43 and an unsupported pair on IMPL-B. -/
theorem witness_UnsupportedRequestSetsVill : family1.vs ≠ .off ∧
    (∀ f, (0x020#11).toNat = fieldsNumber f → supports implA f.vsew f.vlmul = false) ∧
    (∀ f, (0x0DF#11).toNat = fieldsNumber f → supports implA f.vsew f.vlmul = false) ∧
    (∀ f, (0x7FF#11).toNat = fieldsNumber f → supports implA f.vsew f.vlmul = false) ∧
    (∀ f, (0x3FF#10).toNat = fieldsNumber f → supports implA f.vsew f.vlmul = false) ∧
    (∀ f, (0x0CE#10).toNat = fieldsNumber f → supports implB f.vsew f.vlmul = false) ∧
    (∀ f, (readX (setX family1 11#5 0x8000000000000000#64) 11#5).toNat = fieldsNumber f →
      supports implA f.vsew f.vlmul = false) :=
  ⟨by decide, unsupported_of_all (by decide +kernel), unsupported_of_all (by decide +kernel),
    unsupported_of_all (by decide +kernel), unsupported_of_all (by decide +kernel),
    unsupported_of_all (by decide +kernel), unsupported_of_all (by decide +kernel)⟩

/-- The two runs of program P2: from `vill` and from a live configuration with `vl` = 13, saved in t0 and t1. -/
theorem witness_SavedConfigurationIsRestored :
    (∀ s ∈ [State.reset, { family1 with vl := 13 }], configValid s.cfg = true ∧
      (s.vtype = .illegal ∧ s.vl = 0 ∨
        s.vtype = .legal d2 ∧ supports s.cfg d2.vsew d2.vlmul = true ∧ s.vl ≤ vlmaxOf s.cfg d2.vsew d2.vlmul) ∧
      (setX (setX State.reset 5#5 (csrRead s .vl)) 6#5 (csrRead s .vtype)).cfg = s.cfg ∧
      (setX (setX State.reset 5#5 (csrRead s .vl)) 6#5 (csrRead s .vtype)).vs ≠ .off ∧ 5#5 ≠ 0#5 ∧ 6#5 ≠ 0#5 ∧
      readX (setX (setX State.reset 5#5 (csrRead s .vl)) 6#5 (csrRead s .vtype)) 5#5 = csrRead s .vl ∧
      readX (setX (setX State.reset 5#5 (csrRead s .vl)) 6#5 (csrRead s .vtype)) 6#5 = csrRead s .vtype) ∧
    (∃ t, isConfig (.vsetvl 0#5 5#5 6#5) = true ∧ ConfigConsistent busy.cfg busy.vtype busy.vl ∧
      exec (.vsetvl 0#5 5#5 6#5) busy = .next t) ∧
    ResetAllowed { small with vstart := 31, vl := 0, vs := .off } := by
  refine ⟨by decide +kernel, ?_, ⟨by decide, rfl, by decide, by decide +kernel, by decide⟩⟩
  obtain ⟨t, ht, -⟩ := next_of_nextHas (o := exec (.vsetvl 0#5 5#5 6#5) busy) (p := fun _ => true) (by decide +kernel)
  exact ⟨t, by decide, busy_invariant.configConsistent, ht⟩

/-- A request that is supported, and one that sets `vill`. -/
theorem witness_ConfigurationResultIsTheNewVl : Invariant busy ∧ busy.trap = none ∧
    (∃ t, isConfig (.vsetvli 31#5 1#5 0x0D2#11) = true ∧ exec (.vsetvli 31#5 1#5 0x0D2#11) busy = .next t ∧
      t.trap = none ∧ t.vtype ≠ .illegal ∧ t.vl = 16) ∧
    (∃ t, exec (.vsetvli 31#5 1#5 0x020#11) busy = .next t ∧ t.trap = none ∧ t.vtype = .illegal) := by
  refine ⟨busy_invariant, by decide, ?_, ?_⟩
  · obtain ⟨t, ht, hp⟩ := next_of_nextHas (o := exec (.vsetvli 31#5 1#5 0x0D2#11) busy)
      (p := fun t => decide (t.trap = none ∧ t.vtype ≠ .illegal ∧ t.vl = 16)) (by decide +kernel)
    exact ⟨t, by decide, ht, of_decide_eq_true hp⟩
  · obtain ⟨t, ht, hp⟩ := next_of_nextHas (o := exec (.vsetvli 31#5 1#5 0x020#11) busy)
      (p := fun t => decide (t.trap = none ∧ t.vtype = .illegal)) (by decide +kernel)
    exact ⟨t, ht, of_decide_eq_true hp⟩

/-- From the last word of the address space; a trap; a step. -/
theorem witness_CompletedInstructionsAdvancePc :
    (∃ t, ({ busy with pc := 0xFFFFFFFFFFFFFFFC#64 } : State).trap = none ∧
      exec (.csrrs 5#5 .vl 0#5) { busy with pc := 0xFFFFFFFFFFFFFFFC#64 } = .next t ∧ t.trap = none ∧ readPc t = 0#64) ∧
    (∃ t, exec (.csrrw 5#5 .vl 0#5) busy = .next t ∧ t.trap ≠ none) ∧
    (∃ t, step busy = .next t) ∧ (∃ t, atTheTop.trap = none ∧ step atTheTop = .next t) := by
  refine ⟨?_, ?_, ?_, ?_⟩
  · obtain ⟨t, ht, hp⟩ := next_of_nextHas
      (o := exec (.csrrs 5#5 .vl 0#5) { busy with pc := 0xFFFFFFFFFFFFFFFC#64 })
      (p := fun t => decide (t.trap = none ∧ readPc t = 0#64)) (by decide +kernel)
    exact ⟨t, by decide, ht, of_decide_eq_true hp⟩
  · obtain ⟨t, ht, hp⟩ := next_of_nextHas (o := exec (.csrrw 5#5 .vl 0#5) busy)
      (p := fun t => decide (t.trap ≠ none)) (by decide +kernel)
    exact ⟨t, ht, of_decide_eq_true hp⟩
  · obtain ⟨t, ht, -⟩ := next_of_nextHas (o := step busy) (p := fun _ => true) (by decide +kernel)
    exact ⟨t, ht⟩
  · obtain ⟨t, ht, -⟩ := next_of_nextHas (o := step atTheTop) (p := fun _ => true) (by decide +kernel)
    exact ⟨t, by decide, ht⟩

theorem witness_OnlyConfigurationChangesVtypeAndVl : ∃ t, exec (.vsetivli 5#5 0#5 0x0C9#10) family1 = .next t ∧
    (t.vtype ≠ family1.vtype ∨ t.vl ≠ family1.vl) := by
  obtain ⟨t, ht, hp⟩ := next_of_nextHas (o := exec (.vsetivli 5#5 0#5 0x0C9#10) family1)
    (p := fun t => decide (t.vtype ≠ family1.vtype ∨ t.vl ≠ family1.vl)) (by decide +kernel)
  exact ⟨t, ht, of_decide_eq_true hp⟩

theorem witness_RaisedExceptionChangesNothing : ∃ t, busy.trap = none ∧ exec (.csrrwi 5#5 .vtype 0#5) busy = .next t ∧
    t.trap ≠ none := by
  obtain ⟨t, ht, hp⟩ := next_of_nextHas (o := exec (.csrrwi 5#5 .vtype 0#5) busy) (p := fun t => decide (t.trap ≠ none))
    (by decide +kernel)
  exact ⟨t, by decide, ht, of_decide_eq_true hp⟩

theorem witness_VsMovesOnlyToDirty : (∃ t, step busy = .next t) ∧ (∃ t, exec (.csrrw 5#5 .vcsr 1#5) busy = .next t) ∧
    (∃ t, vectorInstruction (vop true) none (frameState 0 3 true true) = .next t) ∧
    (∃ t, vectorInstruction (vop true) (some ⟨2, 7, false⟩) (frameState 0 3 true true) = .next t) := by
  refine ⟨?_, ?_, ?_, ?_⟩
  · exact (next_of_nextHas (o := step busy) (p := fun _ => true) (by decide +kernel)).imp fun _ h => h.1
  · exact (next_of_nextHas (o := exec (.csrrw 5#5 .vcsr 1#5) busy) (p := fun _ => true) (by decide +kernel)).imp
      fun _ h => h.1
  · exact (next_of_nextHas (p := fun _ => true) (by decide +kernel)).imp fun _ h => h.1
  · exact (next_of_nextHas (p := fun _ => true) (by decide +kernel)).imp fun _ h => h.1

/-- Two steps: a trap because the unit is off, then `Base` takes it. -/
def offBusy : State := { off.withFetchWord 32 0xC22022F3 with pc := 0#64 }

theorem run_offBusy : ∃ t, Sys2Proof.core.run 2 offBusy = .next t ∧ t.vs = .off := by
  obtain ⟨t, ht, hp⟩ := next_of_nextHas (o := Sys2Proof.core.run 2 offBusy) (p := fun t => decide (t.vs = .off))
    (by decide +kernel)
  exact ⟨t, ht, of_decide_eq_true hp⟩

theorem witness_NotDirtyMeansVectorStateUntouched : (∃ t, Sys2Proof.core.run 2 offBusy = .next t) ∧
    (∃ t, Sys2Proof.core.run 0 family1 = .next t ∧ (t.vs = .initial ∨ t.vs = .clean)) :=
  ⟨run_offBusy.imp fun _ h => h.1, ⟨family1, rfl, by decide⟩⟩

theorem witness_ProgramTextIsImmutable : (∃ t, Sys2Proof.core.run 2 offBusy = .next t) ∧
    Sys2Proof.core.run 0 busy = .next busy ∧ (readPc busy).toNat % fetchAlignment busy.cfg = 0 :=
  ⟨run_offBusy.imp fun _ h => h.1, rfl, by decide⟩

theorem witness_VlenbIsConstant : configValid small.cfg = true ∧ ∃ t, Sys2Proof.core.run 2 offBusy = .next t :=
  ⟨by decide, run_offBusy.imp fun _ h => h.1⟩

theorem witness_StepKeepsInvariant : ∃ t, Invariant busy ∧ step busy = .next t :=
  (next_of_nextHas (o := step busy) (p := fun _ => true) (by decide +kernel)).imp fun _ h => ⟨busy_invariant, h.1⟩

theorem witness_MisaVStaysSet : ({ implA with misaVWritable := true } : Config).misaVWritable = true ∧
    (0#64).getLsbD 21 = false ∧ implA.misaVWritable = false ∧ (0x200000#64).getLsbD 21 = true := by decide

theorem witness_HandlerTurnsUnitOnAndResumes : ∃ t, off.vs = .off ∧ off.trap = none ∧
    exec (.csrrs 5#5 .vlenb 0#5) off = .next t :=
  (next_of_nextHas (o := exec (.csrrs 5#5 .vlenb 0#5) off) (p := fun _ => true) (by decide +kernel)).imp
    fun _ h => ⟨by decide, by decide, h.1⟩

theorem witness_VlmaxIsLmulTimesVlenOverSew : configValid implA = true ∧ supports implA .e8 .mf8 = true ∧
    supports implA .e8 .m8 = true ∧ configValid implB = true ∧ supports implB .e32 .m1 = true := by decide

theorem witness_DerivedWidthsHoldEveryIndex : configValid implB = true ∧ supports implB .e32 .m1 = true ∧
    supports implB .e8 .m8 = true := by decide

theorem witness_DerivedWidthsHoldEveryIndex_least : ∀ sew lmul, supports implA sew lmul = true →
    vlmaxOf implA sew lmul - 1 < 2 ^ 7 ∧ vlmaxOf implA sew lmul < 2 ^ 8 := by
  intro sew lmul; cases sew <;> cases lmul <;> decide

theorem witness_RoundingModesAreTheirArithmetic : 1 ≤ 1 ∧ 1 < 2 ∧ 1 ≤ 7 ∧ 7 < 8 ∧
    ∃ (v : BitVec 8) (n r0 r1 r2 r3 : Int), n = v.toInt ∧ r0 = roundoffSigned v 1 0#2 ∧ r1 = roundoffSigned v 1 1#2 ∧
      r2 = roundoffSigned v 1 2#2 ∧ r3 = roundoffSigned v 1 3#2 ∧ n % 2 ^ 1 ≠ 0 ∧ 2 * (n % 2 ^ 1) = 2 ^ 1 :=
  ⟨by decide, by decide, by decide, by decide, -5#8, -5, -2, -2, -3, -3, by decide, by decide, by decide, by decide,
    by decide, by decide, by decide⟩

theorem witness_RoundedResultsFit : 0 < 1 ∧ 1 ≤ 7 ∧ 7 < 8 := by decide

/-- F13, F15, F10, small LMUL and a misnumbered group, each under the implementations that refuse and that trap. The
third clause concerns a free value (log entry 17): its hypothesis is met wherever that value is false. -/
theorem witness_FrameChecksDecideTheOutcome :
    (frameState 0 2 true true).vs ≠ .off ∧ dependsOnVtype (vop false).cls = true ∧ State.reset.vtype = .illegal ∧
    ({ vop false with requiresVstartZero := true } : VInstr).requiresVstartZero = true ∧
    (frameState 1 2 true true).vstart ≠ 0 ∧
    (∀ s ∈ [frameState 4 4 false false, frameState 127 4 false false],
      s.vtype = .legal ⟨false, false, .e32, .m1⟩ ∧
      ¬(dependsOnVtype (vop false).cls = true ∧ s.vtype = .illegal) ∧
      ¬((vop false).requiresVstartZero = true ∧ s.vstart ≠ 0) ∧
      legalVstart s.cfg (vop false).word s.vtype s.vstart = true ∧ vlmaxOf s.cfg .e32 .m1 ≤ s.vstart ∧
      s.cfg.vstartOobTraps = false ∧ s.cfg.reservedTraps = false) ∧
    (frameState 3 4 false false).vstart < vlmaxOf implA .e32 .m1 ∧ belowLmulBound implA .m1 = false ∧
    hasMisnumberedGroup { vop false with sources := [.group 3#5] } { family1 with vtype := .legal d2 } = true ∧
    hasMisnumberedGroup (vop false) (frameState 3 4 false false) = false ∧
    ({ implA with vstartOobTraps := true, reservedTraps := true } : Config).vstartOobTraps = true := by decide +kernel

/-- An implementation that supports SEW = 8 with LMUL = 1/8 below the bound 8/32 of R143. -/
def smallLmul : State :=
  { small with
    cfg := { implB with vlen := 64, supportedPairs := (.e8, .mf8) :: implB.supportedPairs }
    vtype := .legal ⟨false, false, .e8, .mf8⟩ }

theorem witness_FrameChecksDecideTheOutcome_smallLmul : configValid smallLmul.cfg = true ∧ smallLmul.vs ≠ .off ∧
    smallLmul.vstart < vlmaxOf smallLmul.cfg .e8 .mf8 ∧ supports smallLmul.cfg .e8 .mf8 = true ∧
    belowLmulBound smallLmul.cfg .mf8 = true ∧
    legalVstart smallLmul.cfg (vop false).word smallLmul.vtype smallLmul.vstart = true := by decide +kernel

/-- X6: the second part, on the reset state. -/
theorem witness_FrameChecksDecideTheOutcome_wholeRegister : State.reset.vs ≠ .off ∧ State.reset.vtype = .illegal ∧
    vmove.cls = .wholeRegister 2 64 ∧ vmove.requiresVstartZero = false ∧
    legalVstart State.reset.cfg vmove.word State.reset.vtype State.reset.vstart = true ∧
    hasMisnumberedGroup vmove State.reset = false := by decide +kernel

/-- Two group operands: both right, the source wrong, the destination wrong; a mask operand has no part in it. -/
theorem witness_GroupNumbersFollowLmul :
    dependsOnVtype (vop false).cls = true ∧ family1.vtype = .legal d2 ∧ groupRegisters d2.vlmul = 4 ∧
    groupOperands { vop false with dest := .group 8#5 fun _ => .value 0 } = [4, 8] ∧
    hasMisnumberedGroup { vop false with dest := .group 8#5 fun _ => .value 0 } family1 = false ∧
    hasMisnumberedGroup { vop false with sources := [.group 5#5], dest := .group 8#5 fun _ => .value 0 } family1 = true ∧
    hasMisnumberedGroup (vop false) family1 = true ∧
    hasMisnumberedGroup { vmop with sources := [.mask 5#5] } family1 = false ∧
    vmove.cls = .wholeRegister 2 64 ∧ hasMisnumberedGroup vmove family1 = false ∧
    hasMisnumberedGroup { vmove with sources := [.group 5#5] } family1 = true := by decide

theorem witness_LayoutFollowsVtype : dependsOnVtype (vop false).cls = true ∧
    (frameState 1 3 true true).vtype = .legal ⟨true, true, .e32, .m1⟩ ∧ configValid implA = true ∧
    supports implA .e32 .m1 = true ∧ vmove.cls = .wholeRegister 2 64 ∧ 1 ≤ 2 ∧ 0 < 64 ∧ 64 ∣ implA.vlen := by decide

theorem witness_FrameChecksDecideTheOutcome_legalVstart (c : Config) (hc : c.everyVstartLegal = false)
    (h : Config.legalVstart c 0x02000157#32 .illegal 3 = false) : legalVstart c 0x02000157#32 .illegal 3 = false := by
  simp [legalVstart, hc, h]

theorem witness_VstartAfterAVectorInstruction :
    (∃ t, (frameState 3 4 false false).trap = none ∧
      vectorInstruction (vop false) none (frameState 3 4 false false) = .next t ∧ t.trap = none) ∧
    (∃ t, vectorInstruction (vop false) none State.reset = .next t ∧ t.trap = some ⟨.illegalInstruction, 0#64⟩) ∧
    (∃ t, vectorInstruction (vop false) (some ⟨3, 7, false⟩) (frameState 3 4 false false) = .next t ∧
      t.trap = some ⟨.exception 7, 0#64⟩) ∧
    (∃ t, isConfig (.vsetivli 0#5 31#5 0x0C9#10) = true ∧ exec (.vsetivli 0#5 31#5 0x0C9#10) busy = .next t ∧
      t.trap = none) ∧
    (∃ t, off.trap = none ∧ exec (.vsetivli 0#5 31#5 0x0C9#10) off = .next t ∧ t.trap ≠ none) := by
  refine ⟨?_, ?_, ?_, ?_, ?_⟩
  · obtain ⟨t, ht, hp⟩ := next_of_nextHas (o := vectorInstruction (vop false) none (frameState 3 4 false false))
      (p := fun t => decide (t.trap = none)) (by decide +kernel)
    exact ⟨t, by decide, ht, of_decide_eq_true hp⟩
  · obtain ⟨t, ht, hp⟩ := next_of_nextHas (o := vectorInstruction (vop false) none State.reset)
      (p := fun t => decide (t.trap = some ⟨.illegalInstruction, 0#64⟩)) (by decide +kernel)
    exact ⟨t, ht, of_decide_eq_true hp⟩
  · obtain ⟨t, ht, hp⟩ := next_of_nextHas (o := vectorInstruction (vop false) (some ⟨3, 7, false⟩) (frameState 3 4 false false))
      (p := fun t => decide (t.trap = some ⟨.exception 7, 0#64⟩)) (by decide +kernel)
    exact ⟨t, ht, of_decide_eq_true hp⟩
  · obtain ⟨t, ht, hp⟩ := next_of_nextHas (o := exec (.vsetivli 0#5 31#5 0x0C9#10) busy)
      (p := fun t => decide (t.trap = none)) (by decide +kernel)
    exact ⟨t, by decide, ht, of_decide_eq_true hp⟩
  · obtain ⟨t, ht, hp⟩ := next_of_nextHas (o := exec (.vsetivli 0#5 31#5 0x0C9#10) off)
      (p := fun t => decide (t.trap ≠ none)) (by decide +kernel)
    exact ⟨t, by decide, ht, of_decide_eq_true hp⟩

/-- F6: element 0 is prestart, 1 inactive, 2 active, 3 tail, both policies agnostic; a group at the end of the file. -/
theorem witness_GroupDestinationElements :
    layoutOf (vop true) (frameState 1 3 true true) = some ⟨32, 1, 4, true, true⟩ ∧ 32 ∣ implA.vlen ∧
    4 ≤ 1 * (implA.vlen / 32) ∧ (frameState 1 3 true true).vstart < (frameState 1 3 true true).vl ∧
    (2#5).toNat + 1 ≤ 32 ∧ (24#5).toNat + 8 ≤ 32 ∧
    groupTailEnd implA ⟨32, 1, 4, true, true⟩ = 4 ∧ 0 < (frameState 1 3 true true).vstart ∧
    maskAllows (vop true) (frameState 1 3 true true) 1 = false ∧
    maskAllows (vop true) (frameState 1 3 true true) 2 = true ∧ (frameState 1 3 true true).vl ≤ 3 := by decide +kernel

theorem witness_GroupDestinationElements_fits : LayoutFits implA ⟨32, 1, 4, true, true⟩ := by
  unfold LayoutFits; decide

theorem witness_GroupDestinationElements_dest : (vop true).dest = .group 2#5 (fun x => .value (100 + x)) := rfl

/-- F16 with a prestart and an inactive element; the last bit of the register is a tail bit. -/
theorem witness_MaskDestinationBits :
    layoutOf vmop (frameState 1 3 true true) = some ⟨32, 1, 4, true, true⟩ ∧
    (frameState 1 3 true true).vstart < (frameState 1 3 true true).vl ∧ 127 < (frameState 1 3 true true).cfg.vlen ∧
    (frameState 1 3 true true).vl ≤ 127 ∧
    maskAllows { vmop with masked := true } (frameState 1 3 true true) 1 = false ∧
    maskAllows { vmop with masked := true } (frameState 1 3 true true) 2 = true := by decide +kernel

theorem witness_MaskDestinationBits_dest : vmop.dest = .mask 2#5 (fun _ => true) (fun _ => false) := rfl

/-- F7 and F8. -/
theorem witness_NothingIsWrittenAtOrPastVl : (frameState 2 2 true true).vl ≤ (frameState 2 2 true true).vstart ∧
    (frameState 0 0 true true).vl ≤ (frameState 0 0 true true).vstart := by decide

theorem witness_NothingIsWrittenAtOrPastVl_dest : ({ vop false with dest := .xreg 5#5 7#64 } : VInstr).dest = .xreg 5#5 7#64 :=
  rfl

/-- The destination of an instruction is a group, an integer register, or neither; its class is a fault-only-first load
or another. -/
theorem witness_CompletingVectorInstructionFrame :
    (∀ rd v, (vop false).dest ≠ .xreg rd v) ∧ (∀ vd g, ({ vop false with dest := .xreg 5#5 7#64 } : VInstr).dest ≠ .group vd g) ∧
    (∀ vd g h, ({ vop false with dest := .xreg 5#5 7#64 } : VInstr).dest ≠ .mask vd g h) ∧
    (∀ n, (vop false).cls ≠ .faultOnlyFirstLoad n) ∧
    ({ vop false with cls := .faultOnlyFirstLoad 3 } : VInstr).cls = .faultOnlyFirstLoad 3 :=
  ⟨nofun, nofun, nofun, nofun, rfl⟩

/-- The first and the last body element, in a group of one register. -/
theorem witness_FixedPointResultsReadVxrm : layoutOf (vround 10) (frameState 1 4 true true) = some ⟨32, 1, 4, true, true⟩ ∧
    (2#5).toNat + 1 ≤ 32 ∧ (frameState 1 4 true true).vstart ≤ 1 ∧ 3 < (frameState 1 4 true true).vl ∧
    3 < groupTailEnd implA ⟨32, 1, 4, true, true⟩ ∧ maskAllows (vround 10) (frameState 1 4 true true) 1 = true ∧
    maskAllows (vround 10) (frameState 1 4 true true) 3 = true ∧ (vround 10).cls = .fixedPoint ∧
    (fun n : Int => decide (3 < n)) (roundoff ⟨8, 14#8, 2, false⟩ 0#2) = true := by decide +kernel

theorem witness_FixedPointResultsReadVxrm_dest (x : Nat) : ∃ result, (vround 10).dest = .group 2#5 result ∧
    result x = .rounded ⟨8, BitVec.ofNat 8 (10 + x), 2, false⟩ (fun n => min n.toNat 3) (fun n => decide (3 < n)) :=
  ⟨_, rfl, rfl⟩

/-- Stopped at element 2 of 1 to 2, masked: element 1 is inactive, 2 is not reached; a mask destination likewise. -/
theorem witness_StoppedDestinationElements :
    layoutOf (vop true) (frameState 1 3 true true) = some ⟨32, 1, 4, true, true⟩ ∧
    layoutOf vmop (frameState 1 3 true true) = some ⟨32, 1, 4, true, true⟩ ∧
    (frameState 1 3 true true).vstart < (frameState 1 3 true true).vl ∧ (2#5).toNat + 1 ≤ 32 ∧
    groupTailEnd implA ⟨32, 1, 4, true, true⟩ = 4 ∧ maskAllows (vop true) (frameState 1 3 true true) 1 = false ∧
    maskAllows (vop false) (frameState 1 3 true true) 1 = true ∧ 127 < (frameState 1 3 true true).cfg.vlen := by
  decide +kernel

/-- The destination of a stopped instruction may be no vector register. -/
theorem witness_StoppedVectorInstructionFrame :
    (∀ vd g, ({ vop false with dest := .xreg 5#5 7#64 } : VInstr).dest ≠ .group vd g) ∧
    (∀ vd g h, ({ vop false with dest := .xreg 5#5 7#64 } : VInstr).dest ≠ .mask vd g h) := ⟨nofun, nofun⟩

/-- F11 and F12, stopped at the first and at the last element, unmasked and masked. -/
theorem witness_ResumedRunEqualsUninterrupted :
    (frameState 0 4 false false).trap = none ∧
    ConfigConsistent (frameState 0 4 false false).cfg (frameState 0 4 false false).vtype (frameState 0 4 false false).vl ∧
    (∀ L, layoutOf (vop true) (frameState 0 4 false false) = some L → L.tailAgnostic = false ∧ L.maskAgnostic = false) ∧
    (∀ vd g h, (vop true).dest ≠ .mask vd g h) ∧
    (∀ p ∈ [(vop false, (⟨0, 7, true⟩ : Stop)), (vop true, ⟨3, 7, false⟩)],
      ∃ t tr, vectorInstruction p.1 (some p.2) (frameState 0 4 false false) = .next t ∧ t.trap = some tr ∧
        tr.cause ≠ .illegalInstruction) := by
  refine ⟨rfl, ⟨by decide, by decide⟩, fun L h => by cases h; exact ⟨rfl, rfl⟩, nofun, fun p hp => ?_⟩
  simp only [List.mem_cons, List.not_mem_nil, or_false] at hp
  rcases hp with rfl | rfl
  · obtain ⟨t, ht, hp⟩ := next_of_nextHas
      (o := vectorInstruction (vop false) (some ⟨0, 7, true⟩) (frameState 0 4 false false))
      (p := fun t => decide (t.trap = some ⟨.interrupt 7, 0#64⟩)) (by decide +kernel)
    exact ⟨t, _, ht, of_decide_eq_true hp, nofun⟩
  · obtain ⟨t, ht, hp⟩ := next_of_nextHas
      (o := vectorInstruction (vop true) (some ⟨3, 7, false⟩) (frameState 0 4 false false))
      (p := fun t => decide (t.trap = some ⟨.exception 7, 0#64⟩)) (by decide +kernel)
    exact ⟨t, _, ht, of_decide_eq_true hp, nofun⟩

end Sys2Proof.Tests
end

