-- ==== Sys2Proof/Proofs/StateReads.lean ====
section
/-! PROOFS. What `vtype` and `vlenb` read as, and VLMAX (10_state.md R40, R46, R60). -/

namespace Sys2Proof.Proofs

open Sys2Proof.Machine Sys2Proof.Laws

/-! ### The value of `vtype` (R46) -/

theorem csrRead_vtype (s : State) : csrRead s .vtype = vtypeValue s.cfg s.vtype := rfl

/-- Concatenation as arithmetic: the upper part is shifted up by the width of the lower one. -/
theorem toNat_append_eq_mul_add {m n : Nat} (hi : BitVec m) (lo : BitVec n) :
    (hi ++ lo).toNat = hi.toNat * 2 ^ n + lo.toNat := by
  rw [BitVec.toNat_append, ← Nat.shiftLeft_add_eq_or_of_lt lo.isLt, Nat.shiftLeft_eq]

theorem vtypeValue_illegal_toNat (c : Config) : (vtypeValue c .illegal).toNat = 2 ^ (xlenBits c - 1) := by
  unfold vtypeValue
  rcases xlenBits_cases c with h | h <;> rw [h] <;> decide

/-- The four fields fill bits 7:0, each above the width of those below it. -/
theorem vtypeValue_legal_toNat (c : Config) (f : VFields) :
    (vtypeValue c (.legal f)).toNat =
      128 * f.vma.toNat + 64 * f.vta.toNat + 8 * (sewCode f.vsew).toNat + (lmulCode f.vlmul).toNat := by
  have hma := Bool.toNat_lt f.vma
  have hta := Bool.toNat_lt f.vta
  have hsew := (sewCode f.vsew).isLt
  have hlmul := (lmulCode f.vlmul).isLt
  simp only [vtypeValue, BitVec.toNat_setWidth, toNat_append_eq_mul_add, BitVec.toNat_ofBool]
  omega

/-- Settles O12. The three examples of R46 are the two laws at concrete arguments. -/
theorem vtypeReadValue : Obligations.VtypeReadValue := by
  have hill : ∀ s : State, s.vtype = .illegal → (csrRead s .vtype).toNat = 2 ^ (xlenBits s.cfg - 1) := by
    intro s hs
    rw [csrRead_vtype, hs, vtypeValue_illegal_toNat]
  have hlegal : ∀ (s : State) (f : VFields), s.vtype = .legal f → (csrRead s .vtype).toNat =
      128 * f.vma.toNat + 64 * f.vta.toNat + 8 * (sewCode f.vsew).toNat + (lmulCode f.vlmul).toNat := by
    intro s f hs
    rw [csrRead_vtype, hs, vtypeValue_legal_toNat]
  refine ⟨hill, hlegal, fun s hx hs => ?_, fun s hx hs => ?_, fun s hs => ?_⟩ <;> apply BitVec.eq_of_toNat_eq
  · rw [hill s hs]
    simp [xlenBits, hx]
  · rw [hill s hs]
    simp [xlenBits, hx]
  · rw [hlegal s _ hs]
    decide

/-! ### The value of `vlenb` (R60) -/

/-- `vlenb` reads the same in two states of one implementation: it depends on the parameters alone. -/
theorem csrRead_vlenb_congr {s t : State} (h : t.cfg = s.cfg) : csrRead t .vlenb = csrRead s .vlenb := by
  simp only [csrRead, h]

/-- VLEN/8 is at most 8192, so cutting it to XLEN bits loses nothing. -/
theorem csrRead_vlenb_toNat {s : State} (h : configValid s.cfg = true) :
    (csrRead s .vlenb).toNat = s.cfg.vlen / 8 := by
  have hv := (vlen_bounds h).2
  simp only [csrRead, vlenb, xword_toNat]
  rcases xlenBits_cases s.cfg with hx | hx <;> rw [hx] <;> omega

/-- No run changes the implementation's parameters (00_scope.md R11). -/
theorem run_cfg (n : Nat) (s t : State) (h : Sys2Proof.core.run n s = .next t) : t.cfg = s.cfg :=
  run_induction (R := fun s t => t.cfg = s.cfg) (fun _ => rfl)
    (fun _ _ _ hstep hrest => hrest.trans (step_fixed hstep).1) n s t h

theorem reset_configValid : configValid State.reset.cfg = true := by decide

/-- Settles O36: `vlenb` is a function of the parameters, which no run changes and reset makes valid. -/
theorem vlenbIsConstant : Obligations.VlenbIsConstant :=
  ⟨fun _ => csrRead_vlenb_toNat, fun n s t h => csrRead_vlenb_congr (run_cfg n s t h),
    csrRead_vlenb_toNat reset_configValid⟩

/-! ### VLMAX (R40) -/

/-- LMUL/SEW is 1 at SEW = 8 and LMUL = 8. -/
theorem vlmaxOf_e8_m8 (c : Config) : vlmaxOf c .e8 .m8 = c.vlen := by
  simp [vlmaxOf, lmulEighths, sewBits]

/-- Settles O43. -/
theorem vlmaxIsLmulTimesVlenOverSew : Obligations.VlmaxIsLmulTimesVlenOverSew := by
  intro c hc
  refine ⟨rfl, fun _ => rfl, vlmaxOf_e8_m8 c, fun sew lmul hs => ?_⟩
  have hone : 1 ≤ vlmaxOf c sew lmul := one_le_vlmax hc hs
  exact ⟨vlmax_exact hc hone, hone, vlmax_le_vlen c sew lmul⟩

end Sys2Proof.Proofs
end

