-- ==== Sys2Proof/Proofs/ProgramText.lean ====
section
/-! PROOFS. The program text along a run, and what a fetch reads from it (20_memory.md R107, R114). -/

namespace Sys2Proof.Proofs

open Sys2Proof.Machine Sys2Proof.Laws

/-- At an aligned `pc` a fetch gives the word of the text there, and gives none where a byte of it is missing. -/
theorem fetch_eq_word_iff {s : State} (ha : (readPc s).toNat % fetchAlignment s.cfg = 0) (w : BitVec 32) :
    fetch s = .word w ↔ readWord s.cfg s.text (readPc s) = some w := by
  rw [fetch, if_neg (not_not_intro ha)]
  cases readWord s.cfg s.text (readPc s) <;> simp

/-- No run changes the program text: no instruction stores to memory (20_memory.md R104), and `Base` takes a trap
without touching the text. -/
theorem run_text (n : Nat) (s t : State) (h : Sys2Proof.core.run n s = .next t) : t.text = s.text :=
  run_induction (R := fun s t => t.text = s.text) (fun _ => rfl)
    (fun _ _ _ hstep hrest => hrest.trans (step_fixed hstep).2.2) n s t h

/-- Settles O35: what a fetch reads depends on the text, the parameters and `pc`, and a run keeps the first two. -/
theorem programTextIsImmutable : Obligations.ProgramTextIsImmutable := by
  intro n s t h
  have htext : t.text = s.text := run_text n s t h
  have hcfg : t.cfg = s.cfg := run_cfg n s t h
  refine ⟨htext, hcfg, fun a => by rw [htext, hcfg], fun w ha => ?_⟩
  rw [← hcfg] at ha
  rw [fetch_eq_word_iff ha, htext, hcfg]

end Sys2Proof.Proofs
end

