-- ==== Sys2Proof/Proofs/ConfigPatterns.lean ====
section
/-! PROOFS. The rows of opcode 0x57 as fields of a word, and how the configuration instructions are told apart
(30_encoding.md R125, R135). -/

namespace Sys2Proof.Proofs

open Sys2Proof.Machine Sys2Proof.Laws

/-! ### A row of the opcode map as slices of the word -/

/-- Bit `i` lies in one of the slices, each given by its lowest bit and its width. -/
def inSlices (slices : List (Nat × Nat)) (i : Nat) : Bool :=
  slices.any fun s => decide (s.1 ≤ i ∧ i < s.1 + s.2)

/-- A word matches a row whose mask selects the slices when each of its slices is the pattern's. -/
theorem rowMatches_iff_slices {r : OpcodeRow} {slices : List (Nat × Nat)} (w : BitVec 32)
    (hmask : ∀ i < 32, r.mask.getLsbD i = inSlices slices i) (hpattern : r.pattern &&& r.mask = r.pattern) :
    rowMatches r w = true ↔ ∀ s ∈ slices, w.extractLsb' s.1 s.2 = r.pattern.extractLsb' s.1 s.2 := by
  rw [rowMatches, beq_iff_eq, and_mask_eq]
  rw [and_mask_eq] at hpattern
  constructor
  · intro h s hs
    rw [extract_eq_iff]
    intro j hj
    by_cases hlt : s.1 + j < 32
    · have hm : r.mask.getLsbD (s.1 + j) = true := by
        rw [hmask _ hlt, inSlices, List.any_eq_true]
        exact ⟨s, hs, by simpa using hj⟩
      simpa [hm] using h _ hlt
    · rw [BitVec.getLsbD_of_ge _ _ (by omega), BitVec.getLsbD_of_ge _ _ (by omega)]
  · intro h i hi
    cases hm : r.mask.getLsbD i with
    | false => simpa [hm] using hpattern i hi
    | true =>
      rw [hmask i hi, inSlices, List.any_eq_true] at hm
      obtain ⟨s, hs, hin⟩ := hm
      obtain ⟨hle, hlt⟩ := of_decide_eq_true hin
      have hbit := (extract_eq_iff s.1 s.2).mp (h s hs) (i - s.1) (by omega)
      rwa [Nat.add_sub_cancel' hle, ← Bool.and_true (w.getLsbD i)] at hbit

/-! ### The rows of opcode 0x57 (R125) -/

theorem rowMatches_vsetvli_iff (w : BitVec 32) : rowMatches rowVsetvli w = true ↔
    w.extractLsb' 0 7 = 0b1010111#7 ∧ w.extractLsb' 12 3 = 0b111#3 ∧ w.extractLsb' 31 1 = 0b0#1 := by
  rw [rowMatches_iff_slices (slices := [(0, 7), (12, 3), (31, 1)]) w (by decide) (by decide)]
  simp [rowVsetvli]

theorem rowMatches_vsetivli_iff (w : BitVec 32) : rowMatches rowVsetivli w = true ↔
    w.extractLsb' 0 7 = 0b1010111#7 ∧ w.extractLsb' 12 3 = 0b111#3 ∧ w.extractLsb' 30 2 = 0b11#2 := by
  rw [rowMatches_iff_slices (slices := [(0, 7), (12, 3), (30, 2)]) w (by decide) (by decide)]
  simp [rowVsetivli]

theorem rowMatches_vsetvl_iff (w : BitVec 32) : rowMatches rowVsetvl w = true ↔
    w.extractLsb' 0 7 = 0b1010111#7 ∧ w.extractLsb' 12 3 = 0b111#3 ∧ w.extractLsb' 25 7 = 0b1000000#7 := by
  rw [rowMatches_iff_slices (slices := [(0, 7), (12, 3), (25, 7)]) w (by decide) (by decide)]
  simp [rowVsetvl]

theorem rowMatches_configSpace_iff (w : BitVec 32) : rowMatches rowConfigSpace w = true ↔
    w.extractLsb' 0 7 = 0b1010111#7 ∧ w.extractLsb' 12 3 = 0b111#3 := by
  rw [rowMatches_iff_slices (slices := [(0, 7), (12, 3)]) w (by decide) (by decide)]
  simp [rowConfigSpace]

theorem rowMatches_vectorSpace_iff (w : BitVec 32) : rowMatches rowVectorSpace w = true ↔
    w.extractLsb' 0 7 = 0b1010111#7 := by
  rw [rowMatches_iff_slices (slices := [(0, 7)]) w (by decide) (by decide)]
  simp [rowVectorSpace]

/-- The six CSR rows have opcode 0x73. -/
theorem rowMatches_csr_eq_false {w : BitVec 32} (hop : w.extractLsb' 0 7 = 0b1010111#7) {r : OpcodeRow}
    (hr : r ∈ [rowCsrrw, rowCsrrs, rowCsrrc, rowCsrrwi, rowCsrrsi, rowCsrrci]) : rowMatches r w = false := by
  have hrows : ∀ r ∈ [rowCsrrw, rowCsrrs, rowCsrrc, rowCsrrwi, rowCsrrsi, rowCsrrci],
      r.mask &&& rowVectorSpace.mask = rowVectorSpace.mask ∧
        r.pattern &&& rowVectorSpace.mask ≠ rowVectorSpace.pattern := by decide
  obtain ⟨hmask, hpattern⟩ := hrows r hr
  have hvector := (rowMatches_vectorSpace_iff w).mpr hop
  rw [rowMatches, beq_iff_eq] at hvector
  rw [rowMatches, beq_eq_false_iff_ne]
  intro hcsr
  exact hpattern ((and_of_and hcsr _ hmask).symm.trans hvector)

/-! ### `decode` on opcode 0x57 -/

/-- What `decode` answers on opcode 0x57, by bits 14:12 and the bits above bit 24. -/
theorem decode_of_vectorOpcode {w : BitVec 32} (hop : w.extractLsb' 0 7 = 0b1010111#7) :
    decode w =
      if w.extractLsb' 12 3 = 0b111#3 then
        if w.extractLsb' 31 1 = 0b0#1 then .ok (.vsetvli (rdField w) (rs1Field w) (zimm11Field w))
        else if w.extractLsb' 30 2 = 0b11#2 then .ok (.vsetivli (rdField w) (rs1Field w) (zimm10Field w))
        else if w.extractLsb' 25 7 = 0b1000000#7 then .ok (.vsetvl (rdField w) (rs1Field w) (rs2Field w))
        else .error .reservedConfig
      else .error .vectorOutOfScope := by
  have hcsr := @rowMatches_csr_eq_false w hop
  simp only [decode, hcsr (r := rowCsrrw) (by simp), hcsr (r := rowCsrrs) (by simp), hcsr (r := rowCsrrc) (by simp),
    hcsr (r := rowCsrrwi) (by simp), hcsr (r := rowCsrrsi) (by simp), hcsr (r := rowCsrrci) (by simp),
    rowMatches_vsetvli_iff, rowMatches_vsetivli_iff, rowMatches_vsetvl_iff, rowMatches_configSpace_iff,
    rowMatches_vectorSpace_iff, hop, true_and, if_true, Bool.false_eq_true, if_false]
  by_cases hf : w.extractLsb' 12 3 = 0b111#3 <;> simp [hf]

/-- A word that decodes to a configuration instruction has the opcode and bits 14:12 its row fixes. -/
theorem configFields_of_decode {w : BitVec 32} {i : Instr} (hd : decode w = .ok i) (hi : isConfig i = true) :
    w.extractLsb' 0 7 = 0b1010111#7 ∧ w.extractLsb' 12 3 = 0b111#3 := by
  have hrow := decode_ok hd
  cases i with
  | vsetvli rd rs1 zimm =>
    obtain ⟨hmatch, -⟩ := by simpa using hrow
    obtain ⟨hop, hfunct, -⟩ := (rowMatches_vsetvli_iff w).mp hmatch
    exact ⟨hop, hfunct⟩
  | vsetivli rd uimm zimm =>
    obtain ⟨hmatch, -⟩ := by simpa using hrow
    obtain ⟨hop, hfunct, -⟩ := (rowMatches_vsetivli_iff w).mp hmatch
    exact ⟨hop, hfunct⟩
  | vsetvl rd rs1 rs2 =>
    obtain ⟨hmatch, -⟩ := by simpa using hrow
    obtain ⟨hop, hfunct, -⟩ := (rowMatches_vsetvl_iff w).mp hmatch
    exact ⟨hop, hfunct⟩
  | csrrw _ _ _ | csrrs _ _ _ | csrrc _ _ _ | csrrwi _ _ _ | csrrsi _ _ _ | csrrci _ _ _ =>
    exact absurd hi (by simp [isConfig])

/-! ### The patterns exclude each other -/

/-- A slice of a slice is a slice of the word. -/
theorem extract_extract (w : BitVec 32) (a n : Nat) {b m : Nat} (h : b + m ≤ n) :
    (w.extractLsb' a n).extractLsb' b m = w.extractLsb' (a + b) m := by
  apply BitVec.eq_of_getLsbD_eq
  intro i hi
  simp [Nat.add_assoc, (by omega : b + i < n)]

/-- The patterns of R125 as values of the one field that holds them, bits 31:25. -/
theorem upperField_patterns_exclusive : ∀ v : BitVec 7,
    (v.extractLsb' 5 2 = 0b11#2 → v.extractLsb' 6 1 ≠ 0b0#1) ∧
    (v = 0b1000000#7 → v.extractLsb' 6 1 ≠ 0b0#1 ∧ v.extractLsb' 5 2 ≠ 0b11#2) ∧
    (v.extractLsb' 5 2 = 0b10#2 → v.extractLsb' 0 5 ≠ 0#5 →
      v.extractLsb' 6 1 ≠ 0b0#1 ∧ v.extractLsb' 5 2 ≠ 0b11#2 ∧ v ≠ 0b1000000#7) := by decide

/-- On a word, the pattern of each configuration instruction, and the reserved one, excludes those `decode` tries
before it. -/
theorem configPatterns_exclusive (w : BitVec 32) :
    (w.extractLsb' 30 2 = 0b11#2 → w.extractLsb' 31 1 ≠ 0b0#1) ∧
    (w.extractLsb' 25 7 = 0b1000000#7 → w.extractLsb' 31 1 ≠ 0b0#1 ∧ w.extractLsb' 30 2 ≠ 0b11#2) ∧
    (w.extractLsb' 30 2 = 0b10#2 → w.extractLsb' 25 5 ≠ 0#5 →
      w.extractLsb' 31 1 ≠ 0b0#1 ∧ w.extractLsb' 30 2 ≠ 0b11#2 ∧ w.extractLsb' 25 7 ≠ 0b1000000#7) := by
  have h := upperField_patterns_exclusive (w.extractLsb' 25 7)
  rwa [extract_extract w 25 7 (by decide), extract_extract w 25 7 (by decide), extract_extract w 25 7 (by decide)] at h

/-- Settles O4: on opcode 0x57 `decode` is the choice R125 describes, and each pattern excludes those tried before
it. -/
theorem configPatternsAreToldApart : Obligations.ConfigPatternsAreToldApart := by
  refine ⟨fun w i => configFields_of_decode, fun w hop => ?_⟩
  rw [decode_of_vectorOpcode hop]
  obtain ⟨hvsetivli, hvsetvl, hreserved⟩ := configPatterns_exclusive w
  refine ⟨fun hfunct => ?_, fun hfunct => if_neg hfunct⟩
  rw [if_pos hfunct]
  refine ⟨fun h31 => ?_, fun h30 => ?_, fun h25 => ?_, fun h30 h25 => ?_⟩
  · rw [if_pos h31]
    exact ⟨_, _, _, rfl⟩
  · rw [if_neg (hvsetivli h30), if_pos h30]
    exact ⟨_, _, _, rfl⟩
  · obtain ⟨hn31, hn30⟩ := hvsetvl h25
    rw [if_neg hn31, if_neg hn30, if_pos h25]
    exact ⟨_, _, _, rfl⟩
  · obtain ⟨hn31, hn30, hn25⟩ := hreserved h30 h25
    rw [if_neg hn31, if_neg hn30, if_neg hn25]

end Sys2Proof.Proofs
end

