-- ==== Sys2Proof/Proofs/ReadOnlyCsrs.lean ====
section
/-! PROOFS. CSR-access instructions on `vl`, `vtype` and `vlenb` (40_csr_access.md R170). -/

namespace Sys2Proof.Proofs

open Sys2Proof.Machine Sys2Proof.Laws

/-- The CSRs that R170 names by their addresses are those the model keeps read-only. -/
theorem csrReadOnly_iff_mem (csr : Csr) : csrReadOnly csr = true ↔ csr ∈ [Csr.vl, .vtype, .vlenb] := by
  cases csr <;> simp [csrReadOnly]

theorem isVector_of_readOnly {csr : Csr} (h : csrReadOnly csr = true) : csr.isVector = true := by
  cases csr with
  | vl | vtype | vlenb => rfl
  | vstart | vxsat | vxrm | vcsr | base _ => exact absurd h (by simp [csrReadOnly])

/-- The trap of a write does not depend on `VS`: with `VS` = Off the access traps in the same way. -/
theorem exec_write_readOnly {csr : Csr} {i : Instr} (hro : csrReadOnly csr = true) (hi : isCsrAccess csr i = true)
    (hw : doesWrite i = true) (s : State) : exec i s = .next (trapped s) := by
  obtain ⟨rd, g, hexec⟩ := exec_of_write hi hw s
  rw [hexec, accessCsr_readOnly hro]

/-- A form that does not write is legal on every vector CSR, the read-only ones included. -/
theorem exec_read_vector {csr : Csr} {i : Instr} (hv : csr.isVector = true) (hi : isCsrAccess csr i = true)
    (hw : doesWrite i = false) {s : State} (hs : s.vs ≠ .off) : ∃ rd, exec i s = .next (afterRead s csr rd) := by
  obtain ⟨rd, hexec⟩ := exec_of_read hi hw s
  exact ⟨rd, by rw [hexec, accessCsr_read hv rd hs]⟩

/-- Settles O16: a form that writes traps whatever `VS` is, and any other form takes the course of a plain read. -/
theorem readOnlyCsrWritesTrap : Obligations.ReadOnlyCsrWritesTrap := by
  intro s csr i hcsr hi
  have hro : csrReadOnly csr = true := (csrReadOnly_iff_mem csr).mpr hcsr
  refine ⟨fun hw => exec_write_readOnly hro hi hw s, fun hw hs => ?_⟩
  obtain ⟨rd, hexec⟩ := exec_read_vector (isVector_of_readOnly hro) hi hw hs
  obtain ⟨-, hpc, -, -, -, htrap, -⟩ := afterRead_spec s csr rd
  exact ⟨afterRead s csr rd, hexec, htrap, hpc⟩

end Sys2Proof.Proofs
end

