-- ==== Sys2Proof/Proofs/ConfigResult.lean ====
section
/-! PROOFS. What a configuration instruction leaves in `rd` (41_vset_config.md R197). -/

namespace Sys2Proof.Proofs

open Sys2Proof.Machine Sys2Proof.Laws

/-! ### The new configuration is consistent -/

/-- A request that is granted is supported (R192). -/
theorem supports_of_requestedFields {c : Config} {req : Word} {f : VFields} (h : requestedFields c req = some f) :
    supports c f.vsew f.vlmul = true := by
  unfold requestedFields at h
  split at h
  · cases h
  · split at h
    next sew lmul _ _ =>
      split at h
      next hs =>
        cases h
        exact hs
      next => cases h
    next => cases h

/-- No clause of R196 goes above VLMAX. -/
theorem chooseVl_le_vlmax (c : Config) (avl vlmax : Nat) : chooseVl c avl vlmax ≤ vlmax := by
  unfold chooseVl
  split
  · assumption
  · split <;> omega

/-- From a consistent configuration the shared update raises illegal-instruction or installs a consistent one: the Keep
form keeps a `vl` that is at most the old VLMAX, which is the new one. -/
theorem setConfig_consistent {req : Word} {mode : AvlMode} {rd : RegNo} {s t : State}
    (hs : ConfigConsistent s.cfg s.vtype s.vl) (h : setConfig req mode rd s = .next t) :
    t = trapped s ∨ ∃ ty vl, t = installConfig ty vl rd s ∧ ConfigConsistent s.cfg ty vl := by
  rcases setConfig_cases h with ⟨ht, -⟩ | ⟨ht, -, -⟩ | ⟨f, vl, ht, -, hf, hvl⟩
  · exact .inl ht
  · exact .inr ⟨.illegal, 0, ht, rfl⟩
  · refine .inr ⟨.legal f, vl, ht, supports_of_requestedFields hf, ?_⟩
    rcases hvl with ⟨avl, -, rfl⟩ | ⟨-, rfl⟩ | ⟨-, rfl, hkeep⟩
    · exact chooseVl_le_vlmax _ _ _
    · exact le_rfl
    · cases hold : s.vtype with
      | illegal =>
        rw [hold] at hkeep
        cases hkeep
      | legal g =>
        rw [hold] at hs hkeep
        rw [← Option.some.inj hkeep]
        exact hs.2

/-! ### `vl` fits an integer register -/

theorem le_vlen_of_consistent {c : Config} {ty : VType} {vl : Nat} (h : ConfigConsistent c ty vl) : vl ≤ c.vlen := by
  cases ty with
  | illegal => exact le_of_eq_of_le h (Nat.zero_le _)
  | legal f => exact h.2.trans (vlmax_le_vlen c f.vsew f.vlmul)

/-- VLEN is at most 65536, so zero-extension to XLEN bits loses nothing of `vl`. -/
theorem xword_toNat_of_consistent {c : Config} {ty : VType} {vl : Nat} (hc : configValid c = true)
    (h : ConfigConsistent c ty vl) : (xword c vl).toNat = vl := by
  have hle : vl ≤ c.vlen := le_vlen_of_consistent h
  have hvlen : c.vlen ≤ 65536 := (vlen_bounds hc).2
  rw [xword_toNat]
  rcases xlenBits_cases c with hx | hx <;> rw [hx] <;> omega

/-! ### The instruction -/

/-- Each of the three is the shared update on its own destination register. -/
theorem exec_of_config_rdOf {i : Instr} (hi : isConfig i = true) (s : State) :
    ∃ req mode, exec i s = setConfig req mode (rdOf i) s := by
  cases i with
  | vsetvli rd rs1 z => exact ⟨_, _, exec_vsetvli ..⟩
  | vsetivli rd u z => exact ⟨_, _, exec_vsetivli ..⟩
  | vsetvl rd rs1 rs2 => exact ⟨_, _, exec_vsetvl ..⟩
  | csrrw _ _ _ | csrrs _ _ _ | csrrc _ _ _ | csrrwi _ _ _ | csrrsi _ _ _ | csrrci _ _ _ =>
    exact absurd hi (by simp [isConfig])

/-- A configuration instruction that ends with no trap pending installed a consistent configuration. -/
theorem configInstalled_of_exec {i : Instr} {s t : State} (hs : ConfigConsistent s.cfg s.vtype s.vl)
    (hi : isConfig i = true) (h : exec i s = .next t) (htrap : t.trap = none) :
    ConfigConsistent s.cfg t.vtype t.vl ∧ ConfigInstalled s t t.vtype t.vl (rdOf i) := by
  obtain ⟨req, mode, hexec⟩ := exec_of_config_rdOf hi s
  rw [hexec] at h
  rcases setConfig_consistent hs h with rfl | ⟨ty, vl, rfl, hnew⟩
  · exact absurd htrap (by simp)
  · exact ⟨hnew, installConfig_spec ty vl (rdOf i) s⟩

/-- Settles O28: the register file differs in `rd` alone, which holds the new `vl`, and nothing of it is lost. -/
theorem configurationResultIsTheNewVl : Obligations.ConfigurationResultIsTheNewVl := by
  intro i s t hinv _ hi h htrap
  obtain ⟨hnew, -, -, -, -, -, hx, -⟩ := configInstalled_of_exec hinv.configConsistent hi h htrap
  refine ⟨fun hrd => ?_, fun r hr => ?_⟩
  · have hresult : (readX t (rdOf i)).toNat = t.vl := by
      rw [hx, if_pos ⟨rfl, hrd⟩, xword_toNat_of_consistent hinv.cfgValid hnew]
    refine ⟨hresult, fun hvill => ?_⟩
    rw [hvill] at hnew
    have hvl : t.vl = 0 := hnew
    exact BitVec.eq_of_toNat_eq (hresult.trans hvl)
  · exact (hx r).trans (if_neg fun ⟨heq, hrd⟩ => hr.elim (· heq) hrd)

end Sys2Proof.Proofs
end

