-- ==== Sys2Proof/Proofs/VsOff.lean ====
section
/-! PROOFS. What executes with `VS` = Off (60_exceptions.md R281). -/

namespace Sys2Proof.Proofs

open Sys2Proof.Machine Sys2Proof.Laws

/-- The check of `VS` is the first of the frame, so no operand of the frame matters. -/
theorem frameChecks_off (depends requiresZero misnumbered : Bool) (word : BitVec 32) {s : State}
    (work : Host.Outcome State Fault Refusal) (hs : s.vs = .off) :
    frameChecks depends requiresZero misnumbered word s work = .next (trapped s) := by
  rw [frameChecks, if_pos hs, raiseIllegal_eq]

/-- The writing forms and the forms that only read share the check of `VS`. -/
theorem exec_access_off {csr : Csr} {i : Instr} (hv : csr.isVector = true) (hi : isCsrAccess csr i = true) {s : State}
    (hs : s.vs = .off) : exec i s = .next (trapped s) := by
  cases hw : doesWrite i with
  | true =>
    obtain ⟨rd, g, hexec⟩ := exec_of_write hi hw s
    rw [hexec, accessCsr_off hv rd (some g) hs]
  | false =>
    obtain ⟨rd, hexec⟩ := exec_of_read hi hw s
    rw [hexec, accessCsr_off hv rd none hs]

theorem exec_config_off {i : Instr} (hi : isConfig i = true) {s : State} (hs : s.vs = .off) :
    exec i s = .next (trapped s) := by
  obtain ⟨req, mode, rd, hexec⟩ := exec_of_config hi s
  rw [hexec, setConfig_off req mode rd hs]

/-- A word that the scope leaves out meets the checks of the frame before it is refused (R125). -/
theorem undecoded_vector_off (w : BitVec 32) {s : State} (hs : s.vs = .off) :
    undecoded .vectorOutOfScope w s = .next (trapped s) :=
  frameChecks_off true (Config.requiresVstartZero s.cfg w) false w _ hs

/-- What follows the exception in the step, the spontaneous transition, touches `VS` and the draws alone. -/
theorem stepTrapsIllegal_of_undecoded {s : State} {w : BitVec 32} {e : DecodeError} (ht : s.trap = none)
    (hf : fetch s = .word w) (hd : decode w = .error e) (hu : undecoded e w s = .next (trapped s)) :
    StepTrapsIllegal s := by
  have hstep : step s = .next (spontaneousDirty (trapped s)) := by
    rw [step_of_undecoded ht hf hd, hu, betweenInstructions]
  exact ⟨_, hstep, rfl, ⟨rfl, rfl, rfl, rfl, rfl, rfl⟩, rfl, rfl⟩

/-- Settles O17: each of the four courses checks `VS` before anything else. -/
theorem vsOffTrapsEverything : Obligations.VsOffTrapsEverything := by
  intro s hs
  refine ⟨fun csr i hv hi => ?access, fun i hi => ?config, fun I stop => ?frame, fun w ht hf hd => ?word⟩
  case access => exact exec_access_off hv hi hs
  case config => exact exec_config_off hi hs
  case frame => exact frameChecks_off _ _ _ _ _ hs
  case word => exact stepTrapsIllegal_of_undecoded ht hf hd (undecoded_vector_off w hs)

end Sys2Proof.Proofs
end

