-- ==== Sys2Proof/Proofs/OpcodeMap.lean ====
section
/-! PROOFS. The decoder, the encoder and the opcode map agree (30_encoding.md R121 to R124, R135). -/

namespace Sys2Proof.Proofs

open Sys2Proof.Machine Sys2Proof.Laws

/-! ### The rows exclude each other -/

/-- No two rows agree where both masks look. -/
theorem opcodeMap_separated : ∀ r ∈ opcodeMap, ∀ r' ∈ opcodeMap,
    r.pattern &&& r'.mask = r'.pattern &&& r.mask → r = r' := by decide

theorem opcodeMap_disjoint {w : BitVec 32} {r r' : OpcodeRow} (hr : r ∈ opcodeMap) (hr' : r' ∈ opcodeMap)
    (h : w &&& r.mask = r.pattern) (h' : w &&& r'.mask = r'.pattern) : r = r' := by
  apply opcodeMap_separated r hr r' hr'
  rw [← h, ← h', BitVec.and_assoc, BitVec.and_assoc, BitVec.and_comm r.mask]

theorem rowOf_mem (i : Instr) : rowOf i ∈ opcodeMap := by
  cases i <;> simp [rowOf, opcodeMap]

/-! ### `decode` by rows -/

/-- The instruction whose row has this pattern, with the fields of `w` as its operands. -/
def instrOfPattern (pattern w : BitVec 32) : Instr :=
  if pattern = rowCsrrw.pattern then .csrrw (rdField w) (csrOfAddr (csrField w)) (rs1Field w)
  else if pattern = rowCsrrs.pattern then .csrrs (rdField w) (csrOfAddr (csrField w)) (rs1Field w)
  else if pattern = rowCsrrc.pattern then .csrrc (rdField w) (csrOfAddr (csrField w)) (rs1Field w)
  else if pattern = rowCsrrwi.pattern then .csrrwi (rdField w) (csrOfAddr (csrField w)) (rs1Field w)
  else if pattern = rowCsrrsi.pattern then .csrrsi (rdField w) (csrOfAddr (csrField w)) (rs1Field w)
  else if pattern = rowCsrrci.pattern then .csrrci (rdField w) (csrOfAddr (csrField w)) (rs1Field w)
  else if pattern = rowVsetvli.pattern then .vsetvli (rdField w) (rs1Field w) (zimm11Field w)
  else if pattern = rowVsetivli.pattern then .vsetivli (rdField w) (rs1Field w) (zimm10Field w)
  else .vsetvl (rdField w) (rs1Field w) (rs2Field w)

/-- The instruction of the row of `i` with the fields of `w` as its operands. -/
abbrev refill (i : Instr) (w : BitVec 32) : Instr := instrOfPattern (rowOf i).pattern w

/-- A word that decodes matches the row of its instruction, whose operands are the fields of the word. -/
theorem decode_ok_row {w : BitVec 32} {i : Instr} (h : decode w = .ok i) :
    w &&& (rowOf i).mask = (rowOf i).pattern ∧ refill i w = i := by
  rcases decode_ok h with ⟨hr, rfl⟩ | ⟨hr, rfl⟩ | ⟨hr, rfl⟩ | ⟨hr, rfl⟩ | ⟨hr, rfl⟩ | ⟨hr, rfl⟩ | ⟨hr, rfl⟩ |
    ⟨hr, rfl⟩ | ⟨hr, rfl⟩ <;> exact ⟨beq_iff_eq.mp hr, rfl⟩

theorem ite_ok_eq_error {ε α : Type} {c : Prop} [Decidable c] {a : α} {x : Except ε α} {e : ε}
    (h : (if c then .ok a else x) = .error e) : ¬c ∧ x = .error e := by
  split at h
  · cases h
  · exact ⟨‹_›, h⟩

/-- A word of no instruction matches no row. -/
theorem rowMatches_of_decode_error {w : BitVec 32} {e : DecodeError} (h : decode w = .error e) :
    ∀ r ∈ opcodeMap, ¬rowMatches r w = true := by
  unfold decode at h
  obtain ⟨hcsrrw, h⟩ := ite_ok_eq_error h
  obtain ⟨hcsrrs, h⟩ := ite_ok_eq_error h
  obtain ⟨hcsrrc, h⟩ := ite_ok_eq_error h
  obtain ⟨hcsrrwi, h⟩ := ite_ok_eq_error h
  obtain ⟨hcsrrsi, h⟩ := ite_ok_eq_error h
  obtain ⟨hcsrrci, h⟩ := ite_ok_eq_error h
  obtain ⟨hvsetvli, h⟩ := ite_ok_eq_error h
  obtain ⟨hvsetivli, h⟩ := ite_ok_eq_error h
  obtain ⟨hvsetvl, -⟩ := ite_ok_eq_error h
  simp only [opcodeMap, List.forall_mem_cons]
  exact ⟨hcsrrw, hcsrrs, hcsrrc, hcsrrwi, hcsrrsi, hcsrrci, hvsetvli, hvsetivli, hvsetvl, by simp⟩

/-- A word that matches the row of an instruction decodes to the instruction of that row. -/
theorem decode_of_row {w : BitVec 32} (i : Instr) (h : w &&& (rowOf i).mask = (rowOf i).pattern) :
    decode w = .ok (refill i w) := by
  cases hd : decode w with
  | error e => exact absurd (beq_iff_eq.mpr h) (rowMatches_of_decode_error hd _ (rowOf_mem i))
  | ok j =>
    obtain ⟨hj, hfill⟩ := decode_ok_row hd
    rw [← hfill, refill, refill, opcodeMap_disjoint (rowOf_mem j) (rowOf_mem i) hj h]

/-! ### The encoder's word -/

/-- The word of an instruction matches the instruction's row. -/
theorem encode_row (i : Instr) : encode i &&& (rowOf i).mask = (rowOf i).pattern := by
  cases i with
  | csrrw rd csr rs1 => exact EncodeMatchesRow.csrrw rd csr rs1
  | csrrs rd csr rs1 => exact EncodeMatchesRow.csrrs rd csr rs1
  | csrrc rd csr rs1 => exact EncodeMatchesRow.csrrc rd csr rs1
  | csrrwi rd csr uimm => exact EncodeMatchesRow.csrrwi rd csr uimm
  | csrrsi rd csr uimm => exact EncodeMatchesRow.csrrsi rd csr uimm
  | csrrci rd csr uimm => exact EncodeMatchesRow.csrrci rd csr uimm
  | vsetvli rd rs1 zimm => exact EncodeMatchesRow.vsetvli rd rs1 zimm
  | vsetivli rd uimm zimm => exact EncodeMatchesRow.vsetivli rd uimm zimm
  | vsetvl rd rs1 rs2 => exact EncodeMatchesRow.vsetvl rd rs1 rs2

/-- The fields of the word of an instruction are its operands. -/
theorem refill_encode {i : Instr} (h : i.wellFormed = true) : refill i (encode i) = i := by
  have format_csr : ∀ {csr : Csr}, csr.isVector = true → ∀ (rs1 : BitVec 5) (f : BitVec 3) (rd : RegNo)
      (C : RegNo → Csr → BitVec 5 → Instr),
      C (rdField (encodeCsr (csrAddr csr) rs1 f rd)) (csrOfAddr (csrField (encodeCsr (csrAddr csr) rs1 f rd)))
        (rs1Field (encodeCsr (csrAddr csr) rs1 f rd)) = C rd csr rs1 := by
    intro csr hv rs1 f rd C
    obtain ⟨hrd, hrs1, hcsr⟩ := fields_encodeCsr (csrAddr csr) rs1 f rd
    rw [hrd, hrs1, hcsr, csrOfAddr_csrAddr csr hv]
  cases i with
  | csrrw rd csr rs1 => exact format_csr h _ _ _ Instr.csrrw
  | csrrs rd csr rs1 => exact format_csr h _ _ _ Instr.csrrs
  | csrrc rd csr rs1 => exact format_csr h _ _ _ Instr.csrrc
  | csrrwi rd csr uimm => exact format_csr h _ _ _ Instr.csrrwi
  | csrrsi rd csr uimm => exact format_csr h _ _ _ Instr.csrrsi
  | csrrci rd csr uimm => exact format_csr h _ _ _ Instr.csrrci
  | vsetvli rd rs1 zimm =>
    obtain ⟨hrd, hrs1, hzimm⟩ := fields_encodeVsetvli zimm rs1 rd
    exact congr (congrArg₂ Instr.vsetvli hrd hrs1) hzimm
  | vsetivli rd uimm zimm =>
    obtain ⟨hrd, huimm, hzimm⟩ := fields_encodeVsetivli zimm uimm rd
    exact congr (congrArg₂ Instr.vsetivli hrd huimm) hzimm
  | vsetvl rd rs1 rs2 =>
    obtain ⟨hrd, hrs1, hrs2⟩ := fields_encodeVsetvl rs2 rs1 rd
    exact congr (congrArg₂ Instr.vsetvl hrd hrs1) hrs2

/-- Settles O1. The table's word has 32 bits, so nothing is cut from it. -/
theorem encodeThenDecodeIsIdentity : Obligations.EncodeThenDecodeIsIdentity := by
  intro i hi
  have hdecode : decode (encode i) = .ok i := by rw [decode_of_row i (encode_row i), refill_encode hi]
  refine ⟨hdecode, ?_⟩
  have hword : BitVec.ofNat 32 ((encode i).toNat % 2 ^ 32) = encode i := by
    rw [Nat.mod_eq_of_lt (encode i).isLt, BitVec.ofNat_toNat, BitVec.setWidth_eq]
  simp only [decodeTableWord, hword, wordBytes, decodeBytes, wordOfBytes_wordBytes, hdecode, Except.map]

/-! ### A word is its fixed bits and its fields -/

/-- Words that agree under a mask and on slices that cover the rest are equal. -/
theorem eq_of_mask_of_slices {w w' m : BitVec 32} (slices : List (Nat × Nat)) (hm : w &&& m = w' &&& m)
    (hs : ∀ s ∈ slices, w.extractLsb' s.1 s.2 = w'.extractLsb' s.1 s.2)
    (hcover : ∀ i < 32, m.getLsbD i = true ∨ inSlices slices i = true) : w = w' := by
  apply BitVec.eq_of_getLsbD_eq
  intro i hi
  rcases hcover i hi with hbit | hslice
  · have := congrArg (fun v => v.getLsbD i) hm
    simpa [hbit] using this
  · rw [inSlices, List.any_eq_true] at hslice
    obtain ⟨s, hmem, hin⟩ := hslice
    obtain ⟨hle, hlt⟩ := of_decide_eq_true hin
    have := (extract_eq_iff s.1 s.2).mp (hs s hmem) (i - s.1) (by omega)
    rwa [Nat.add_sub_cancel' hle] at this

/-- A word of a row with format CSR is the encoding of its fields. -/
theorem encodeCsr_fields {w : BitVec 32} {f : BitVec 3} (h : w &&& 0x0000707F#32 = encodeCsr 0 0 f 0) :
    encodeCsr (csrField w) (rs1Field w) f (rdField w) = w := by
  obtain ⟨hrd, hrs1, hcsr⟩ := fields_encodeCsr (csrField w) (rs1Field w) f (rdField w)
  refine eq_of_mask_of_slices [(7, 5), (15, 5), (20, 12)] ((encodeCsr_and _ _ _ _).trans h.symm) ?_ (by decide)
  simp only [List.forall_mem_cons]
  exact ⟨hrd, hrs1, hcsr, by simp⟩

theorem encodeVsetvli_fields {w : BitVec 32} (h : w &&& 0x8000707F#32 = 0x00007057#32) :
    encodeVsetvli (zimm11Field w) (rs1Field w) (rdField w) = w := by
  obtain ⟨hrd, hrs1, hzimm⟩ := fields_encodeVsetvli (zimm11Field w) (rs1Field w) (rdField w)
  refine eq_of_mask_of_slices [(7, 5), (15, 5), (20, 11)] ((encodeVsetvli_and _ _ _).trans h.symm) ?_ (by decide)
  simp only [List.forall_mem_cons]
  exact ⟨hrd, hrs1, hzimm, by simp⟩

theorem encodeVsetivli_fields {w : BitVec 32} (h : w &&& 0xC000707F#32 = 0xC0007057#32) :
    encodeVsetivli (zimm10Field w) (rs1Field w) (rdField w) = w := by
  obtain ⟨hrd, huimm, hzimm⟩ := fields_encodeVsetivli (zimm10Field w) (rs1Field w) (rdField w)
  refine eq_of_mask_of_slices [(7, 5), (15, 5), (20, 10)] ((encodeVsetivli_and _ _ _).trans h.symm) ?_ (by decide)
  simp only [List.forall_mem_cons]
  exact ⟨hrd, huimm, hzimm, by simp⟩

theorem encodeVsetvl_fields {w : BitVec 32} (h : w &&& 0xFE00707F#32 = 0x80007057#32) :
    encodeVsetvl (rs2Field w) (rs1Field w) (rdField w) = w := by
  obtain ⟨hrd, hrs1, hrs2⟩ := fields_encodeVsetvl (rs2Field w) (rs1Field w) (rdField w)
  refine eq_of_mask_of_slices [(7, 5), (15, 5), (20, 5)] ((encodeVsetvl_and _ _ _).trans h.symm) ?_ (by decide)
  simp only [List.forall_mem_cons]
  exact ⟨hrd, hrs1, hrs2, by simp⟩

/-- A word that matches a row is the encoding of the instruction of that row with the word's fields. -/
theorem encode_refill {w : BitVec 32} (i : Instr) (h : w &&& (rowOf i).mask = (rowOf i).pattern) :
    encode (refill i w) = w := by
  have format_csr : ∀ f, w &&& 0x0000707F#32 = encodeCsr 0 0 f 0 →
      encodeCsr (csrAddr (csrOfAddr (csrField w))) (rs1Field w) f (rdField w) = w := fun f hf => by
    rw [csrAddr_csrOfAddr, encodeCsr_fields hf]
  cases i with
  | csrrw _ _ _ => exact format_csr 0b001#3 h
  | csrrs _ _ _ => exact format_csr 0b010#3 h
  | csrrc _ _ _ => exact format_csr 0b011#3 h
  | csrrwi _ _ _ => exact format_csr 0b101#3 h
  | csrrsi _ _ _ => exact format_csr 0b110#3 h
  | csrrci _ _ _ => exact format_csr 0b111#3 h
  | vsetvli _ _ _ => exact encodeVsetvli_fields h
  | vsetivli _ _ _ => exact encodeVsetivli_fields h
  | vsetvl _ _ _ => exact encodeVsetvl_fields h

/-- Settles O2: the row fixes the bits that are no operand, and the operands are the other bits. -/
theorem decodedWordIsItsEncoding : Obligations.DecodedWordIsItsEncoding := by
  intro w i h
  obtain ⟨hrow, hfill⟩ := decode_ok_row h
  rw [← hfill, encode_refill i hrow]

/-! ### The opcode map (R135) -/

theorem csrOfAddr_isVector_iff (a : BitVec 12) : (csrOfAddr a).isVector = true ↔
    a ∈ [0x008#12, 0x009#12, 0x00A#12, 0x00F#12, 0xC20#12, 0xC21#12, 0xC22#12] := by
  simp only [List.mem_cons, List.not_mem_nil, or_false]
  unfold csrOfAddr
  split_ifs <;> simp [Csr.isVector, *]

/-- Settles O3. Each row is named by one instruction of it: the operands of that instruction are not looked at. -/
theorem decodeFollowsOpcodeMap : Obligations.DecodeFollowsOpcodeMap := by
  refine ⟨fun w r r' hr hr' h h' => opcodeMap_disjoint hr hr' h h', fun w => ?_, by decide, csrOfAddr_isVector_iff⟩
  refine ⟨⟨fun h => ⟨_, _, _, decode_of_row (.csrrw 0 .vl 0) h⟩, fun ⟨_, _, _, hd⟩ => (decode_ok_row hd).1⟩,
    ⟨fun h => ⟨_, _, _, decode_of_row (.csrrs 0 .vl 0) h⟩, fun ⟨_, _, _, hd⟩ => (decode_ok_row hd).1⟩,
    ⟨fun h => ⟨_, _, _, decode_of_row (.csrrc 0 .vl 0) h⟩, fun ⟨_, _, _, hd⟩ => (decode_ok_row hd).1⟩,
    ⟨fun h => ⟨_, _, _, decode_of_row (.csrrwi 0 .vl 0) h⟩, fun ⟨_, _, _, hd⟩ => (decode_ok_row hd).1⟩,
    ⟨fun h => ⟨_, _, _, decode_of_row (.csrrsi 0 .vl 0) h⟩, fun ⟨_, _, _, hd⟩ => (decode_ok_row hd).1⟩,
    ⟨fun h => ⟨_, _, _, decode_of_row (.csrrci 0 .vl 0) h⟩, fun ⟨_, _, _, hd⟩ => (decode_ok_row hd).1⟩,
    ⟨fun h => ⟨_, _, _, decode_of_row (.vsetvli 0 0 0) h⟩, fun ⟨_, _, _, hd⟩ => (decode_ok_row hd).1⟩,
    ⟨fun h => ⟨_, _, _, decode_of_row (.vsetivli 0 0 0) h⟩, fun ⟨_, _, _, hd⟩ => (decode_ok_row hd).1⟩,
    ⟨fun h => ⟨_, _, _, decode_of_row (.vsetvl 0 0 0) h⟩, fun ⟨_, _, _, hd⟩ => (decode_ok_row hd).1⟩⟩

/-- Settles O5. -/
theorem exampleWordsDecode : Obligations.ExampleWordsDecode :=
  ⟨by decide, by decide, by decide, by decide, by decide, by decide, by decide, by decide, by decide⟩

end Sys2Proof.Proofs
end

