-- ==== Sys2Proof/Proofs/MachineInvariant.lean ====
section
/-! PROOFS. What every instruction of the table leaves, and the invariant of the machine (10_state.md, 60_exceptions.md
section 1, 70_reset_and_hazards.md section 1). -/

namespace Sys2Proof.Proofs

open Sys2Proof.Machine Sys2Proof.Laws

/-! ### `vtype` and `vl` -/

/-- Settles O30: every way another instruction ends in a next state keeps both. -/
theorem onlyConfigurationChangesVtypeAndVl : Obligations.OnlyConfigurationChangesVtypeAndVl := by
  intro i s t h hne
  rcases exec_cases h with rfl | ⟨csr, rd, rfl, -⟩ | ⟨csr, rd, w, rfl, -⟩ | ⟨rd, -, hi, -⟩ | ⟨f, vl, rd, -, hi, -⟩
  · simp at hne
  · simp at hne
  · simp at hne
  · exact hi
  · exact hi

/-- Every instruction of the table leaves `vtype` and `vl` consistent. -/
theorem exec_consistent {i : Instr} {s t : State} (h : exec i s = .next t)
    (hs : ConfigConsistent s.cfg s.vtype s.vl) : ConfigConsistent t.cfg t.vtype t.vl := by
  cases hi : isConfig i with
  | false =>
    have hkeep : ¬(t.vtype ≠ s.vtype ∨ t.vl ≠ s.vl) := fun hne => by
      simpa [hi] using onlyConfigurationChangesVtypeAndVl i s t h hne
    simp only [ne_eq, not_or, not_not] at hkeep
    rw [hkeep.1, hkeep.2, (exec_fixed h).1]
    exact hs
  | true =>
    obtain ⟨req, mode, rd, hexec⟩ := exec_of_config hi s
    rw [hexec] at h
    rcases setConfig_consistent hs h with rfl | ⟨ty, vl, rfl, hnew⟩
    · exact hs
    · exact hnew

/-! ### `pc` -/

/-- An instruction of the table raises its exception and changes nothing else, or completes. -/
theorem exec_trapped_or_completed {i : Instr} {s t : State} (h : exec i s = .next t) :
    t = trapped s ∨ (t.trap = s.trap ∧ t.pc = (advancePc s).pc) := by
  rcases exec_cases h with rfl | ⟨csr, rd, rfl, -⟩ | ⟨csr, rd, w, rfl, -⟩ | ⟨rd, rfl, -⟩ | ⟨f, vl, rd, rfl, -⟩
  · exact .inl rfl
  · exact .inr ⟨rfl, rfl⟩
  · exact .inr ⟨rfl, rfl⟩
  · exact .inr ⟨rfl, rfl⟩
  · exact .inr ⟨rfl, rfl⟩

/-- Settles O32. -/
theorem raisedExceptionChangesNothing : Obligations.RaisedExceptionChangesNothing := by
  intro i s t hs h ht
  rcases exec_trapped_or_completed h with rfl | ⟨htrap, -⟩
  · rfl
  · exact absurd (htrap.trans hs) ht

theorem fetch_of_misaligned {s : State} (h : (readPc s).toNat % fetchAlignment s.cfg ≠ 0) : fetch s = .misaligned := by
  rw [fetch, if_pos h]

theorem step_of_misaligned {s : State} (hs : s.trap = none) (h : (readPc s).toNat % fetchAlignment s.cfg ≠ 0) :
    step s = .refused (.misalignedFetch (readPc s)) := by
  simp only [step, hs, fetch_of_misaligned h, betweenInstructions]

/-- Settles O29: a misaligned `pc` is refused before anything is executed. -/
theorem completedInstructionsAdvancePc : Obligations.CompletedInstructionsAdvancePc := by
  refine ⟨fun i s t hs h => ?_, fun s => zx_toNat_lt s.cfg s.pc, fun s t hs h => ?_⟩
  · rcases exec_trapped_or_completed h with rfl | ⟨htrap, hpc⟩
    · exact ⟨fun hnone => absurd hnone (by simp), fun _ => rfl⟩
    · exact ⟨fun _ => pcAdvanced_of (exec_fixed h).1 hpc, fun hne => absurd (htrap.trans hs) hne⟩
  · by_contra hne
    rw [step_of_misaligned hs hne] at h
    cases h

/-! ### Vector registers -/

/-- The outcome with other contents in the vector registers of a next state. -/
def outcomeWithVreg (v : Vector Nat 32) : Host.Outcome State Fault Refusal → Host.Outcome State Fault Refusal
  | .next t => .next { t with vreg := v }
  | .fault r => .fault r
  | .refused r => .refused r

theorem csrRead_withVreg (s : State) (v : Vector Nat 32) (csr : Csr) :
    csrRead { s with vreg := v } csr = csrRead s csr := by
  cases csr <;> rfl

/-- The comparison of the `VS` rule does not see registers that are the same before and after. -/
theorem applyDirty_withVreg {s u : State} (h : u.vreg = s.vreg) (v : Vector Nat 32) :
    applyDirty { s with vreg := v } { u with vreg := v } = { applyDirty s u with vreg := v } := by
  simp [applyDirty, vectorStateChanged, h]

theorem afterWrite_withVreg (s : State) (v : Vector Nat 32) (csr : Csr) (rd : RegNo) (w : Word) :
    afterWrite { s with vreg := v } csr rd w = { afterWrite s csr rd w with vreg := v } := by
  have h := applyDirty_withVreg (s := s) (u := setX (csrWrite s csr w) rd (csrRead s csr)) rfl v
  rw [afterWrite, csrRead_withVreg]
  exact congrArg advancePc h

theorem installConfig_withVreg (ty : VType) (vl : Nat) (rd : RegNo) (s : State) (v : Vector Nat 32) :
    installConfig ty vl rd { s with vreg := v } = { installConfig ty vl rd s with vreg := v } :=
  congrArg advancePc (applyDirty_withVreg (s := s)
    (u := setX { s with vtype := ty, vl := vl, vstart := 0 } rd (xword s.cfg vl)) rfl v)

theorem accessCsr_withVreg (csr : Csr) (rd : RegNo) (f : Option (Word → Word)) (s : State) (v : Vector Nat 32) :
    accessCsr csr rd f { s with vreg := v } = outcomeWithVreg v (accessCsr csr rd f s) := by
  by_cases hv : csr.isVector = true
  · by_cases hs : s.vs = .off
    · rw [accessCsr_off hv rd f hs, accessCsr_off hv rd f (s := { s with vreg := v }) hs]
      rfl
    · cases f with
      | none =>
        rw [accessCsr_read hv rd hs, accessCsr_read hv rd (s := { s with vreg := v }) hs, afterRead, csrRead_withVreg]
        rfl
      | some g =>
        by_cases hro : csrReadOnly csr = true
        · rw [accessCsr_readOnly hro, accessCsr_readOnly hro]
          rfl
        · have hrw : csrReadWrite csr = true := by
            cases csr <;> simp_all [csrReadOnly, csrReadWrite, Csr.isVector]
          rw [accessCsr_write hrw rd g hs, accessCsr_write hrw rd g (s := { s with vreg := v }) hs, csrRead_withVreg,
            afterWrite_withVreg]
          rfl
  · cases csr with
    | base addr => rfl
    | _ => exact absurd rfl hv

theorem setConfig_withVreg (req : Word) (mode : AvlMode) (rd : RegNo) (s : State) (v : Vector Nat 32) :
    setConfig req mode rd { s with vreg := v } = outcomeWithVreg v (setConfig req mode rd s) := by
  simp only [setConfig]
  split
  · rfl
  · cases requestedFields s.cfg req with
    | none => exact congrArg _ (installConfig_withVreg _ _ _ _ _)
    | some f =>
      cases mode with
      | value avl => exact congrArg _ (installConfig_withVreg _ _ _ _ _)
      | max => exact congrArg _ (installConfig_withVreg _ _ _ _ _)
      | keep =>
        simp only
        split
        · exact congrArg _ (installConfig_withVreg _ _ _ _ _)
        · unfold reservedUse
          split <;> rfl

/-- Settles O31: neither shared course looks at a vector register. -/
theorem vectorRegistersAreNeitherReadNorWritten : Obligations.VectorRegistersAreNeitherReadNorWritten := by
  intro i s v
  have hexec : exec i { s with vreg := v } = outcomeWithVreg v (exec i s) := by
    cases i with
    | csrrw rd csr rs1 => exact exec_csrrw .. ▸ accessCsr_withVreg csr rd _ s v
    | csrrs rd csr rs1 => exact exec_csrrs .. ▸ accessCsr_withVreg csr rd _ s v
    | csrrc rd csr rs1 => exact exec_csrrc .. ▸ accessCsr_withVreg csr rd _ s v
    | csrrwi rd csr uimm => exact exec_csrrwi .. ▸ accessCsr_withVreg csr rd _ s v
    | csrrsi rd csr uimm => exact exec_csrrsi .. ▸ accessCsr_withVreg csr rd _ s v
    | csrrci rd csr uimm => exact exec_csrrci .. ▸ accessCsr_withVreg csr rd _ s v
    | vsetvli rd rs1 zimm => exact exec_vsetvli .. ▸ setConfig_withVreg _ _ rd s v
    | vsetivli rd uimm zimm => exact exec_vsetivli .. ▸ setConfig_withVreg _ _ rd s v
    | vsetvl rd rs1 rs2 => exact exec_vsetvl .. ▸ setConfig_withVreg _ _ rd s v
  rw [hexec]
  cases exec i s <;> rfl

/-! ### The `VS` rule along steps and runs (10_state.md R27) -/

theorem sameVectorState_trans {s t u : State} (h : SameVectorState s t) (h' : SameVectorState t u) :
    SameVectorState s u := by
  obtain ⟨hvreg, hvtype, hvl, hvstart, hvxrm, hvxsat⟩ := h
  obtain ⟨hvreg', hvtype', hvl', hvstart', hvxrm', hvxsat'⟩ := h'
  exact ⟨hvreg'.trans hvreg, hvtype'.trans hvtype, hvl'.trans hvl, hvstart'.trans hvstart, hvxrm'.trans hvxrm,
    hvxsat'.trans hvxsat⟩

/-- What keeps the vector state may keep `VS` too. -/
theorem vsObeysDirtyRule_of_same {s t : State} (hvs : t.vs = s.vs) (h : SameVectorState s t) : VsObeysDirtyRule s t :=
  ⟨hvs.trans, hvs.trans, .inl hvs, fun _ hn => absurd h hn⟩

theorem vsObeysDirtyRule_trans {s t u : State} (h : VsObeysDirtyRule s t) (h' : VsObeysDirtyRule t u) :
    VsObeysDirtyRule s u := by
  obtain ⟨hoff, hdirty, hmove, hchange⟩ := h
  obtain ⟨hoff', hdirty', hmove', hchange'⟩ := h'
  refine ⟨fun h => hoff' (hoff h), fun h => hdirty' (hdirty h), ?_, fun hclean hne => ?_⟩
  · rcases hmove with hmove | hmove
    · exact hmove ▸ hmove'
    · exact .inr (hdirty' hmove)
  · by_cases hst : SameVectorState s t
    · rcases hmove with hmove | hmove
      · exact hchange' (hmove ▸ hclean) fun htu => hne (sameVectorState_trans hst htu)
      · exact hdirty' hmove
    · exact hdirty' (hchange hclean hst)

theorem vsObeysDirtyRule_spontaneousDirty (s : State) : VsObeysDirtyRule s (spontaneousDirty s) := by
  refine ⟨fun h => ?_, fun h => ?_, vsAfter_cases _ _ _, fun _ hne => absurd ⟨rfl, rfl, rfl, rfl, rfl, rfl⟩ hne⟩
  · rw [spontaneousDirty_vs, h, vsAfter_off]
  · rw [spontaneousDirty_vs, h, vsAfter_dirty]

theorem vsObeysDirtyRule_trapped (s : State) : VsObeysDirtyRule s (trapped s) :=
  vsObeysDirtyRule_of_same rfl ⟨rfl, rfl, rfl, rfl, rfl, rfl⟩

theorem vsObeysDirtyRule_exec {i : Instr} {s t : State} (h : exec i s = .next t) : VsObeysDirtyRule s t := by
  rcases exec_cases h with rfl | ⟨csr, rd, rfl, -⟩ | ⟨csr, rd, w, rfl, -⟩ | ⟨rd, rfl, -⟩ | ⟨f, vl, rd, rfl, -⟩
  · exact vsObeysDirtyRule_trapped s
  · exact vsObeysDirtyRule_of_same rfl ⟨rfl, rfl, rfl, rfl, rfl, rfl⟩
  · obtain ⟨-, -, -, hvs, -⟩ := afterWrite_spec s csr rd w
    exact hvs
  · obtain ⟨-, -, -, -, -, -, -, hvs, -⟩ := installConfig_spec .illegal 0 rd s
    exact hvs
  · obtain ⟨-, -, -, -, -, -, -, hvs, -⟩ := installConfig_spec (.legal f) vl rd s
    exact hvs

theorem vsObeysDirtyRule_step {s t : State} (h : step s = .next t) : VsObeysDirtyRule s t := by
  obtain ⟨u, rfl, hu⟩ := step_cases h
  refine vsObeysDirtyRule_trans ?_ (vsObeysDirtyRule_spontaneousDirty u)
  rcases hu with ⟨tr, -, rfl⟩ | ⟨-, rfl⟩ | ⟨-, w, i, -, -, hexec⟩
  · exact vsObeysDirtyRule_of_same rfl ⟨rfl, rfl, rfl, rfl, rfl, rfl⟩
  · exact vsObeysDirtyRule_trapped s
  · exact vsObeysDirtyRule_exec hexec

/-- A completing instruction of the frame applies the rule at its end; `pc` is advanced after it. -/
theorem vsObeysDirtyRule_completeVector (I : VInstr) (s : State) : VsObeysDirtyRule s (completeVector I s) :=
  vsObeysDirtyRule_of (by simp) rfl ⟨rfl, rfl, rfl, rfl, rfl, rfl⟩

theorem vsObeysDirtyRule_trapAtElement (I : VInstr) (p : Stop) (s : State) : VsObeysDirtyRule s (trapAtElement I p s) :=
  vsObeysDirtyRule_of (by simp) rfl ⟨rfl, rfl, rfl, rfl, rfl, rfl⟩

/-- Settles O33. -/
theorem vsMovesOnlyToDirty : Obligations.VsMovesOnlyToDirty := by
  refine ⟨fun _ _ => vsObeysDirtyRule_step, fun _ _ _ => vsObeysDirtyRule_exec, fun I stop s t h => ?_⟩
  rcases vectorInstruction_cases h with rfl | ⟨-, rfl⟩ | ⟨p, -, -, -, rfl⟩
  · exact vsObeysDirtyRule_trapped s
  · exact vsObeysDirtyRule_completeVector I s
  · exact vsObeysDirtyRule_trapAtElement I p s

/-- Settles O34: the rule is transitive; and `VS` that is not Dirty at the end is the one of the start, so a change
would have made it Dirty. -/
theorem notDirtyMeansVectorStateUntouched : Obligations.NotDirtyMeansVectorStateUntouched := by
  intro n s t h
  have hrule : VsObeysDirtyRule s t :=
    run_induction (fun s => vsObeysDirtyRule_of_same rfl ⟨rfl, rfl, rfl, rfl, rfl, rfl⟩)
      (fun _ _ _ hstep hrest => vsObeysDirtyRule_trans (vsObeysDirtyRule_step hstep) hrest) n s t h
  refine ⟨hrule, fun hend => ?_⟩
  obtain ⟨-, -, hmove, hchange⟩ := hrule
  have hne : t.vs ≠ .dirty := by rcases hend with h | h <;> simp [h]
  have hsame : t.vs = s.vs := hmove.resolve_right hne
  by_contra hdiff
  exact hne (hchange (hsame ▸ hend) hdiff)

/-! ### The invariant -/

/-- Cutting to XLEN bits after a mask does nothing more than before it. -/
theorem zx_and_zx (c : Config) (v m : Word) : zx c (zx c v &&& m) &&& m = zx c v &&& m := by
  unfold zx
  cases c.xlen
  · apply BitVec.eq_of_getLsbD_eq
    intro i hi
    simp only [BitVec.getLsbD_and, BitVec.getLsbD_setWidth]
    by_cases hlt : i < 32 <;> simp [hlt]
    cases v.getLsbD i <;> cases m.getLsbD i <;> simp [hi]
  · apply BitVec.eq_of_getLsbD_eq
    intro i _
    simp

theorem invariant_spontaneousDirty {s : State} (h : Invariant s) : Invariant (spontaneousDirty s) :=
  ⟨h.cfgValid, h.configConsistent, h.vstartFits, h.vregFits, h.xFits, h.pcFits, h.mstatusFits, h.misaFits, h.textWf,
    h.textInSpace⟩

theorem invariant_trapped {s : State} (h : Invariant s) : Invariant (trapped s) :=
  ⟨h.cfgValid, h.configConsistent, h.vstartFits, h.vregFits, h.xFits, h.pcFits, h.mstatusFits, h.misaFits, h.textWf,
    h.textInSpace⟩

/-- Whatever `Base` makes of its own state is cut to the widths. -/
theorem invariant_takeTrap {s : State} (h : Invariant s) (tr : Trap) : Invariant (takeTrap tr s) where
  cfgValid := h.cfgValid
  configConsistent := h.configConsistent
  vstartFits := h.vstartFits
  vregFits := h.vregFits
  xFits := fun r => by simp
  pcFits := zx_zx _ _
  mstatusFits := zx_and_zx _ _ _
  misaFits := zx_and_zx _ _ _
  textWf := h.textWf
  textInSpace := h.textInSpace

/-- An instruction of the table leaves `vstart` as it was, at 0, or at a value cut to its field. -/
theorem exec_vstartFits {i : Instr} {s t : State} (h : exec i s = .next t) (hs : s.vstart < 2 ^ vstartBits s.cfg) :
    t.vstart < 2 ^ vstartBits s.cfg := by
  rcases exec_cases h with rfl | ⟨csr, rd, rfl, -⟩ | ⟨csr, rd, w, rfl, -⟩ | ⟨rd, rfl, -⟩ | ⟨f, vl, rd, rfl, -⟩
  · exact hs
  · exact hs
  · rw [afterWrite_vstart, csrWrite_vstart]
    split
    · exact Nat.mod_lt _ (Nat.two_pow_pos _)
    · exact hs
  · exact Nat.two_pow_pos _
  · exact Nat.two_pow_pos _

/-- An instruction of the table writes a register and `pc` cut to XLEN bits. -/
theorem exec_xFits {i : Instr} {s t : State} (h : exec i s = .next t) (hs : ∀ r : Fin 32, zx s.cfg s.x[r] = s.x[r])
    (r : Fin 32) : zx s.cfg t.x[r] = t.x[r] := by
  rcases exec_cases h with rfl | ⟨csr, rd, rfl, -⟩ | ⟨csr, rd, w, rfl, -⟩ | ⟨rd, rfl, -⟩ | ⟨f, vl, rd, rfl, -⟩
  · exact hs r
  · exact fits_setX hs rd _ r
  · exact fits_setX hs rd _ r
  · exact fits_setX hs rd _ r
  · exact fits_setX hs rd _ r

theorem invariant_exec {i : Instr} {s t : State} (hs : Invariant s) (h : exec i s = .next t) : Invariant t := by
  obtain ⟨hcfg, hvreg, htext, hmstatus, hmisa⟩ := exec_fixed h
  refine ⟨?valid, exec_consistent h hs.configConsistent, ?vstart, ?vreg, ?x, ?pc, ?mstatus, ?misa, ?wf, ?inSpace⟩
  case valid => rw [hcfg]; exact hs.cfgValid
  case vstart => rw [hcfg]; exact exec_vstartFits h hs.vstartFits
  case vreg => intro r; rw [hvreg, hcfg]; exact hs.vregFits r
  case x => intro r; rw [hcfg]; exact exec_xFits h hs.xFits r
  case pc =>
    rcases exec_trapped_or_completed h with rfl | ⟨-, hpc⟩
    · exact hs.pcFits
    · rw [hcfg, hpc]; exact zx_zx _ _
  case mstatus => rw [hmstatus, hcfg]; exact hs.mstatusFits
  case misa => rw [hmisa, hcfg]; exact hs.misaFits
  case wf => rw [htext]; exact hs.textWf
  case inSpace => rw [htext, hcfg]; exact hs.textInSpace

/-- Settles O37. -/
theorem stepKeepsInvariant : Obligations.StepKeepsInvariant := by
  intro s t hs h
  obtain ⟨u, rfl, hu⟩ := step_cases h
  apply invariant_spontaneousDirty
  rcases hu with ⟨tr, -, rfl⟩ | ⟨-, rfl⟩ | ⟨-, w, i, -, -, hexec⟩
  · exact invariant_takeTrap hs tr
  · exact invariant_trapped hs
  · exact invariant_exec hs hexec

/-! ### Reset (70_reset_and_hazards.md R320 to R327) -/

/-- Settles O38. -/
theorem resetMeetsInvariant : Obligations.ResetMeetsInvariant where
  cfgValid := reset_configValid
  configConsistent := rfl
  vstartFits := by decide
  vregFits := fun r => by simp [State.reset]
  xFits := fun r => by simp [State.reset]
  pcFits := rfl
  mstatusFits := rfl
  misaFits := rfl
  textWf := wf_reset
  textInSpace := by simp [State.reset]

/-- Settles O39. -/
theorem resetIsTheRecommendedState : Obligations.ResetIsTheRecommendedState := by
  obtain ⟨hcfg, hconfig, hvstart, hvreg, -⟩ := resetMeetsInvariant
  exact ⟨⟨hcfg, hconfig, hvstart, hvreg, rfl⟩, by decide, by decide, by decide, rfl⟩

end Sys2Proof.Proofs
end

