-- ==== Sys2Proof/Proofs/CsrInstructions.lean ====
section
/-! PROOFS. The CSR-access instructions on the vector CSRs (40_csr_access.md). -/

namespace Sys2Proof.Proofs

open Sys2Proof.Machine Sys2Proof.Laws

/-! ### What is read (R160) -/

theorem csrRead_vxsat_toNat (s : State) : (csrRead s .vxsat).toNat = s.vxsat.toNat := by
  cases h : s.vxsat <;> simp [csrRead, h]

theorem csrRead_vxrm_toNat (s : State) : (csrRead s .vxrm).toNat = s.vxrm.toNat := by
  have := s.vxrm.isLt
  simp only [csrRead, BitVec.toNat_setWidth]
  omega

theorem csrRead_vcsr_toNat (s : State) : (csrRead s .vcsr).toNat = 2 * s.vxrm.toNat + s.vxsat.toNat := by
  have hvxrm := s.vxrm.isLt
  have hvxsat := Bool.toNat_lt s.vxsat
  simp only [csrRead, vcsrValue, BitVec.toNat_setWidth, toNat_append_eq_mul_add, BitVec.toNat_ofBool]
  omega

theorem csrRead_vl_toNat {s : State} (h : Invariant s) : (csrRead s .vl).toNat = s.vl :=
  xword_toNat_of_consistent h.cfgValid h.configConsistent

/-- VSTART_BITS is at most 16, as every VLMAX is at most VLEN and VLEN at most 2^16. -/
theorem vstartBits_le {c : Config} (h : configValid c = true) : vstartBits c ≤ 16 :=
  ceilLog2_le ((vlmaxMax_le c).trans (vlen_bounds h).2)

/-- A value of the field of `vstart` fits an integer register. -/
theorem csrRead_vstart_toNat {s : State} (hc : configValid s.cfg = true) (h : s.vstart < 2 ^ vstartBits s.cfg) :
    (csrRead s .vstart).toNat = s.vstart := by
  have hlt : s.vstart < 2 ^ 16 := h.trans_le (Nat.pow_le_pow_right (by decide) (vstartBits_le hc))
  simp only [csrRead, xword_toNat]
  rcases xlenBits_cases s.cfg with hx | hx <;> rw [hx] <;> omega

/-- Settles O11. -/
theorem csrReadsReturnStoredValues : Obligations.CsrReadsReturnStoredValues := by
  intro s hs
  refine ⟨csrRead_vstart_toNat hs.cfgValid hs.vstartFits, csrRead_vxsat_toNat s, csrRead_vxrm_toNat s,
    csrRead_vcsr_toNat s, csrRead_vl_toNat hs, ?_, csrRead_vlenb_toNat hs.cfgValid⟩
  rw [csrRead_vtype]
  cases s.vtype with
  | illegal => exact vtypeValue_illegal_toNat s.cfg
  | legal f => exact vtypeValue_legal_toNat s.cfg f

/-! ### The forms that write (R162 to R167) -/

/-- Settles O13: with `rs1` other than `x0` each form is the shared course with its own new value. -/
theorem registerFormsWriteCsr : Obligations.RegisterFormsWriteCsr := by
  intro s csr rd rs1 hs hrw
  refine ⟨⟨_, ?csrrw, afterWrite_spec ..⟩, fun hrs1 => ⟨_, ?csrrs, afterWrite_spec ..⟩,
    fun hrs1 => ⟨_, ?csrrc, afterWrite_spec ..⟩⟩
  case csrrw => rw [exec_csrrw, accessCsr_write hrw rd _ hs]
  case csrrs => rw [exec_csrrs, if_pos hrs1, accessCsr_write hrw rd _ hs]
  case csrrc => rw [exec_csrrc, if_pos hrs1, accessCsr_write hrw rd _ hs]

theorem uimmValue_eq_ofNat (uimm : BitVec 5) : uimmValue uimm = BitVec.ofNat 64 uimm.toNat :=
  BitVec.eq_of_toNat_eq (by simp [uimmValue])

/-- Settles O14. -/
theorem immediateFormsWriteCsr : Obligations.ImmediateFormsWriteCsr := by
  intro s csr rd uimm hs hrw
  rw [← uimmValue_eq_ofNat]
  refine ⟨⟨_, ?csrrwi, afterWrite_spec ..⟩, fun huimm => ⟨_, ?csrrsi, afterWrite_spec ..⟩,
    fun huimm => ⟨_, ?csrrci, afterWrite_spec ..⟩⟩
  case csrrwi => rw [exec_csrrwi, accessCsr_write hrw rd _ hs]
  case csrrsi => rw [exec_csrrsi, if_pos huimm, accessCsr_write hrw rd _ hs]
  case csrrci => rw [exec_csrrci, if_pos huimm, accessCsr_write hrw rd _ hs]

/-- A CSR-access instruction that writes a read-write CSR. -/
theorem exec_write_readWrite {csr : Csr} {i : Instr} (hrw : csrReadWrite csr = true) (hi : isCsrAccess csr i = true)
    (hw : doesWrite i = true) {s : State} (hs : s.vs ≠ .off) :
    ∃ rd w, exec i s = .next (afterWrite s csr rd w) := by
  obtain ⟨rd, g, hexec⟩ := exec_of_write hi hw s
  exact ⟨rd, _, by rw [hexec, accessCsr_write hrw rd g hs]⟩

/-! ### The forms that only read -/

/-- Settles O15. -/
theorem readingFormsOnlyRead : Obligations.ReadingFormsOnlyRead := by
  intro s csr rd i hs hv hi
  have hexec : exec i s = .next (afterRead s csr rd) := by
    simp only [List.mem_cons, List.not_mem_nil, or_false] at hi
    rcases hi with rfl | rfl | rfl | rfl <;> exact accessCsr_read hv rd hs
  obtain ⟨hx, hpc, hsame, hvs, hrest, htrap, -⟩ := afterRead_spec s csr rd
  exact ⟨_, hexec, hx, hpc, hsame, hvs, hrest, htrap⟩

/-- A CSR-access instruction that only reads, with its own destination register. -/
theorem exec_read_rdOf {csr : Csr} {i : Instr} (hv : csr.isVector = true) (hi : isCsrAccess csr i = true)
    (hw : doesWrite i = false) {s : State} (hs : s.vs ≠ .off) : exec i s = .next (afterRead s csr (rdOf i)) := by
  have zero : ∀ {v : BitVec 5}, (v != 0#5) = false → ¬v ≠ 0#5 := by simp
  cases i with
  | csrrs rd c rs1 =>
    cases (beq_iff_eq.mp hi : c = csr)
    rw [exec_csrrs, if_neg (zero hw), accessCsr_read hv rd hs, rdOf]
  | csrrc rd c rs1 =>
    cases (beq_iff_eq.mp hi : c = csr)
    rw [exec_csrrc, if_neg (zero hw), accessCsr_read hv rd hs, rdOf]
  | csrrsi rd c uimm =>
    cases (beq_iff_eq.mp hi : c = csr)
    rw [exec_csrrsi, if_neg (zero hw), accessCsr_read hv rd hs, rdOf]
  | csrrci rd c uimm =>
    cases (beq_iff_eq.mp hi : c = csr)
    rw [exec_csrrci, if_neg (zero hw), accessCsr_read hv rd hs, rdOf]
  | csrrw _ _ _ | csrrwi _ _ _ => exact absurd hw (by simp [doesWrite])
  | vsetvli _ _ _ | vsetivli _ _ _ | vsetvl _ _ _ => exact absurd hi (by simp [isCsrAccess])

/-! ### A CSR of `Base` -/

/-- Settles O18: the shared course refuses before it looks at `VS`. -/
theorem baseCsrAccessIsRefused : Obligations.BaseCsrAccessIsRefused := by
  intro s addr i hi
  cases hw : doesWrite i with
  | true =>
    obtain ⟨rd, g, hexec⟩ := exec_of_write hi hw s
    rw [hexec, accessCsr_base]
  | false =>
    obtain ⟨rd, hexec⟩ := exec_of_read hi hw s
    rw [hexec, accessCsr_base]

/-! ### What a write stores, told through later reads (R173) -/

/-- The CSRs that no CSR instruction writes read the same afterwards. -/
theorem csrRead_readOnly_afterWrite (s : State) (csr : Csr) (rd : RegNo) (w : Word) {c : Csr}
    (hc : csrReadOnly c = true) : csrRead (afterWrite s csr rd w) c = csrRead s c := by
  cases c with
  | vl | vtype | vlenb => rfl
  | vstart | vxsat | vxrm | vcsr | base _ => exact absurd hc (by simp [csrReadOnly])

/-- Settles O19: each view is read from the fields that the write left, and every value cut to the field of `vstart`
fits a register. -/
theorem csrWriteStoresItsField : Obligations.CsrWriteStoresItsField := by
  refine ⟨fun s t csr rd rs1 hs hrw hinv h => ?_, fun s rd rs1 hs hlt => ?_⟩
  · have ht : t = afterWrite s csr rd (readX s rs1) := by
      rw [exec_csrrw, accessCsr_write hrw rd _ hs] at h
      exact (Host.Outcome.next.inj h).symm
    have hfits : t.vstart < 2 ^ vstartBits t.cfg := (invariant_exec hinv h).vstartFits
    have hcfg : configValid t.cfg = true := (invariant_exec hinv h).cfgValid
    obtain ⟨⟨-, -, hvstart, hvxrm, hvxsat⟩, -⟩ := afterWrite_spec s csr rd (readX s rs1)
    rw [← ht] at hvstart hvxrm hvxsat
    refine ⟨?_, ?_, ?_, ?_, ?_, ?_, ?_⟩
    · rw [csrRead_vstart_toNat hcfg hfits, hvstart, csrRead_vstart_toNat hinv.cfgValid hinv.vstartFits]
    · rw [csrRead_vxsat_toNat, hvxsat, csrRead_vxsat_toNat]
      split
      · rcases Nat.mod_two_eq_zero_or_one (readX s rs1).toNat with hbit | hbit <;> simp [hbit]
      · rfl
    · rw [csrRead_vxrm_toNat, hvxrm, csrRead_vxrm_toNat]
    · rw [csrRead_vcsr_toNat, csrRead_vxrm_toNat, csrRead_vxsat_toNat]
    all_goals exact ht ▸ csrRead_readOnly_afterWrite s csr rd _ rfl
  · refine ⟨afterWrite s .vstart rd (readX s rs1), ?_, ?_, rfl⟩
    · rw [exec_csrrw, accessCsr_write rfl rd _ hs]
    · rw [afterWrite_vstart, csrWrite_vstart, if_pos rfl, Nat.mod_eq_of_lt hlt]

/-! ### A CSR instruction is no vector instruction -/

/-- Settles O20: the course of a write and that of a read, neither of which looks at `vill`, `vl` or `vstart`. -/
theorem csrInstructionsAreNoVectorInstructions : Obligations.CsrInstructionsAreNoVectorInstructions := by
  intro s csr i hv hi hs hrw
  cases hw : doesWrite i with
  | true =>
    obtain ⟨rd, w, hexec⟩ := exec_write_readWrite (hrw hw) hi hw hs
    obtain ⟨⟨hvtype, hvl, hvstart, -, -⟩, -, hpc, hvs, ⟨-, hvreg, -⟩, htrap⟩ := afterWrite_spec s csr rd w
    refine ⟨_, hexec, htrap, hpc, hvreg, hvtype, hvl, fun hne => ?_, fun _ => hvs, fun h => absurd h (by simp)⟩
    rw [hvstart, if_neg fun hcsr => hne ⟨rfl, hcsr⟩]
  | false =>
    obtain ⟨hx, hpc, ⟨hvreg, hvtype, hvl, hvstart, -⟩, -, -, htrap, -⟩ := afterRead_spec s csr (rdOf i)
    refine ⟨_, exec_read_rdOf hv hi hw hs, htrap, hpc, hvreg, hvtype, hvl, fun _ => hvstart,
      fun h => absurd h (by simp), fun _ => ⟨rfl, fun r hr => ?_⟩⟩
    rw [hx r, if_neg fun h => hr h.1]

end Sys2Proof.Proofs
end

