-- ==== Sys2Proof/Proofs/ConfigInstructions.lean ====
section
/-! PROOFS. The requests of the configuration instructions, and what each of them installs (41_vset_config.md). -/

namespace Sys2Proof.Proofs

open Sys2Proof.Machine Sys2Proof.Laws

/-! ### Requests as numbers (R191, R192) -/

/-- The fields of `vtype` are the digits of their number. -/
theorem fieldsNumber_digits (f : VFields) :
    fieldsNumber f < 256 ∧ fieldsNumber f / 128 = f.vma.toNat ∧ fieldsNumber f / 64 % 2 = f.vta.toNat ∧
      fieldsNumber f / 8 % 8 = (sewCode f.vsew).toNat ∧ fieldsNumber f % 8 = (lmulCode f.vlmul).toNat := by
  have hma := Bool.toNat_lt f.vma
  have hta := Bool.toNat_lt f.vta
  have hsew := (sewCode f.vsew).isLt
  have hlmul := (lmulCode f.vlmul).isLt
  unfold fieldsNumber
  omega

/-- When a request is granted, and which fields it then asks for, field by field. -/
theorem requestedFields_eq_some_iff {c : Config} {req : Word} {f : VFields} : requestedFields c req = some f ↔
    (requestOf c req).vill = false ∧ (requestOf c req).rsv = 0 ∧ (requestOf c req).vma = f.vma ∧
      (requestOf c req).vta = f.vta ∧ (requestOf c req).vsew = sewCode f.vsew ∧
      (requestOf c req).vlmul = lmulCode f.vlmul ∧ supports c f.vsew f.vlmul = true := by
  constructor
  · intro h
    have hsupports := supports_of_requestedFields h
    unfold requestedFields at h
    split at h
    · cases h
    next hclear =>
      simp only [Bool.or_eq_true, decide_eq_true_eq, not_or, not_not, Bool.not_eq_true] at hclear
      split at h
      next sew lmul hsew hlmul =>
        split at h
        · cases h
          exact ⟨hclear.1, hclear.2, rfl, rfl, sewOfCode_eq_some.mp hsew, lmulOfCode_eq_some.mp hlmul, hsupports⟩
        · cases h
      · cases h
  · rintro ⟨hvill, hrsv, hvma, hvta, hsew, hlmul, hsupports⟩
    simp [requestedFields, hvill, hrsv, hvma, hvta, sewOfCode_eq_some.mpr hsew, lmulOfCode_eq_some.mpr hlmul, hsupports]

theorem decide_toNat_eq_one (b : Bool) : decide (b.toNat = 1) = b := by
  cases b <;> rfl

theorem toNat_decide_eq_one {n : Nat} (h : n < 2) : (decide (n = 1)).toNat = n := by
  interval_cases n <;> rfl

/-- The number of supported fields is a request for them. -/
theorem requestedFields_of_number {c : Config} {req : Word} {f : VFields} (h : req.toNat = fieldsNumber f)
    (hs : supports c f.vsew f.vlmul = true) : requestedFields c req = some f := by
  obtain ⟨hlt, hma, hta, hsew, hlmul⟩ := fieldsNumber_digits f
  rw [← h] at hlt hma hta hsew hlmul
  obtain ⟨hvill, hrsv, hvma, hvta, hvsew, hvlmul⟩ := requestOf_small (c := c) hlt
  refine requestedFields_eq_some_iff.mpr ⟨hvill, hrsv, ?_, ?_, BitVec.eq_of_toNat_eq (hvsew.trans hsew),
    BitVec.eq_of_toNat_eq (hvlmul.trans hlmul), hs⟩
  · rw [hvma, hma, decide_toNat_eq_one]
  · rw [hvta, hta, decide_toNat_eq_one]

/-- A granted request of XLEN bits is the number of the fields it asks for. -/
theorem number_of_requestedFields {c : Config} {req : Word} {f : VFields} (hz : zx c req = req)
    (h : requestedFields c req = some f) : req.toNat = fieldsNumber f := by
  obtain ⟨hvill, hrsv, hvma, hvta, hvsew, hvlmul, -⟩ := requestedFields_eq_some_iff.mp h
  have hlt := request_lt hz hvill hrsv
  obtain ⟨-, -, hma, hta, hsew, hlmul⟩ := requestOf_small (c := c) hlt
  have hma' : f.vma.toNat = req.toNat / 128 := by
    rw [← hvma, hma, toNat_decide_eq_one (by omega)]
  have hta' : f.vta.toNat = req.toNat / 64 % 2 := by
    rw [← hvta, hta, toNat_decide_eq_one (by omega)]
  rw [hvsew] at hsew
  rw [hvlmul] at hlmul
  unfold fieldsNumber
  omega

/-- The reserved bits of a request are 0 as a number exactly when each of them is. -/
theorem rsv_eq_zero_iff (c : Config) (req : Word) :
    (requestOf c req).rsv = 0 ↔ ∀ k, 8 ≤ k → k < xlenBits c - 1 → req.getLsbD k = false := by
  have hbit : ∀ j, (requestOf c req).rsv.testBit j = (decide (j + 8 < xlenBits c - 1) && req.getLsbD (j + 8)) := by
    intro j
    rw [requestOf, ← Nat.shiftRight_eq_div_pow, Nat.testBit_shiftRight, Nat.testBit_mod_two_pow, Nat.add_comm 8 j]
    rfl
  constructor
  · intro h k h8 hk
    have := hbit (k - 8)
    rw [h, Nat.zero_testBit, Nat.sub_add_cancel h8] at this
    simpa [hk] using this.symm
  · intro h
    apply Nat.eq_of_testBit_eq
    intro j
    rw [hbit, Nat.zero_testBit]
    by_cases hj : j + 8 < xlenBits c - 1
    · simp [h (j + 8) (by omega) hj]
    · simp [hj]

/-- Settles O21. -/
theorem supportedRequestsAreTheFieldNumbers : Obligations.SupportedRequestsAreTheFieldNumbers := by
  refine ⟨fun sew => by cases sew <;> rfl, fun lmul => by cases lmul <;> decide, fun c req f hz => ⟨?fields, ?granted⟩⟩
  case fields =>
    exact ⟨fun h => ⟨number_of_requestedFields hz h, supports_of_requestedFields h⟩,
      fun ⟨hnumber, hs⟩ => requestedFields_of_number hnumber hs⟩
  case granted =>
    rw [← rsv_eq_zero_iff, Option.ne_none_iff_exists']
    constructor
    · rintro ⟨f, h⟩
      obtain ⟨hvill, hrsv, -, -, hsew, hlmul, hs⟩ := requestedFields_eq_some_iff.mp h
      exact ⟨hvill, hrsv, f.vsew, f.vlmul, hsew, hlmul, hs⟩
    · rintro ⟨hvill, hrsv, sew, lmul, hsew, hlmul, hs⟩
      exact ⟨⟨_, _, sew, lmul⟩, requestedFields_eq_some_iff.mpr ⟨hvill, hrsv, rfl, rfl, hsew, hlmul, hs⟩⟩

/-- An immediate is an XLEN-bit number. -/
theorem zx_setWidth {n : Nat} (hn : n ≤ 32) (c : Config) (imm : BitVec n) :
    zx c (imm.setWidth 64) = imm.setWidth 64 ∧ (imm.setWidth 64).toNat = imm.toNat := by
  have hlt : imm.toNat < 2 ^ 32 := imm.isLt.trans_le (Nat.pow_le_pow_right (by decide) hn)
  have hnum : (imm.setWidth 64).toNat = imm.toNat := by
    rw [BitVec.toNat_setWidth]
    omega
  refine ⟨BitVec.eq_of_toNat_eq ?_, hnum⟩
  rw [zx_toNat, hnum]
  rcases xlenBits_cases c with hx | hx <;> rw [hx] <;> omega

/-- A request of XLEN bits that is the number of no supported fields is not granted. -/
theorem requestedFields_eq_none {c : Config} {req : Word} (hz : zx c req = req)
    (h : ∀ f, req.toNat = fieldsNumber f → supports c f.vsew f.vlmul = false) : requestedFields c req = none := by
  cases hf : requestedFields c req with
  | none => rfl
  | some f =>
    have := h f (number_of_requestedFields hz hf)
    rw [supports_of_requestedFields hf] at this
    cases this

/-! ### The choice of `vl` (R196) -/

/-- Settles O22. -/
theorem chooseVlObeysItsBounds : Obligations.ChooseVlObeysItsBounds := by
  intro c avl vlmax
  unfold chooseVl
  split
  · omega
  · split <;> omega

/-! ### The shared update, mode by mode (R193 to R198) -/

theorem setConfig_value {s : State} {req : Word} {f : VFields} (hs : s.vs ≠ .off)
    (hf : requestedFields s.cfg req = some f) (avl : Nat) (rd : RegNo) : setConfig req (.value avl) rd s =
      .next (installConfig (.legal f) (chooseVl s.cfg avl (vlmaxOf s.cfg f.vsew f.vlmul)) rd s) := by
  simp only [setConfig, if_neg hs, hf]

theorem setConfig_max {s : State} {req : Word} {f : VFields} (hs : s.vs ≠ .off)
    (hf : requestedFields s.cfg req = some f) (rd : RegNo) :
    setConfig req .max rd s = .next (installConfig (.legal f) (vlmaxOf s.cfg f.vsew f.vlmul) rd s) := by
  simp only [setConfig, if_neg hs, hf]

theorem setConfig_keep {s : State} {req : Word} {f : VFields} (hs : s.vs ≠ .off)
    (hf : requestedFields s.cfg req = some f) (rd : RegNo) : setConfig req .keep rd s =
      if vlmaxOfType s.cfg s.vtype = some (vlmaxOf s.cfg f.vsew f.vlmul) then .next (installConfig (.legal f) s.vl rd s)
      else reservedUse .reservedKeepForm s := by
  simp only [setConfig, if_neg hs, hf]

theorem setConfig_unsupported {s : State} {req : Word} (hs : s.vs ≠ .off) (hf : requestedFields s.cfg req = none)
    (mode : AvlMode) (rd : RegNo) : setConfig req mode rd s = .next (installConfig .illegal 0 rd s) := by
  simp only [setConfig, if_neg hs, hf]

theorem avlModeOf_value {rs1 : RegNo} (h : rs1 ≠ 0#5) (s : State) (rd : RegNo) :
    avlModeOf s rd rs1 = .value (readX s rs1).toNat := if_pos h

theorem avlModeOf_max {rd : RegNo} (h : rd ≠ 0#5) (s : State) : avlModeOf s rd 0#5 = .max := by
  simp [avlModeOf, h]

theorem avlModeOf_keep (s : State) : avlModeOf s 0#5 0#5 = .keep := rfl

/-- A supported immediate as a request. -/
theorem requestedFields_of_immediate {n : Nat} (hn : n ≤ 32) {c : Config} {imm : BitVec n} {f : VFields}
    (h : imm.toNat = fieldsNumber f) (hs : supports c f.vsew f.vlmul = true) :
    requestedFields c (imm.setWidth 64) = some f :=
  requestedFields_of_number ((zx_setWidth hn c imm).2.trans h) hs

/-- Settles O23. -/
theorem supportedRequestWithLength : Obligations.SupportedRequestWithLength := by
  intro s rd rs1 rs2 f hs hf
  refine ⟨fun zimm hz hrs1 => ⟨_, ?vsetvli, installConfig_spec ..⟩,
    fun zimm uimm hz => ⟨_, ?vsetivli, installConfig_spec ..⟩, fun hz hrs1 => ⟨_, ?vsetvl, installConfig_spec ..⟩⟩
  case vsetvli =>
    rw [exec_vsetvli, avlModeOf_value hrs1, setConfig_value hs (requestedFields_of_immediate (by decide) hz hf)]
  case vsetivli => rw [exec_vsetivli, setConfig_value hs (requestedFields_of_immediate (by decide) hz hf)]
  case vsetvl => rw [exec_vsetvl, avlModeOf_value hrs1, setConfig_value hs (requestedFields_of_number hz hf)]

/-- Settles O24. -/
theorem supportedRequestForMaximum : Obligations.SupportedRequestForMaximum := by
  intro s rd rs2 f hs hrd hf
  refine ⟨fun zimm hz => ⟨_, ?vsetvli, installConfig_spec ..⟩, fun hz => ⟨_, ?vsetvl, installConfig_spec ..⟩⟩
  case vsetvli =>
    rw [exec_vsetvli, avlModeOf_max hrd, setConfig_max hs (requestedFields_of_immediate (by decide) hz hf)]
  case vsetvl => rw [exec_vsetvl, avlModeOf_max hrd, setConfig_max hs (requestedFields_of_number hz hf)]

/-- Settles O25: both instructions are the shared update in the Keep mode, with the fields as the request. -/
theorem keepFormNeedsTheSameVlmax : Obligations.KeepFormNeedsTheSameVlmax := by
  intro s f i hs hf hi
  have hexec : ∃ req, requestedFields s.cfg req = some f ∧ exec i s = setConfig req .keep 0#5 s := by
    rcases hi with ⟨zimm, hz, rfl⟩ | ⟨rs2, hz, rfl⟩
    · exact ⟨_, requestedFields_of_immediate (by decide) hz hf, by rw [exec_vsetvli, avlModeOf_keep]⟩
    · exact ⟨_, requestedFields_of_number hz hf, by rw [exec_vsetvl, avlModeOf_keep]⟩
  obtain ⟨req, hreq, hexec⟩ := hexec
  rw [hexec, setConfig_keep hs hreq]
  refine ⟨fun hsame => ⟨_, if_pos hsame, installConfig_spec ..⟩, fun hne => ?_⟩
  rw [if_neg hne]
  exact ⟨fun htraps => reservedUse_traps htraps _, fun hrefuses => reservedUse_refuses hrefuses _⟩

/-- Settles O26. -/
theorem unsupportedRequestSetsVill : Obligations.UnsupportedRequestSetsVill := by
  intro s rd rs1 rs2 hs
  have immediate : ∀ {n : Nat} (imm : BitVec n), n ≤ 32 →
      (∀ f, imm.toNat = fieldsNumber f → supports s.cfg f.vsew f.vlmul = false) →
      requestedFields s.cfg (imm.setWidth 64) = none := fun imm hn h =>
    requestedFields_eq_none (zx_setWidth hn s.cfg imm).1 fun f hf => h f ((zx_setWidth hn s.cfg imm).2 ▸ hf)
  refine ⟨fun zimm h => ⟨_, ?vsetvli, installConfig_spec ..⟩, fun zimm uimm h => ⟨_, ?vsetivli, installConfig_spec ..⟩,
    fun h => ⟨_, ?vsetvl, installConfig_spec ..⟩⟩
  case vsetvli => rw [exec_vsetvli, setConfig_unsupported hs (immediate zimm (by decide) h)]
  case vsetivli => rw [exec_vsetivli, setConfig_unsupported hs (immediate zimm (by decide) h)]
  case vsetvl => rw [exec_vsetvl, setConfig_unsupported hs (requestedFields_eq_none (zx_readX s rs2) h)]

/-! ### Saving and restoring (R199) -/

/-- The value read from `vtype` asks for the fields it was read from, and for none with `vill` set. -/
theorem requestedFields_vtypeValue_illegal (c : Config) : requestedFields c (vtypeValue c .illegal) = none := by
  cases hf : requestedFields c (vtypeValue c .illegal) with
  | none => rfl
  | some f =>
    obtain ⟨hvill, -⟩ := requestedFields_eq_some_iff.mp hf
    have hset : (vtypeValue c .illegal).getLsbD (xlenBits c - 1) = true := by
      rw [BitVec.getLsbD, vtypeValue_illegal_toNat, Nat.testBit_two_pow_self]
    exact absurd (hvill.symm.trans hset) (by simp)

/-- `vsetvl x0` with the two values read from a consistent configuration installs that configuration. -/
theorem setConfig_restores {c : Config} {ty : VType} {vl : Nat} {t : State} (hc : ConfigConsistent c ty vl)
    (ht : t.cfg = c) (hs : t.vs ≠ .off) (rd : RegNo) :
    setConfig (vtypeValue c ty) (.value vl) rd t = .next (installConfig ty vl rd t) := by
  subst ht
  cases ty with
  | illegal =>
    have hvl : vl = 0 := hc
    rw [setConfig_unsupported hs (requestedFields_vtypeValue_illegal t.cfg), hvl]
  | legal f =>
    obtain ⟨hsupports, hle⟩ := hc
    have hchoice : chooseVl t.cfg vl (vlmaxOf t.cfg f.vsew f.vlmul) = vl :=
      (chooseVlObeysItsBounds t.cfg vl (vlmaxOf t.cfg f.vsew f.vlmul)).1 hle
    rw [setConfig_value hs (requestedFields_of_number (vtypeValue_legal_toNat t.cfg f) hsupports), hchoice]

/-- Settles O27. -/
theorem savedConfigurationIsRestored : Obligations.SavedConfigurationIsRestored := by
  refine ⟨fun s t ra rb hvalid hc ht hs hra _ hvl hvtype => ?_, fun s t i _ hs h => exec_consistent h hs,
    fun s h => h.configConsistent⟩
  have hlength : (readX t ra).toNat = s.vl := by
    rw [hvl]
    exact xword_toNat_of_consistent hvalid hc
  refine ⟨_, ?_, installConfig_vtype s.vtype s.vl 0#5 t, installConfig_vl s.vtype s.vl 0#5 t⟩
  rw [exec_vsetvl, avlModeOf_value hra, hlength, hvtype, csrRead_vtype, setConfig_restores hc ht hs]

end Sys2Proof.Proofs
end

