-- ==== Sys2Proof/Proofs/StepOutcomes.lean ====
section
/-! PROOFS. What one step does: it hands a pending trap to `Base`, or fetches, decodes and executes, or stops by name
(20_memory.md section 3, 30_encoding.md section 5, 60_exceptions.md sections 1 and 3). -/

namespace Sys2Proof.Proofs

open Sys2Proof.Machine Sys2Proof.Laws

/-! ### The pending trap -/

/-- Settles O8: what `Base` makes of its own state, and then the spontaneous transition of `VS`. -/
theorem pendingTrapGoesToBase : Obligations.PendingTrapGoesToBase := by
  intro s tr ht
  refine ⟨_, _, step_of_trap ht, ⟨rfl, rfl, rfl, rfl, rfl, rfl⟩, rfl, rfl, fun r => ?_, rfl, rfl, rfl, rfl, ?_,
    fun _ => rfl⟩
  · simp [baseState]
  · rw [spontaneousDirty_vs, takeTrap_vs]
    rcases vsAfter_cases s.vs false (Config.drawSpontaneous (takeTrap tr s).draws) with hkeep | hdirty
    · exact .inl hkeep
    · by_cases hoff : s.vs = .off
      · exact .inl (hoff ▸ vsAfter_off _ _)
      · exact .inr ⟨hdirty, hoff⟩

/-! ### Fetching -/

/-- Four bytes at `pc` and after it are the word there. -/
theorem readWord_of_bytes {c : Config} {m : Memory} {a : Word} {b0 b1 b2 b3 : Byte}
    (h0 : readByte m (a.toNat % 2 ^ xlenBits c) = some b0) (h1 : readByte m ((a.toNat + 1) % 2 ^ xlenBits c) = some b1)
    (h2 : readByte m ((a.toNat + 2) % 2 ^ xlenBits c) = some b2)
    (h3 : readByte m ((a.toNat + 3) % 2 ^ xlenBits c) = some b3) :
    readWord c m a = some (wordOfBytes b0 b1 b2 b3) := by
  simp only [readWord, byteAddr_eq, Nat.add_zero, h0, h1, h2, h3]

/-- The spontaneous transition, written out. -/
theorem spontaneousDirty_eq (t : State) : spontaneousDirty t = { t with
    vs := if (t.vs = .initial ∨ t.vs = .clean) ∧ Config.drawSpontaneous t.draws = true then .dirty else t.vs
    draws := t.draws + 1 } := by
  have hvs : ∀ (v : VsState) (drawn : Bool),
      vsAfter v false drawn = if (v = .initial ∨ v = .clean) ∧ drawn = true then .dirty else v := by
    intro v drawn
    cases v <;> cases drawn <;> rfl
  rw [spontaneousDirty, hvs]

/-- Settles O6. -/
theorem stepRunsTheDecodedInstruction : Obligations.StepRunsTheDecodedInstruction := by
  intro s b0 b1 b2 b3 i ht ha h0 h1 h2 h3 hd
  have hfetch : fetch s = .word (wordOfBytes b0 b1 b2 b3) :=
    (fetch_eq_word_iff ha _).mpr (readWord_of_bytes h0 h1 h2 h3)
  rw [step_of_decoded ht hfetch hd]
  cases exec i s with
  | next t => exact congrArg _ (spontaneousDirty_eq t)
  | fault r => rfl
  | refused r => rfl

/-- Settles O7. -/
theorem placedWordIsFetched : Obligations.PlacedWordIsFetched := by
  intro s w hw htext ha
  have hcut : BitVec.ofNat 32 (w % 2 ^ 32) = BitVec.ofNat 32 w := by rw [Nat.mod_eq_of_lt hw]
  refine ⟨?_, wf_placeWord _ _ _ _ htext, fun a hout => ?_, rfl⟩
  · refine (fetch_eq_word_iff (s := s.withFetchWord 32 w) ha _).mpr ?_
    rw [withFetchWord_text, hcut]
    exact readWord_placeWord s.cfg s.text (readPc s) _ htext
  · have hne : ∀ k < 4, a ≠ byteAddr s.cfg (readPc s) k := fun k hk => by
      rw [byteAddr_eq]
      exact hout k hk
    rw [withFetchWord_text, readByte_placeWord _ _ _ _ htext, if_neg (hne 3 (by decide)), if_neg (hne 2 (by decide)),
      if_neg (hne 1 (by decide)), if_neg (hne 0 (by decide))]

/-! ### The checks of the frame, whatever comes after them -/

theorem reservedUse_traps_or_refuses (r : Refusal) (s : State) :
    reservedUse r s = .next (trapped s) ∨ reservedUse r s = .refused r := by
  cases h : s.cfg.reservedTraps with
  | true => exact .inl (reservedUse_traps h r)
  | false => exact .inr (reservedUse_refuses h r)

/-- The checks pass, or stop the instruction in a way in which its own work has no part. -/
theorem frameChecks_pass_or_stop (d z m : Bool) (w : BitVec 32) (s : State) :
    ChecksPass d z m w s ∨ (∀ work, frameChecks d z m w s work = .next (trapped s)) ∨
      ∃ r, ∀ work, frameChecks d z m w s work = .refused r := by
  by_cases hoff : s.vs = .off
  · exact .inr (.inl fun work => by rw [frameChecks, if_pos hoff, raiseIllegal_eq])
  by_cases hvill : (d && decide (s.vtype = .illegal)) = true
  · exact .inr (.inl fun work => by rw [frameChecks, if_neg hoff, if_pos hvill, raiseIllegal_eq])
  by_cases hzero : (decide (s.vstart ≠ 0) && z) = true
  · exact .inr (.inl fun work => by rw [frameChecks, if_neg hoff, if_neg hvill, if_pos hzero, raiseIllegal_eq])
  by_cases hlegal : (!legalVstart s.cfg w s.vtype s.vstart) = true
  · exact .inr (.inl fun work => by
      rw [frameChecks, if_neg hoff, if_neg hvill, if_neg hzero, if_pos hlegal, raiseIllegal_eq])
  have reserved : ∀ r, (∀ work, frameChecks d z m w s work = reservedUse r s) →
      (∀ work, frameChecks d z m w s work = .next (trapped s)) ∨ ∃ r, ∀ work, frameChecks d z m w s work = .refused r :=
    fun r h => (reservedUse_traps_or_refuses r s).imp (fun ht work => (h work).trans ht)
      fun hr => ⟨r, fun work => (h work).trans hr⟩
  by_cases hbound : (d && decide (currentVlmax s ≤ s.vstart)) = true
  · by_cases htraps : s.cfg.vstartOobTraps = true
    · exact .inr (.inl fun work => by
        rw [frameChecks, if_neg hoff, if_neg hvill, if_neg hzero, if_neg hlegal, if_pos hbound, if_pos htraps,
          raiseIllegal_eq])
    · exact .inr (reserved .reservedVstart fun work => by
        rw [frameChecks, if_neg hoff, if_neg hvill, if_neg hzero, if_neg hlegal, if_pos hbound, if_neg htraps])
  by_cases hsmall : inSmallLmulRegion s = true
  · exact .inr (reserved .reservedSmallLmul fun work => by
      rw [frameChecks, if_neg hoff, if_neg hvill, if_neg hzero, if_neg hlegal, if_neg hbound, if_pos hsmall])
  by_cases hnumber : m = true
  · exact .inr (reserved .reservedGroupNumber fun work => by
      rw [frameChecks, if_neg hoff, if_neg hvill, if_neg hzero, if_neg hlegal, if_neg hbound, if_neg hsmall,
        if_pos hnumber])
  simp only [Bool.and_eq_true, decide_eq_true_eq, not_and, Bool.not_eq_true', Bool.not_eq_true, Bool.not_eq_false,
    Nat.not_le] at hvill hzero hlegal hbound hsmall hnumber
  exact .inl ⟨hoff, hvill, fun hz => Decidable.byContradiction fun h => by simp [hzero h] at hz, hlegal, hbound, hsmall,
    hnumber⟩

/-- Settles O10: the word and the instruction meet the same checks, and no check looks at what comes after it. -/
theorem vectorWordsMeetTheFrameChecks : Obligations.VectorWordsMeetTheFrameChecks := by
  intro s w I ht hf hd hword hdepends hzero hnumber
  have hI : vectorInstruction I none s =
      frameChecks true (Config.requiresVstartZero s.cfg w) false w s (.next (completeVector I s)) := by
    rw [vectorInstruction, hword, hdepends, hzero, hnumber]
  have hw : undecoded .vectorOutOfScope w s =
      frameChecks true (Config.requiresVstartZero s.cfg w) false w s (.refused (.vectorOutOfScope w)) := rfl
  rw [step_of_undecoded ht hf hd, hI, hw]
  rcases frameChecks_pass_or_stop true (Config.requiresVstartZero s.cfg w) false w s with hpass | hstop | ⟨r, hstop⟩
  · rw [frameChecks_of_pass hpass, frameChecks_of_pass hpass]
    simp [betweenInstructions, ht]
  · rw [hstop, hstop]
    simp [betweenInstructions]
  · rw [hstop, hstop]
    rfl

/-! ### What stops a step (R125, R146) -/

theorem frameChecks_vill {z m : Bool} {w : BitVec 32} {s : State} (hs : s.vtype = .illegal)
    (work : Host.Outcome State Fault Refusal) : frameChecks true z m w s work = .next (trapped s) := by
  by_cases hoff : s.vs = .off
  · exact frameChecks_off _ _ _ _ _ hoff
  · rw [frameChecks, if_neg hoff, if_pos (by simp [hs]), raiseIllegal_eq]

theorem legalVstart_zero (c : Config) (w : BitVec 32) (ty : VType) : legalVstart c w ty 0 = true := by
  simp [legalVstart]

/-- With `vstart` = 0 and a legal `vtype` outside the region of small LMUL no check stops a vector word. -/
theorem checksPass_of_vstart_zero {d z : Bool} {w : BitVec 32} {s : State} {f : VFields} (hs : s.vs ≠ .off)
    (hf : s.vtype = .legal f) (h0 : s.vstart = 0) (hmax : 1 ≤ vlmaxOf s.cfg f.vsew f.vlmul)
    (hlarge : belowLmulBound s.cfg f.vlmul = false) : ChecksPass d z false w s where
  on := hs
  typed := fun _ => by simp [hf]
  atZero := fun _ => h0
  legal := by rw [h0, legalVstart_zero]
  bound := fun _ => by
    simp only [currentVlmax, hf, vlmaxOfType, Option.getD_some, h0]
    exact hmax
  large := by simpa [inSmallLmulRegion, hf] using hlarge
  numbered := rfl

/-- A word that is no instruction and is refused stops the step with that refusal. -/
theorem step_refused_of_undecoded {s : State} {w : BitVec 32} {e : DecodeError} {r : Refusal} (ht : s.trap = none)
    (hf : fetch s = .word w) (hd : decode w = .error e) (hu : undecoded e w s = .refused r) :
    step s = .refused r := by
  rw [step_of_undecoded ht hf hd, hu, betweenInstructions]

/-- Settles O9. -/
theorem undecodedWordsStopByName : Obligations.UndecodedWordsStopByName := by
  intro s ht
  refine ⟨step_of_noText ht, step_of_misaligned ht, fun w hf => ⟨fun hd hr => ?_, fun hd hr => ?_, fun hd hs => ?_,
    fun f hd hs hty h0 hmax hlarge => ?_, fun hd => ?_, fun hd => ?_⟩⟩
  · exact step_refused_of_undecoded ht hf hd (reservedUse_refuses hr _)
  · exact stepTrapsIllegal_of_undecoded ht hf hd (reservedUse_traps hr _)
  · apply stepTrapsIllegal_of_undecoded ht hf hd
    rcases hs with hoff | hvill
    · exact undecoded_vector_off w hoff
    · exact frameChecks_vill hvill _
  · exact step_refused_of_undecoded ht hf hd
      (frameChecks_of_pass (checksPass_of_vstart_zero hs hty h0 hmax hlarge) _)
  · exact step_refused_of_undecoded ht hf hd rfl
  · exact step_refused_of_undecoded ht hf hd rfl

end Sys2Proof.Proofs
end

