-- ==== Sys2Proof/Proofs/StatusViews.lean ====
section
/-! PROOFS. `mstatus`, `sstatus` and `misa`, bit by bit, and the handler that turns the vector unit on (10_state.md
section 4, 60_exceptions.md sections 3 and 4). -/

namespace Sys2Proof.Proofs

open Sys2Proof.Machine Sys2Proof.Laws

/-! ### Bits of the registers -/

theorem getLsbD_zx (c : Config) (v : Word) (i : Nat) :
    (zx c v).getLsbD i = (decide (i < xlenBits c) && v.getLsbD i) := by
  rw [BitVec.getLsbD, zx_toNat, Nat.testBit_mod_two_pow]
  rfl

/-- `VS` lies in bits 10:9. -/
theorem getLsbD_vsMask : ∀ i < 64, vsMask.getLsbD i = decide (i = 9 ∨ i = 10) := by decide

theorem getLsbD_misaVMask : ∀ i < 64, misaVMask.getLsbD i = decide (i = 21) := by decide

/-- `sstatus` always shows bits 10:9. -/
theorem getLsbD_sstatusBits_vs (s : State) {j : Nat} (hj : j < 2) : (sstatusBits s).getLsbD (9 + j) = true := by
  rw [sstatusBits, BitVec.getLsbD_or, getLsbD_vsMask _ (by omega), decide_eq_true (by omega), Bool.or_true]

/-- Bits 10:9 of `mstatus` are the code of `VS`. -/
theorem readMstatus_vs (s : State) {j : Nat} (hj : j < 2) :
    (readMstatus s).getLsbD (9 + j) = (vsCode s.vs).getLsbD j := by
  have hx : 9 + j < xlenBits s.cfg := by rcases xlenBits_cases s.cfg with h | h <;> omega
  rw [readMstatus, getLsbD_zx, BitVec.getLsbD_or, BitVec.getLsbD_and, BitVec.getLsbD_not, getLsbD_vsMask _ (by omega),
    BitVec.getLsbD_shiftLeft, BitVec.getLsbD_setWidth]
  have hvs : 9 + j = 9 ∨ 9 + j = 10 := by omega
  simp only [hx, hvs, (by omega : 9 + j < 64), decide_eq_false (by omega : ¬9 + j < 9), (by omega : j < 64),
    Nat.add_sub_cancel_left, decide_true, Bool.not_true, Bool.not_false, Bool.and_false, Bool.true_and, Bool.false_or]

/-- The other bits of `mstatus` are `Base`'s. -/
theorem readMstatus_other (s : State) {i : Nat} (hi : i < 64) (hne : ¬(i = 9 ∨ i = 10)) :
    (readMstatus s).getLsbD i = (decide (i < xlenBits s.cfg) && s.mstatusOther.getLsbD i) := by
  have hcode : ((vsCode s.vs).setWidth 64 <<< 9).getLsbD i = false := by
    rw [BitVec.getLsbD_shiftLeft, BitVec.getLsbD_setWidth]
    by_cases hlt : i < 9
    · simp [hlt]
    · simp [BitVec.getLsbD_of_ge (vsCode s.vs) (i - 9) (by omega)]
  rw [readMstatus, getLsbD_zx, BitVec.getLsbD_or, hcode, BitVec.getLsbD_and, BitVec.getLsbD_not, getLsbD_vsMask i hi]
  simp [hi, hne]

/-! ### One field, two views -/

theorem vsCode_vsOfCode : ∀ v : BitVec 2, vsCode (vsOfCode v) = v := by decide

theorem extract_readMstatus (s : State) : (readMstatus s).extractLsb' 9 2 = vsCode s.vs := by
  apply BitVec.eq_of_getLsbD_eq
  intro j hj
  rw [BitVec.getLsbD_extractLsb', readMstatus_vs s hj, decide_eq_true hj, Bool.true_and]

theorem extract_readSstatus (s : State) : (readSstatus s).extractLsb' 9 2 = vsCode s.vs := by
  apply BitVec.eq_of_getLsbD_eq
  intro j hj
  rw [BitVec.getLsbD_extractLsb', readSstatus, BitVec.getLsbD_and, readMstatus_vs s hj, getLsbD_sstatusBits_vs s hj,
    decide_eq_true hj, Bool.true_and, Bool.and_true]

/-- A write of `sstatus` sets `VS` as a write of `mstatus` does. -/
theorem writeSstatus_vs (s : State) (v : Word) : (writeSstatus s v).vs = vsOfCode (v.extractLsb' 9 2) := by
  rw [writeSstatus, writeMstatus_vs]
  congr 1
  apply BitVec.eq_of_getLsbD_eq
  intro j hj
  simp [getLsbD_sstatusBits_vs s hj, hj]

/-- A write of `sstatus` leaves the bits of `mstatus` that it does not show; they are bits of `Base`. -/
theorem writeSstatus_hidden (s : State) (v : Word) :
    readMstatus (writeSstatus s v) &&& ~~~sstatusBits s = readMstatus s &&& ~~~sstatusBits s := by
  apply BitVec.eq_of_getLsbD_eq
  intro i hi
  rw [BitVec.getLsbD_and, BitVec.getLsbD_and, BitVec.getLsbD_not]
  cases hshown : (sstatusBits s).getLsbD i with
  | true => simp
  | false =>
    have hne : ¬(i = 9 ∨ i = 10) := by
      rw [sstatusBits, BitVec.getLsbD_or, getLsbD_vsMask i hi, Bool.or_eq_false_iff] at hshown
      exact of_decide_eq_false hshown.2
    have hnew : (writeSstatus s v).mstatusOther.getLsbD i =
        (decide (i < xlenBits s.cfg) && (readMstatus s).getLsbD i) := by
      rw [writeSstatus, writeMstatus_mstatusOther, BitVec.getLsbD_and, BitVec.getLsbD_not, getLsbD_vsMask i hi,
        getLsbD_zx, BitVec.getLsbD_or, BitVec.getLsbD_and, BitVec.getLsbD_and, BitVec.getLsbD_not, hshown]
      simp only [hi, hne, decide_true, decide_false, Bool.not_false, Bool.and_true, Bool.and_false, Bool.or_false]
    have hcfg : (writeSstatus s v).cfg = s.cfg := rfl
    rw [readMstatus_other _ hi hne, hnew, hcfg, readMstatus_other s hi hne, Bool.and_self_left, Bool.and_self_left]

/-- Settles O40. -/
theorem sstatusShadowsVs : Obligations.SstatusShadowsVs := by
  refine ⟨rfl, rfl, rfl, rfl, fun s v => ⟨extract_readMstatus s, extract_readSstatus s, vsCode_vsOfCode _, ?_,
    ⟨rfl, rfl, rfl, rfl, rfl, rfl⟩, ⟨rfl, rfl, rfl, rfl, rfl, rfl⟩, writeSstatus_hidden s v⟩⟩
  rw [writeSstatus_vs, vsCode_vsOfCode]

/-! ### `misa` (10_state.md R29) -/

/-- Settles O41. -/
theorem misaVStaysSet : Obligations.MisaVStaysSet := by
  intro s v
  refine ⟨?_, fun hwritable hclear => ?_, fun h => ⟨{ s with misaOther := zx s.cfg v &&& ~~~misaVMask }, ?_, ?_,
    ⟨rfl, rfl, rfl, rfl, rfl, rfl⟩, rfl⟩⟩
  · have hx : 21 < xlenBits s.cfg := by rcases xlenBits_cases s.cfg with h | h <;> omega
    rw [readMisa, getLsbD_zx, BitVec.getLsbD_or, getLsbD_misaVMask 21 (by decide)]
    simp [hx]
  · rw [writeMisa, hwritable, hclear]
    rfl
  · rw [writeMisa, if_neg]
    rcases h with h | h <;> simp [h]
  · apply BitVec.eq_of_getLsbD_eq
    intro i hi
    simp only [readMisa, getLsbD_zx, BitVec.getLsbD_or, BitVec.getLsbD_and, BitVec.getLsbD_not]
    have hbits : ∀ fits written isV : Bool,
        (fits && (fits && written && (true && !isV) || isV)) = (fits && (written || isV)) := by decide
    rw [decide_eq_true hi]
    exact hbits _ _ _

/-! ### The handler (60_exceptions.md R292, R293) -/

/-- The state in which the handler resumes the instruction that trapped in `s`. -/
def resumedWithVsInitial (s : State) : State := resumeAt (readPc s) (writeSstatus (trapped s) 0x200#64)

theorem resumedWithVsInitial_vs (s : State) : (resumedWithVsInitial s).vs = .initial := by
  rw [resumedWithVsInitial, resumeAt_vs, writeSstatus_vs]
  rfl

theorem readPc_resumedWithVsInitial (s : State) : readPc (resumedWithVsInitial s) = readPc s := by
  have h : readPc (resumedWithVsInitial s) = zx s.cfg (zx s.cfg (readPc s)) := rfl
  rw [h, zx_zx, readPc, zx_zx]

/-- Settles O42: the handler changes no integer register, and the instruction is at the address that the trap holds. -/
theorem handlerTurnsUnitOnAndResumes : Obligations.HandlerTurnsUnitOnAndResumes := by
  intro s t rd hoff _ h
  have ht : t = trapped s := by
    rw [exec_access_off (csr := .vlenb) rfl (by simp [isCsrAccess]) hoff] at h
    exact (Host.Outcome.next.inj h).symm
  subst ht
  have hon : (resumedWithVsInitial s).vs ≠ .off := by simp [resumedWithVsInitial_vs]
  obtain ⟨hx, hpc, -, hvs, -, htrap, -⟩ := afterRead_spec (resumedWithVsInitial s) .vlenb rd
  refine ⟨⟨.illegalInstruction, readPc s⟩, afterRead (resumedWithVsInitial s) .vlenb rd, rfl, rfl, ?_, fun r => ?_,
    hvs.trans (resumedWithVsInitial_vs s), htrap, ?_⟩
  · exact exec_read_rdOf (i := .csrrs rd .vlenb 0#5) rfl (by simp [isCsrAccess]) rfl hon
  · have hread : readX (resumedWithVsInitial s) r = readX s r := readX_congr rfl rfl r
    rw [hx r, hread]
    rfl
  · rw [PcAdvanced, readPc_resumedWithVsInitial] at hpc
    exact hpc

end Sys2Proof.Proofs
end

