-- ==== Sys2Proof/Proofs/SizesAndRounding.lean ====
section
/-! PROOFS. The derived widths (00_scope.md R10), and fixed-point rounding as arithmetic (43_fixed_point_rounding.md
section 1). -/

namespace Sys2Proof.Proofs

open Sys2Proof.Machine Sys2Proof.Laws

/-! ### The derived widths -/

/-- The largest VLMAX is the least bound of them. -/
theorem vlmaxMax_le_of {c : Config} {n : Nat} (h : ∀ sew lmul, supports c sew lmul = true → vlmaxOf c sew lmul ≤ n) :
    vlmaxMax c ≤ n := by
  have hfold : ∀ l : List (Sew × Lmul), (∀ p ∈ l, vlmaxOf c p.1 p.2 ≤ n) →
      (l.map fun p => vlmaxOf c p.1 p.2).foldr max 0 ≤ n := by
    intro l hl
    induction l with
    | nil => exact Nat.zero_le n
    | cons p l ih =>
      rw [List.forall_mem_cons] at hl
      exact Nat.max_le.mpr ⟨hl.1, ih hl.2⟩
  exact hfold c.supportedPairs fun p hp => h p.1 p.2 (by simpa [supports] using hp)

/-- Settles O44: both widths are ceil(log2) of a count, which is the least exponent that holds it. -/
theorem derivedWidthsHoldEveryIndex : Obligations.DerivedWidthsHoldEveryIndex := by
  intro c hc
  refine ⟨fun sew lmul hs => ?_, fun k h => ?_, fun k h => ?_, fun hs => ?_⟩
  · have hmax := vlmax_le_max hs
    have hvl : vlmaxMax c + 1 ≤ 2 ^ vlBits c := le_two_pow_ceilLog2 _
    have hvstart : vlmaxMax c ≤ 2 ^ vstartBits c := le_two_pow_ceilLog2 _
    have hpos : 0 < 2 ^ vstartBits c := Nat.two_pow_pos _
    omega
  · refine ceilLog2_le (vlmaxMax_le_of fun sew lmul hs => ?_)
    have := h sew lmul hs
    omega
  · have hlt : vlmaxMax c ≤ 2 ^ k - 1 := vlmaxMax_le_of fun sew lmul hs => by
      have := h sew lmul hs
      omega
    have hpos : 0 < 2 ^ k := Nat.two_pow_pos _
    exact ceilLog2_le (by omega)
  · have hmax : vlmaxMax c = c.vlen :=
      Nat.le_antisymm (vlmaxMax_le c) (vlmaxOf_e8_m8 c ▸ vlmax_le_max hs)
    obtain ⟨k, -, -, hk⟩ := vlen_pow hc
    rw [vstartBits, hmax, hk, ceilLog2_two_pow]

/-! ### The four modes (R262)

`n` is the value of the pre-rounding string, signed or unsigned: what counts is that it has the remainder, and the
parity of the quotient, that the string has. -/

section Modes

variable {w : Nat} {v : BitVec w} {d : Nat} {n : Int}

theorem two_pow_eq_double {d : Nat} (hd : 1 ≤ d) : 2 ^ d = 2 * 2 ^ (d - 1) := by
  rw [← Nat.pow_succ', Nat.succ_eq_add_one, Nat.sub_add_cancel hd]

/-- rnu rounds to the nearest, up on a tie. -/
theorem rnu_arithmetic (hd : 1 ≤ d) (hrem : n % 2 ^ d = (v.toNat % 2 ^ d : Nat)) :
    n / 2 ^ d + (roundIncrement v d 0#2).toNat = (n + 2 ^ (d - 1)) / 2 ^ d := by
  have hdouble := two_pow_eq_double hd
  have hlt : v.toNat % 2 ^ d < 2 ^ d := Nat.mod_lt _ (Nat.two_pow_pos d)
  have hpos : (2 : Int) ^ d ≠ 0 := by positivity
  have hcarry : (v.toNat % 2 ^ d + 2 ^ (d - 1)) / 2 ^ d = (roundIncrement v d 0#2).toNat := by
    rw [roundIncrement_rnu v hd]
    by_cases hhalf : 2 ^ (d - 1) ≤ v.toNat % 2 ^ d
    · rw [decide_eq_true hhalf, Nat.div_eq_of_lt_le (k := 1) (by omega) (by omega)]
      rfl
    · rw [decide_eq_false hhalf, Nat.div_eq_of_lt (by omega)]
      rfl
  have hsplit : n + 2 ^ (d - 1) = ((v.toNat % 2 ^ d + 2 ^ (d - 1) : Nat) : Int) + 2 ^ d * (n / 2 ^ d) := by
    have := Int.emod_add_mul_ediv n (2 ^ d)
    rw [hrem] at this
    push_cast at this ⊢
    linarith
  rw [hsplit, Int.add_mul_ediv_left _ _ hpos, ← hcarry]
  push_cast
  ring

/-- rne rounds up above one half, and at one half where the quotient is odd. -/
theorem roundIncrement_rne_iff (v : BitVec w) (hd : 1 ≤ d) : roundIncrement v d 1#2 = true ↔
    2 ^ (d - 1) < v.toNat % 2 ^ d ∨ (v.toNat % 2 ^ d = 2 ^ (d - 1) ∧ v.toNat / 2 ^ d % 2 = 1) := by
  have hdouble := two_pow_eq_double hd
  have hlt : v.toNat % 2 ^ d < 2 ^ d := Nat.mod_lt _ (Nat.two_pow_pos d)
  simp only [roundIncrement_rne v hd, Bool.and_eq_true, Bool.or_eq_true, decide_eq_true_eq]
  by_cases hhalf : 2 ^ (d - 1) ≤ v.toNat % 2 ^ d
  · rw [Nat.mod_eq_sub_mod hhalf, Nat.mod_eq_of_lt (by omega : v.toNat % 2 ^ d - 2 ^ (d - 1) < 2 ^ (d - 1))]
    omega
  · omega

/-- rne stays within half of the quotient, and is even on a tie. -/
theorem rne_arithmetic (hd : 1 ≤ d) (hrem : n % 2 ^ d = (v.toNat % 2 ^ d : Nat))
    (hpar : n / 2 ^ d % 2 = (v.toNat / 2 ^ d % 2 : Nat)) :
    2 * (n / 2 ^ d + (roundIncrement v d 1#2).toNat) * 2 ^ d ≤ 2 * n + 2 ^ d ∧
      2 * n - 2 ^ d ≤ 2 * (n / 2 ^ d + (roundIncrement v d 1#2).toNat) * 2 ^ d ∧
      (2 * (n % 2 ^ d) = 2 ^ d → (n / 2 ^ d + (roundIncrement v d 1#2).toNat) % 2 = 0) := by
  have hdouble : (2 : Int) ^ d = 2 * (2 ^ (d - 1) : Nat) := by exact_mod_cast two_pow_eq_double hd
  have hlt : n % 2 ^ d < 2 ^ d := Int.emod_lt_of_pos _ (by positivity)
  have hnonneg : 0 ≤ n % 2 ^ d := Int.emod_nonneg _ (by positivity)
  have hsplit : n % 2 ^ d + 2 ^ d * (n / 2 ^ d) = n := Int.emod_add_mul_ediv n (2 ^ d)
  have hup := roundIncrement_rne_iff v hd
  cases hr : roundIncrement v d 1#2 with
  | true =>
    have hup := hup.mp hr
    simp only [Bool.toNat_true, Nat.cast_one]
    refine ⟨?_, ?_, by omega⟩
    · have : (2 : Int) ^ d ≤ 2 * (n % 2 ^ d) := by omega
      linarith
    · linarith
  | false =>
    have hdown := mt hup.mpr (by simp [hr])
    simp only [Bool.toNat_false, Nat.cast_zero, add_zero]
    refine ⟨?_, ?_, by omega⟩
    · linarith
    · have : 2 * (n % 2 ^ d) ≤ (2 : Int) ^ d := by omega
      linarith

/-- rdn is the floor. -/
theorem rdn_arithmetic (v : BitVec w) (d : Nat) (n : Int) : n / 2 ^ d + (roundIncrement v d 2#2).toNat = n / 2 ^ d := by
  rw [roundIncrement_rdn v d, Bool.toNat_false, Nat.cast_zero, add_zero]

/-- rod is the quotient where it is exact, and else the odd one of the floor and its successor. -/
theorem rod_arithmetic (hd : 1 ≤ d) (hrem : n % 2 ^ d = (v.toNat % 2 ^ d : Nat))
    (hpar : n / 2 ^ d % 2 = (v.toNat / 2 ^ d % 2 : Nat)) :
    (n % 2 ^ d = 0 → n / 2 ^ d + (roundIncrement v d 3#2).toNat = n / 2 ^ d) ∧
      (n % 2 ^ d ≠ 0 → (n / 2 ^ d + (roundIncrement v d 3#2).toNat) % 2 = 1 ∧
        (n / 2 ^ d + (roundIncrement v d 3#2).toNat = n / 2 ^ d ∨
          n / 2 ^ d + (roundIncrement v d 3#2).toNat = n / 2 ^ d + 1)) := by
  have hup : roundIncrement v d 3#2 = true ↔ n / 2 ^ d % 2 = 0 ∧ n % 2 ^ d ≠ 0 := by
    rw [roundIncrement_rod v hd, hrem, hpar]
    simp only [Bool.and_eq_true, Bool.not_eq_true', decide_eq_false_iff_not, decide_eq_true_eq]
    omega
  cases hr : roundIncrement v d 3#2 with
  | true =>
    obtain ⟨heven, hinexact⟩ := hup.mp hr
    rw [Bool.toNat_true, Nat.cast_one]
    exact ⟨fun hexact => absurd hexact hinexact, fun _ => ⟨by omega, .inr rfl⟩⟩
  | false =>
    have hdown := mt hup.mpr (by simp [hr])
    rw [Bool.toNat_false, Nat.cast_zero, add_zero]
    refine ⟨fun _ => rfl, fun hinexact => ⟨?_, .inl rfl⟩⟩
    have hodd : n / 2 ^ d % 2 ≠ 0 := fun heven => hdown ⟨heven, hinexact⟩
    omega

end Modes

/-- Settles O45: the unsigned and the signed value have the remainder and the parity that the increments look at. -/
theorem roundingModesAreTheirArithmetic : Obligations.RoundingModesAreTheirArithmetic := by
  intro w v d hd hdw n r0 r1 r2 r3 h
  have hdigits : n % 2 ^ d = (v.toNat % 2 ^ d : Nat) ∧ n / 2 ^ d % 2 = (v.toNat / 2 ^ d % 2 : Nat) := by
    rcases h with ⟨rfl, -⟩ | ⟨rfl, -⟩
    · exact ⟨by push_cast; rfl, by push_cast; rfl⟩
    · exact toInt_digits v hdw
  have hsum : r0 = n / 2 ^ d + (roundIncrement v d 0#2).toNat ∧ r1 = n / 2 ^ d + (roundIncrement v d 1#2).toNat ∧
      r2 = n / 2 ^ d + (roundIncrement v d 2#2).toNat ∧ r3 = n / 2 ^ d + (roundIncrement v d 3#2).toNat := by
    rcases h with ⟨rfl, rfl, rfl, rfl, rfl⟩ | ⟨rfl, rfl, rfl, rfl, rfl⟩
    · simp [roundoffUnsigned]
    · simp [roundoffSigned]
  obtain ⟨hrem, hpar⟩ := hdigits
  obtain ⟨rfl, rfl, rfl, rfl⟩ := hsum
  obtain ⟨hexact, hinexact⟩ := rod_arithmetic hd hrem hpar
  exact ⟨rnu_arithmetic hd hrem, rne_arithmetic hd hrem hpar, rdn_arithmetic v d n, hexact, hinexact⟩

/-! ### The rounded results do not wrap (R261) -/

/-- The increment is at most 1. -/
theorem roundIncrement_le {w : Nat} (v : BitVec w) (d : Nat) (mode : BitVec 2) : (roundIncrement v d mode).toNat ≤ 1 :=
  Bool.toNat_le _

theorem roundoffUnsigned_le {w : Nat} (v : BitVec w) {d : Nat} (mode : BitVec 2) (hdw : d < w) :
    roundoffUnsigned v d mode ≤ 2 ^ (w - d) := by
  have hfloor : v.toNat / 2 ^ d < 2 ^ (w - d) := by
    rw [Nat.div_lt_iff_lt_mul (Nat.two_pow_pos d), ← Nat.pow_add, Nat.sub_add_cancel hdw.le]
    exact v.isLt
  have hinc := roundIncrement_le v d mode
  unfold roundoffUnsigned
  omega

theorem roundoffSigned_bounds {w : Nat} (v : BitVec w) {d : Nat} (mode : BitVec 2) (hdw : d < w) :
    -(2 : Int) ^ (w - 1 - d) ≤ roundoffSigned v d mode ∧ roundoffSigned v d mode ≤ 2 ^ (w - 1 - d) := by
  have hpow : (2 : Int) ^ (w - 1) = 2 ^ (w - 1 - d) * 2 ^ d := by
    rw [← pow_add, Nat.sub_add_cancel (by omega)]
  have hlo := v.le_toInt
  have hhi := v.toInt_lt
  rw [hpow] at hlo hhi
  have hfloor : -(2 : Int) ^ (w - 1 - d) ≤ v.toInt / 2 ^ d :=
    Int.le_ediv_of_mul_le (by positivity) (by linarith)
  have hceil : v.toInt / 2 ^ d < 2 ^ (w - 1 - d) := Int.ediv_lt_of_lt_mul (by positivity) hhi
  have hinc := roundIncrement_le v d mode
  unfold roundoffSigned
  omega

/-- Settles O46. -/
theorem roundedResultsFit : Obligations.RoundedResultsFit := by
  intro w v d mode hdw
  refine ⟨fun _ => ⟨roundoffUnsigned_le v mode hdw, roundoffSigned_bounds v mode hdw⟩, ?_⟩
  rintro rfl
  simp [roundoffUnsigned, roundoffSigned, roundIncrement]

end Sys2Proof.Proofs
end

