-- ==== Sys2Proof/Proofs/FrameOutcomes.lean ====
section
/-! PROOFS. The frame of every vector instruction: its checks, its layout, and what it leaves besides its vector
destination (42_vector_instruction_frame.md sections 1, 2 and 5, 60_exceptions.md). -/

namespace Sys2Proof.Proofs

open Sys2Proof.Machine Sys2Proof.Laws

/-! ### The checks in their order (R221) -/

/-- The checks that raise illegal-instruction whatever the parameters are (R281 to R283, R285) all pass. -/
structure ExceptionChecksPass (depends requiresZero : Bool) (word : BitVec 32) (s : State) : Prop where
  on : s.vs ≠ .off
  typed : ¬(depends = true ∧ s.vtype = .illegal)
  atZero : ¬(requiresZero = true ∧ s.vstart ≠ 0)
  legal : legalVstart s.cfg word s.vtype s.vstart = true

theorem currentVlmax_legal {s : State} {f : VFields} (h : s.vtype = .legal f) :
    currentVlmax s = vlmaxOf s.cfg f.vsew f.vlmul := by
  simp [currentVlmax, h, vlmaxOfType]

theorem inSmallLmulRegion_legal {s : State} {f : VFields} (h : s.vtype = .legal f) :
    inSmallLmulRegion s = belowLmulBound s.cfg f.vlmul := by
  simp [inSmallLmulRegion, h]

section Ladder

variable {d z m : Bool} {w : BitVec 32} {s : State} {work : Host.Outcome State Fault Refusal}

theorem frameChecks_requiresZero (hz : z = true) (hs : s.vstart ≠ 0) :
    frameChecks d z m w s work = .next (trapped s) := by
  unfold frameChecks
  split
  · rfl
  split
  · rfl
  rw [if_pos (by simp [hz, hs]), raiseIllegal_eq]

theorem frameChecks_illegalVstart (h : legalVstart s.cfg w s.vtype s.vstart = false) :
    frameChecks d z m w s work = .next (trapped s) := by
  unfold frameChecks
  split
  · rfl
  split
  · rfl
  split
  · rfl
  rw [if_pos (by simp [h]), raiseIllegal_eq]

/-- Past the exceptions, the reserved uses in their order. -/
theorem frameChecks_of_exceptionChecks (h : ExceptionChecksPass d z w s) : frameChecks d z m w s work =
    if d && decide (currentVlmax s ≤ s.vstart) then
      (if s.cfg.vstartOobTraps then .next (trapped s) else reservedUse .reservedVstart s)
    else if inSmallLmulRegion s then reservedUse .reservedSmallLmul s
    else if m then reservedUse .reservedGroupNumber s
    else work := by
  obtain ⟨hon, htyped, hzero, hlegal⟩ := h
  rw [frameChecks, if_neg hon, if_neg (by simpa using htyped), if_neg (by simpa [and_comm] using hzero),
    if_neg (by simp [hlegal]), raiseIllegal_eq]

theorem frameChecks_outOfBound (h : ExceptionChecksPass d z w s) (hd : d = true) (hb : currentVlmax s ≤ s.vstart) :
    frameChecks d z m w s work =
      if s.cfg.vstartOobTraps then .next (trapped s) else reservedUse .reservedVstart s := by
  rw [frameChecks_of_exceptionChecks h, if_pos (by simp [hd, hb])]

theorem frameChecks_smallLmul (h : ExceptionChecksPass d z w s) (hb : d = true → s.vstart < currentVlmax s)
    (hsmall : inSmallLmulRegion s = true) : frameChecks d z m w s work = reservedUse .reservedSmallLmul s := by
  rw [frameChecks_of_exceptionChecks h, if_neg (by simpa using hb), if_pos hsmall]

theorem frameChecks_misnumbered (h : ExceptionChecksPass d z w s) (hb : d = true → s.vstart < currentVlmax s)
    (hlarge : inSmallLmulRegion s = false) (hm : m = true) :
    frameChecks d z m w s work = reservedUse .reservedGroupNumber s := by
  rw [frameChecks_of_exceptionChecks h, if_neg (by simpa using hb), if_neg (by simp [hlarge]), if_pos hm]

/-- With no reserved use left either, every check has passed. -/
theorem ExceptionChecksPass.checksPass (h : ExceptionChecksPass d z w s) (hb : d = true → s.vstart < currentVlmax s)
    (hlarge : inSmallLmulRegion s = false) (hm : m = false) : ChecksPass d z m w s where
  on := h.on
  typed := fun hd hty => h.typed ⟨hd, hty⟩
  atZero := fun hz => Decidable.byContradiction fun h0 => h.atZero ⟨hz, h0⟩
  legal := h.legal
  bound := hb
  large := hlarge
  numbered := hm

end Ladder

/-! ### How the instruction ends when the checks pass -/

/-- An instruction of the frame is its checks, and then work of its own. -/
theorem vectorInstruction_eq_frameChecks (I : VInstr) (stop : Option Stop) (s : State) : ∃ work,
    vectorInstruction I stop s =
      frameChecks (dependsOnVtype I.cls) I.requiresVstartZero (hasMisnumberedGroup I s) I.word s work :=
  ⟨_, rfl⟩

theorem vectorInstruction_none_of_pass {I : VInstr} {s : State} (h : FrameChecksPass I s) :
    vectorInstruction I none s = .next (completeVector I s) :=
  frameChecks_of_pass h _

theorem vectorInstruction_some_of_pass {I : VInstr} {s : State} (h : FrameChecksPass I s) (p : Stop) :
    vectorInstruction I (some p) s =
      .next (if canStopAt I p s then trapAtElement I p s else completeVector I s) := by
  rw [vectorInstruction, frameChecks_of_pass h]
  exact (apply_ite _ _ _ _).symm

/-- A reserved use traps or is refused, as the parameters say. -/
theorem reservedUse_outcome {s : State} {r : Refusal} {o : Host.Outcome State Fault Refusal}
    (h : o = reservedUse r s) :
    (s.cfg.reservedTraps = true → TrapsIllegal s o) ∧ (s.cfg.reservedTraps = false → o = .refused r) :=
  ⟨fun ht => h.trans (reservedUse_traps ht r), fun hr => h.trans (reservedUse_refuses hr r)⟩

/-- Settles O47. -/
theorem frameChecksDecideTheOutcome : Obligations.FrameChecksDecideTheOutcome := by
  refine ⟨fun I stop s hs => ⟨fun hd hvill => ?vill, fun hz h0 => frameChecks_requiresZero hz h0,
    fun hl => frameChecks_illegalVstart hl, fun htyped hzero hlegal => ?reserved⟩,
    fun I s n w hs hvill hcls hzero hlegal hm => ?whole, legalVstart_zero⟩
  case vill =>
    obtain ⟨work, hI⟩ := vectorInstruction_eq_frameChecks I stop s
    rw [hI, hd]
    exact frameChecks_vill hvill work
  case reserved =>
    have hpass : ExceptionChecksPass (dependsOnVtype I.cls) I.requiresVstartZero I.word s := ⟨hs, htyped, hzero, hlegal⟩
    refine ⟨fun f hty hd hb => ?bound, fun hb => ?_⟩
    case bound =>
      rw [← currentVlmax_legal hty] at hb
      obtain ⟨work, hI⟩ := vectorInstruction_eq_frameChecks I stop s
      rw [hI, frameChecks_outOfBound hpass hd hb]
      refine ⟨fun htraps => ?_, fun hoob hrefuses => by rw [hoob, if_neg (by simp), reservedUse_refuses hrefuses]⟩
      split
      · rfl
      next hoob => exact reservedUse_traps (htraps.resolve_left hoob) _
    have hbound : dependsOnVtype I.cls = true → s.vstart < currentVlmax s := fun hd => by
      cases hty : s.vtype with
      | illegal => exact absurd ⟨hd, hty⟩ htyped
      | legal f => exact (currentVlmax_legal hty).symm ▸ hb f hty hd
    refine ⟨fun f hty hsmall => reservedUse_outcome ?_, fun hlarge => ?_⟩
    · exact frameChecks_smallLmul hpass hbound ((inSmallLmulRegion_legal hty).trans hsmall)
    have hregion : inSmallLmulRegion s = false := by
      cases hty : s.vtype with
      | illegal => simp [inSmallLmulRegion, hty]
      | legal f => exact (inSmallLmulRegion_legal hty).trans (hlarge f hty)
    refine ⟨fun hm => reservedUse_outcome (frameChecks_misnumbered hpass hbound hregion hm), fun hm => ?_⟩
    have hall : FrameChecksPass I s := hpass.checksPass hbound hregion hm
    refine ⟨vectorInstruction_none_of_pass hall, fun p => ?_⟩
    rw [vectorInstruction_some_of_pass hall p]
    simp only [canStopAt_iff]
  case whole =>
    have hd : dependsOnVtype I.cls = false := by rw [hcls, dependsOnVtype]
    refine vectorInstruction_none_of_pass ⟨hs, fun h => ?_, hzero, hlegal, fun h => ?_, ?_, hm⟩
    · rw [hd] at h
      cases h
    · rw [hd] at h
      cases h
    · simp [inSmallLmulRegion, hvill]

/-! ### Register groups (R250, 10_state.md R39) -/

theorem misnumbered_iff (n size : Nat) : misnumbered n size = true ↔ size ∈ [2, 4, 8] ∧ n % size ≠ 0 := by
  simp [misnumbered, or_assoc]

/-- A group of one register has every number. -/
theorem misnumbered_groupRegisters (n : Nat) (lmul : Lmul) :
    misnumbered n (groupRegisters lmul) = true ↔ n % groupRegisters lmul ≠ 0 := by
  rw [misnumbered_iff]
  cases lmul <;> simp [groupRegisters, Nat.mod_one]

/-- The group operands are the group sources and a group destination. -/
theorem mem_groupOperands_iff (I : VInstr) (k : Nat) : k ∈ groupOperands I ↔
    ∃ n : RegNo, (VSource.group n ∈ I.sources ∨ ∃ result, I.dest = .group n result) ∧ n.toNat = k := by
  unfold groupOperands
  rw [List.mem_append, List.mem_filterMap]
  constructor
  · rintro (⟨v, hv, hk⟩ | hk)
    · cases v with
      | group n => exact ⟨n, .inl hv, Option.some.inj hk⟩
      | mask n => cases hk
    · cases hd : I.dest with
      | group vd result =>
        rw [hd] at hk
        exact ⟨vd, .inr ⟨result, rfl⟩, (List.mem_singleton.mp hk).symm⟩
      | mask _ _ _ | xreg _ _ | none =>
        rw [hd] at hk
        cases hk
  · rintro ⟨n, hn | ⟨result, hd⟩, rfl⟩
    · exact .inl ⟨_, hn, rfl⟩
    · rw [hd]
      exact .inr (List.mem_singleton.mpr rfl)

theorem hasMisnumberedGroup_iff {I : VInstr} {s : State} {L : Layout} (hL : layoutOf I s = some L) :
    hasMisnumberedGroup I s = true ↔
      ∃ n : RegNo, (VSource.group n ∈ I.sources ∨ ∃ result, I.dest = .group n result) ∧
        misnumbered n.toNat L.registers = true := by
  rw [hasMisnumberedGroup, hL, List.any_eq_true]
  constructor
  · rintro ⟨k, hk, hmis⟩
    obtain ⟨n, hn, rfl⟩ := (mem_groupOperands_iff I k).mp hk
    exact ⟨n, hn, hmis⟩
  · rintro ⟨n, hn, hmis⟩
    exact ⟨n.toNat, (mem_groupOperands_iff I _).mpr ⟨n, hn, rfl⟩, hmis⟩

/-- The layout of an instruction that depends on `vtype`, with `vtype` legal. -/
theorem layoutOf_legal {I : VInstr} {s : State} {f : VFields} (hd : dependsOnVtype I.cls = true)
    (hty : s.vtype = .legal f) : layoutOf I s =
      some ⟨sewBits f.vsew, groupRegisters f.vlmul, vlmaxOf s.cfg f.vsew f.vlmul, f.vta, f.vma⟩ := by
  rw [layoutOf_of_depends hd, hty, layoutOfVtype]

theorem layoutOf_wholeRegister {I : VInstr} {n w : Nat} (h : I.cls = .wholeRegister n w) (s : State) :
    layoutOf I s = some ⟨w, n, n * (s.cfg.vlen / w), false, false⟩ := by
  rw [layoutOf, h]

/-- Settles O48. -/
theorem groupNumbersFollowLmul : Obligations.GroupNumbersFollowLmul := by
  refine ⟨fun I s => ⟨fun f hd hty => ?_, fun k w hcls => ?_⟩, fun lmul => by cases lmul <;> rfl⟩
  · rw [hasMisnumberedGroup_iff (layoutOf_legal hd hty)]
    simp only [misnumbered_groupRegisters]
  · rw [hasMisnumberedGroup_iff (layoutOf_wholeRegister hcls s)]
    simp only [misnumbered_iff]
    constructor
    · rintro ⟨n, hn, hk, hmod⟩
      exact ⟨hk, n, hn, hmod⟩
    · rintro ⟨hk, n, hn, hmod⟩
      exact ⟨n, hn, hk, hmod⟩

/-! ### The layout (10_state.md section 5) -/

/-- SEW divides VLEN: both are powers of two. -/
theorem sewBits_dvd_vlen {c : Config} (hc : configValid c = true) {sew : Sew} {lmul : Lmul}
    (hs : supports c sew lmul = true) : sewBits sew ∣ c.vlen := by
  have hle := sewBits_le_vlen hc hs
  obtain ⟨k, -, -, hk⟩ := vlen_pow hc
  obtain ⟨a, -, -, ha⟩ := sewBits_pow sew
  rw [hk, ha] at hle ⊢
  exact Nat.pow_dvd_pow 2 ((Nat.pow_le_pow_iff_right (by decide)).mp hle)

/-- LMUL is at most the number of registers of a group. -/
theorem lmulEighths_le (lmul : Lmul) : lmulEighths lmul ≤ 8 * groupRegisters lmul := by
  cases lmul <;> decide

/-- VLMAX elements fit a group: as many as each of its registers holds. -/
theorem vlmaxOf_le_group {c : Config} {sew : Sew} (lmul : Lmul) (h : sewBits sew ∣ c.vlen) :
    vlmaxOf c sew lmul ≤ groupRegisters lmul * (c.vlen / sewBits sew) := by
  have hpos : 0 < sewBits sew := by cases sew <;> decide
  unfold vlmaxOf
  apply Nat.div_le_of_le_mul
  calc lmulEighths lmul * c.vlen
      ≤ 8 * groupRegisters lmul * c.vlen := Nat.mul_le_mul_right _ (lmulEighths_le lmul)
    _ = 8 * groupRegisters lmul * (sewBits sew * (c.vlen / sewBits sew)) := by rw [Nat.mul_div_cancel' h]
    _ = 8 * sewBits sew * (groupRegisters lmul * (c.vlen / sewBits sew)) := by ring

/-- Settles O50. -/
theorem layoutFollowsVtype : Obligations.LayoutFollowsVtype := by
  refine ⟨fun I s f hd hty => ⟨_, layoutOf_legal hd hty, rfl, rfl, rfl, rfl, rfl, fun hc hs => ?_⟩,
    fun I s n w hcls => ⟨_, layoutOf_wholeRegister hcls s, rfl, rfl, rfl, rfl,
      fun hn hw hdvd => ⟨hw, hdvd, hn, le_rfl⟩⟩⟩
  have hdvd := sewBits_dvd_vlen hc hs
  have hwidth : 0 < sewBits f.vsew := by cases f.vsew <;> decide
  have hregisters : 1 ≤ groupRegisters f.vlmul := by cases f.vlmul <;> decide
  exact ⟨hwidth, hdvd, hregisters, vlmaxOf_le_group f.vlmul hdvd⟩

/-! ### `vstart` (R229, 60_exceptions.md R286) -/

/-- Settles O49. -/
theorem vstartAfterAVectorInstruction : Obligations.VstartAfterAVectorInstruction := by
  refine ⟨fun I stop s t hs h => ?_, fun i s t hi hs h => ?_⟩
  · rcases vectorInstruction_cases h with rfl | ⟨-, rfl⟩ | ⟨p, hp, -, hstop, rfl⟩
    · refine ⟨fun ht => absurd ht (by simp), fun _ _ => ⟨rfl, rfl⟩, fun tr ht hne => ?_⟩
      rw [trapped_trap] at ht
      cases ht
      exact absurd rfl hne
    · refine ⟨fun _ => completeVector_vstart I s, fun _ ht => ?_, fun _ ht => ?_⟩ <;>
      · rw [completeVector_trap, hs] at ht
        cases ht
    · obtain ⟨hle, hlt, hactive, -⟩ := (canStopAt_iff I p s).mp hstop
      refine ⟨fun ht => absurd ht (by simp), fun pc ht => ?_, fun tr ht _ => ?_⟩ <;> rw [trapAtElement_trap] at ht
      · have hcause : stopCause p = .illegalInstruction := congrArg Trap.cause (Option.some.inj ht)
        unfold stopCause at hcause
        split at hcause <;> cases hcause
      · cases ht
        refine ⟨p, hp, rfl, rfl, rfl, hle, hlt, fun ⟨n, hn⟩ => hactive ?_⟩
        cases hint : p.isInterrupt with
        | false => rfl
        | true =>
          simp only [stopCause, hint, if_true] at hn
          cases hn
  · obtain ⟨req, mode, rd, hexec⟩ := exec_of_config hi s
    rw [hexec] at h
    rcases setConfig_cases h with ⟨rfl, -⟩ | ⟨rfl, -, -⟩ | ⟨f, vl, rfl, -⟩
    · exact ⟨fun ht => absurd ht (by simp), fun _ => rfl⟩
    · exact ⟨fun _ => rfl, fun ht => absurd hs ht⟩
    · exact ⟨fun _ => rfl, fun ht => absurd hs ht⟩

/-! ### What is left besides the vector destination -/

theorem completeVector_x_of_xreg {I : VInstr} {rd : RegNo} {v : Word} (h : I.dest = .xreg rd v) (s : State) :
    (completeVector I s).x = (setX s rd (zx s.cfg v)).x := by
  simp [completeVector, writeScalar, h]

theorem completeVector_x_of_ne {I : VInstr} (h : ∀ rd v, I.dest ≠ .xreg rd v) (s : State) :
    (completeVector I s).x = s.x := by
  cases hd : I.dest with
  | xreg rd v => exact absurd hd (h rd v)
  | group _ _ | mask _ _ _ | none => simp [completeVector, writeScalar, hd]

/-- An integer destination is written whatever `vstart` and `vl` are (R231). -/
theorem xWritten_completeVector {I : VInstr} {rd : RegNo} {v : Word} (h : I.dest = .xreg rd v) (s : State) :
    XWritten s (completeVector I s) rd (zx s.cfg v) :=
  xWritten_of (u := s) rfl rfl (completeVector_cfg I s) (completeVector_x_of_xreg h s) (zx_zx _ _)

theorem writeElements_of_le {s : State} (h : s.vl ≤ s.vstart) (I : VInstr) (stop : Option Nat) :
    writeElements I stop s = s.vreg := if_pos h

/-- Only a register group and a mask are written among the vector registers. -/
theorem writeElements_of_ne {I : VInstr} (hgroup : ∀ vd g, I.dest ≠ .group vd g)
    (hmask : ∀ vd g h, I.dest ≠ .mask vd g h) (stop : Option Nat) (s : State) : writeElements I stop s = s.vreg := by
  unfold writeElements
  cases hd : I.dest with
  | group vd g => exact absurd hd (hgroup vd g)
  | mask vd g f => exact absurd hd (hmask vd g f)
  | xreg _ _ | none => simp

/-- Settles O54. -/
theorem nothingIsWrittenAtOrPastVl : Obligations.NothingIsWrittenAtOrPastVl := fun I s hle =>
  ⟨(completeVector_vreg I s).trans (writeElements_of_le hle I none), completeVector_vstart I s,
    fun _ _ hd => xWritten_completeVector hd s⟩

/-- Settles O55. -/
theorem completingVectorInstructionFrame : Obligations.CompletingVectorInstructionFrame := by
  intro I s
  refine ⟨completeVector_vstart I s, pcAdvanced_of (completeVector_cfg I s) (completeVector_pc I s),
    vsObeysDirtyRule_completeVector I s, ?vxsat, fun hne => ?vl, fun n hcls => ?trim, completeVector_vtype I s,
    completeVector_vxrm I s, completeVector_cfg I s, completeVector_trap I s, completeVector_mstatusOther I s,
    completeVector_misaOther I s, fun a => by rw [completeVector_text], fun rd v hd => xWritten_completeVector hd s,
    fun hne => readX_congr (completeVector_cfg I s) (completeVector_x_of_ne hne s), fun hgroup hmask => ?vreg⟩
  case vxsat => simp [someSaturates_iff, reached]
  case vl => rw [completeVector_vl, vlAfter_of_ne hne]
  case trim => rw [completeVector_vl, hcls, vlAfter]
  case vreg => rw [completeVector_vreg, writeElements_of_ne hgroup hmask]

/-- Settles O56. -/
theorem stoppedVectorInstructionFrame : Obligations.StoppedVectorInstructionFrame := by
  intro I p s
  refine ⟨rfl, rfl, rfl, vsObeysDirtyRule_trapAtElement I p s, ?vxsat, rfl, rfl, rfl, rfl, rfl, rfl,
    fun r => readX_congr (s := s) rfl rfl r, fun _ => rfl, fun hgroup hmask => writeElements_of_ne hgroup hmask _ s⟩
  rw [trapAtElement_vxsat, Bool.or_eq_true, someSaturates_iff]
  simp only [reached, decide_eq_true_eq, and_left_comm (a := maskAllows I s _ = true)]

end Sys2Proof.Proofs
end

