-- ==== Sys2Proof/Proofs/VectorDestinations.lean ====
section
/-! PROOFS. What the elements of a vector destination become, when the instruction completes and when a trap stops it
(42_vector_instruction_frame.md sections 3 and 4, 43_fixed_point_rounding.md section 1, 60_exceptions.md section 3). -/

namespace Sys2Proof.Proofs

open Sys2Proof.Machine Sys2Proof.Laws

/-! ### One bit of an element, by the set that the element belongs to (R232, R237, R238) -/

section ElementBit

variable {I : VInstr} {s : State} {tailEnd x : Nat}

theorem elementSet_prestart (hx : x < s.vstart) : elementSet I s tailEnd x = .prestart := if_pos hx

theorem elementSet_body (hx : s.vstart ≤ x) (hvl : x < s.vl) :
    elementSet I s tailEnd x = if maskAllows I s x then .active else .inactive := by
  rw [elementSet, if_neg (by omega), if_pos hvl]

theorem elementSet_past (hx : s.vstart ≤ x) (hvl : s.vl ≤ x) :
    elementSet I s tailEnd x = if x < tailEnd then .tail else .outside := by
  rw [elementSet, if_neg (by omega), if_neg (by omega)]

variable {L : Layout} {stop : Option Nat} {old result : Bool}

theorem elementBit_prestart (hx : x < s.vstart) : elementBit I s L stop tailEnd x old result = old := by
  rw [elementBit, elementSet_prestart hx]

theorem elementBit_active (hx : s.vstart ≤ x) (hvl : x < s.vl) (hm : maskAllows I s x = true) :
    elementBit I s L stop tailEnd x old result = if reached stop x then result else old := by
  rw [elementBit, elementSet_body hx hvl, if_pos hm]

theorem elementBit_inactive (hx : s.vstart ≤ x) (hvl : x < s.vl) (hm : maskAllows I s x = false) :
    elementBit I s L stop tailEnd x old result =
      if reached stop x && L.maskAgnostic && Config.drawOnes s.draws x then true else old := by
  rw [elementBit, elementSet_body hx hvl, if_neg (by simp [hm])]

/-- A prestart element, and one of the body that the instruction did not get to, active or not, keeps its value. -/
theorem elementBit_kept (hx : x < s.vstart ∨ (reached stop x = false ∧ x < s.vl)) :
    elementBit I s L stop tailEnd x old result = old := by
  by_cases hlt : x < s.vstart
  · exact elementBit_prestart hlt
  · obtain ⟨hr, hvl⟩ := hx.resolve_left hlt
    cases hm : maskAllows I s x with
    | true => rw [elementBit_active (Nat.le_of_not_lt hlt) hvl hm, if_neg (by simp [hr])]
    | false => rw [elementBit_inactive (Nat.le_of_not_lt hlt) hvl hm, if_neg (by simp [hr])]

theorem elementBit_tail (hx : s.vstart ≤ x) (hvl : s.vl ≤ x) (ht : x < tailEnd) :
    elementBit I s L stop tailEnd x old result =
      if L.tailAgnostic && Config.drawOnes s.draws x then true else old := by
  rw [elementBit, elementSet_past hx hvl, if_pos ht]

end ElementBit

/-! ### The registers that are written -/

theorem writeElements_group {I : VInstr} {s : State} {L : Layout} {vd : RegNo} {result : Nat → VResult}
    (hd : I.dest = .group vd result) (hL : layoutOf I s = some L) (hv : s.vstart < s.vl) (stop : Option Nat) :
    writeElements I stop s = writeGroup I s L stop vd.toNat fun x => resultValue s.vxrm (result x) := by
  rw [writeElements, if_neg (by omega), hd, hL]

theorem writeElements_mask {I : VInstr} {s : State} {L : Layout} {vd : RegNo} {result full : Nat → Bool}
    (hd : I.dest = .mask vd result full) (hL : layoutOf I s = some L) (hv : s.vstart < s.vl) (stop : Option Nat) :
    writeElements I stop s = writeMask I s L stop vd result full := by
  rw [writeElements, if_neg (by omega), hd, hL]

/-- A register is the same in two states when it is the same cell, and a number of no register is 0 in both. -/
theorem vregBits_congr {s t : State} {r : Nat} (h : ∀ hr : r < 32, t.vreg[r] = s.vreg[r]) :
    vregBits t r = vregBits s r := by
  by_cases hr : r < 32
  · rw [vregBits_eq t hr, vregBits_eq s hr, h hr]
  · simp [vregBits, hr]

/-! ### A register group -/

/-- `t` holds what `I`, started in `s`, leaves in its destination, the `L.registers` registers from `vd` on: all of it,
or what it leaves when a trap stops it. -/
structure WritesGroup (I : VInstr) (s t : State) (L : Layout) (vd : RegNo) (result : Nat → VResult)
    (stop : Option Nat) : Prop where
  dest : I.dest = .group vd result
  layout : layoutOf I s = some L
  fits : LayoutFits s.cfg L
  body : s.vstart < s.vl
  inFile : vd.toNat + L.registers ≤ 32
  cfg : t.cfg = s.cfg
  vreg : t.vreg = writeElements I stop s

section Group

variable {I : VInstr} {s t : State} {L : Layout} {vd : RegNo} {result : Nat → VResult} {stop : Option Nat} {x : Nat}

theorem WritesGroup.bit (h : WritesGroup I s t L vd result stop) (hx : x < groupTailEnd s.cfg L) {j : Nat}
    (hj : j < L.width) : (elem t vd.toNat x L.width).getLsbD j =
      elementBit I s L stop (groupTailEnd s.cfg L) x ((elem s vd.toNat x L.width).getLsbD j)
        ((resultValue s.vxrm (result x)).testBit j) :=
  getLsbD_elem_of_group h.dest h.layout h.fits h.body h.inFile h.cfg h.vreg hx hj

theorem WritesGroup.kept (h : WritesGroup I s t L vd result stop) (hx : x < groupTailEnd s.cfg L)
    (hk : x < s.vstart ∨ (reached stop x = false ∧ x < s.vl)) :
    elem t vd.toNat x L.width = elem s vd.toNat x L.width :=
  BitVec.eq_of_getLsbD_eq fun j hj => by rw [h.bit hx hj, elementBit_kept hk]

theorem WritesGroup.active (h : WritesGroup I s t L vd result stop) (hx : x < groupTailEnd s.cfg L)
    (hle : s.vstart ≤ x) (hvl : x < s.vl) (hm : maskAllows I s x = true) (hr : reached stop x = true) :
    elem t vd.toNat x L.width = BitVec.ofNat L.width (resultValue s.vxrm (result x)) :=
  BitVec.eq_of_getLsbD_eq fun j hj => by
    rw [h.bit hx hj, elementBit_active hle hvl hm, if_pos hr, BitVec.getLsbD_ofNat, decide_eq_true hj, Bool.true_and]

/-- An element all of whose bits are kept or set by the one draw is kept whole or is all ones. -/
theorem elem_kept_or_ones {w : Nat} {new old : BitVec w} {agnostic drawn : Bool}
    (h : ∀ j < w, new.getLsbD j = if agnostic && drawn then true else old.getLsbD j) :
    new = old ∨ (agnostic = true ∧ new = BitVec.allOnes w) := by
  cases hdraw : agnostic && drawn with
  | true =>
    refine .inr ⟨(Bool.and_eq_true_iff.mp hdraw).1, BitVec.eq_of_getLsbD_eq fun j hj => ?_⟩
    rw [h j hj, if_pos hdraw, BitVec.getLsbD_allOnes, decide_eq_true hj]
  | false => exact .inl (BitVec.eq_of_getLsbD_eq fun j hj => by rw [h j hj, if_neg (by simp [hdraw])])

theorem WritesGroup.inactive (h : WritesGroup I s t L vd result stop) (hx : x < groupTailEnd s.cfg L)
    (hle : s.vstart ≤ x) (hvl : x < s.vl) (hm : maskAllows I s x = false) :
    elem t vd.toNat x L.width = elem s vd.toNat x L.width ∨
      (L.maskAgnostic = true ∧ elem t vd.toNat x L.width = BitVec.allOnes L.width) :=
  elem_kept_or_ones (drawn := reached stop x && Config.drawOnes s.draws x) fun j hj => by
    rw [h.bit hx hj, elementBit_inactive hle hvl hm, Bool.and_assoc, Bool.and_left_comm]

theorem WritesGroup.tail (h : WritesGroup I s t L vd result stop) (hx : x < groupTailEnd s.cfg L) (hvl : s.vl ≤ x) :
    elem t vd.toNat x L.width = elem s vd.toNat x L.width ∨
      (L.tailAgnostic = true ∧ elem t vd.toNat x L.width = BitVec.allOnes L.width) :=
  elem_kept_or_ones fun _ hj => by rw [h.bit hx hj, elementBit_tail (h.body.le.trans hvl) hvl hx]

theorem WritesGroup.otherRegister (h : WritesGroup I s t L vd result stop) {r : Nat}
    (hr : r < vd.toNat ∨ vd.toNat + L.registers ≤ r) : vregBits t r = vregBits s r :=
  vregBits_congr fun hlt => by
    simp only [h.vreg, writeElements_group h.dest h.layout h.body]
    rw [writeGroup_getElem _ _ _ _ _ _ _ hlt, if_neg (by omega)]

end Group

/-- The group that a completing instruction leaves. -/
theorem writesGroup_completeVector {I : VInstr} {s : State} {L : Layout} {vd : RegNo} {result : Nat → VResult}
    (hd : I.dest = .group vd result) (hL : layoutOf I s = some L) (hfits : LayoutFits s.cfg L) (hv : s.vstart < s.vl)
    (hfile : vd.toNat + L.registers ≤ 32) : WritesGroup I s (completeVector I s) L vd result none :=
  ⟨hd, hL, hfits, hv, hfile, completeVector_cfg I s, completeVector_vreg I s⟩

/-- The group that a stopped instruction leaves. -/
theorem writesGroup_trapAtElement {I : VInstr} {s : State} {L : Layout} {vd : RegNo} {result : Nat → VResult}
    (hd : I.dest = .group vd result) (hL : layoutOf I s = some L) (hfits : LayoutFits s.cfg L) (hv : s.vstart < s.vl)
    (hfile : vd.toNat + L.registers ≤ 32) (p : Stop) :
    WritesGroup I s (trapAtElement I p s) L vd result (some p.element) :=
  ⟨hd, hL, hfits, hv, hfile, trapAtElement_cfg I p s, trapAtElement_vreg I p s⟩

/-- Settles O51. -/
theorem groupDestinationElements : Obligations.GroupDestinationElements := by
  intro I s L vd result hd hL hfits hv hfile
  have h := writesGroup_completeVector hd hL hfits hv hfile
  exact ⟨fun x hx => ⟨fun hlt => h.kept hx (.inl hlt), fun hle hvl hm => h.active hx hle hvl hm rfl, h.inactive hx,
    h.tail hx⟩, fun r => h.otherRegister⟩

/-! ### A mask register -/

/-- The same for a mask destination, the register `vd`. -/
structure WritesMask (I : VInstr) (s t : State) (L : Layout) (vd : RegNo) (result full : Nat → Bool)
    (stop : Option Nat) : Prop where
  dest : I.dest = .mask vd result full
  layout : layoutOf I s = some L
  body : s.vstart < s.vl
  cfg : t.cfg = s.cfg
  vreg : t.vreg = writeElements I stop s

section Mask

variable {I : VInstr} {s t : State} {L : Layout} {vd : RegNo} {result full : Nat → Bool} {stop : Option Nat} {x : Nat}

/-- Below `vl` a bit of a mask is treated as an element of a group is. -/
theorem maskDestBit_of_lt (hvl : x < s.vl) (old res : Bool) :
    maskDestBit I s L stop full x old res = elementBit I s L stop s.cfg.vlen x old res := by
  have hne : elementSet I s s.cfg.vlen x ≠ .tail := by
    by_cases hx : x < s.vstart
    · simp [elementSet_prestart hx]
    · rw [elementSet_body (by omega) hvl]
      split <;> simp
  unfold maskDestBit
  split
  next htail => exact absurd htail hne
  next => rfl

theorem WritesMask.bit (h : WritesMask I s t L vd result full stop) (hx : x < s.cfg.vlen) (hvl : x < s.vl) :
    vregBit t vd.toNat x = elementBit I s L stop s.cfg.vlen x (vregBit s vd.toNat x) (result x) := by
  rw [vregBit_of_mask h.dest h.layout h.body h.cfg h.vreg hx, maskDestBit_of_lt hvl]

theorem WritesMask.kept (h : WritesMask I s t L vd result full stop) (hx : x < s.cfg.vlen)
    (hk : x < s.vstart ∨ (reached stop x = false ∧ x < s.vl)) : vregBit t vd.toNat x = vregBit s vd.toNat x := by
  rw [h.bit hx (hk.elim (·.trans h.body) (·.2)), elementBit_kept hk]

theorem WritesMask.active (h : WritesMask I s t L vd result full stop) (hx : x < s.cfg.vlen) (hle : s.vstart ≤ x)
    (hvl : x < s.vl) (hm : maskAllows I s x = true) (hr : reached stop x = true) :
    vregBit t vd.toNat x = result x := by
  rw [h.bit hx hvl, elementBit_active hle hvl hm, if_pos hr]

theorem WritesMask.inactive (h : WritesMask I s t L vd result full stop) (hx : x < s.cfg.vlen) (hle : s.vstart ≤ x)
    (hvl : x < s.vl) (hm : maskAllows I s x = false) : vregBit t vd.toNat x = vregBit s vd.toNat x ∨
      (L.maskAgnostic = true ∧ vregBit t vd.toNat x = true) := by
  rw [h.bit hx hvl, elementBit_inactive hle hvl hm]
  split
  next hones =>
    simp only [Bool.and_eq_true] at hones
    exact .inr ⟨hones.1.2, rfl⟩
  next => exact .inl rfl

/-- The tail of a mask is agnostic whatever the policies are (R239 to R241). -/
theorem WritesMask.tail (h : WritesMask I s t L vd result full stop) (hx : x < s.cfg.vlen) (hvl : s.vl ≤ x) :
    vregBit t vd.toNat x = vregBit s vd.toNat x ∨ vregBit t vd.toNat x = true ∨
      (I.cls ≠ .maskLoad ∧ x < L.elements ∧ vregBit t vd.toNat x = full x) := by
  rw [vregBit_of_mask h.dest h.layout h.body h.cfg h.vreg hx, maskDestBit,
    elementSet_past (h.body.le.trans hvl) hvl, if_pos hx]
  cases Config.drawMaskTail s.draws x with
  | keep => exact .inl rfl
  | one => exact .inr (.inl rfl)
  | full =>
    simp only
    split
    next hfull =>
      simp only [Bool.and_eq_true, decide_eq_true_eq] at hfull
      exact .inr (.inr ⟨hfull.1, hfull.2, rfl⟩)
    next => exact .inl rfl

theorem WritesMask.otherRegister (h : WritesMask I s t L vd result full stop) {r : Nat} (hr : r ≠ vd.toNat) :
    vregBits t r = vregBits s r :=
  vregBits_congr fun hlt => by
    simp only [h.vreg, writeElements_mask h.dest h.layout h.body]
    rw [writeMask_getElem _ _ _ _ _ _ _ _ hlt, if_neg (Ne.symm hr)]

end Mask

/-- Settles O52. -/
theorem maskDestinationBits : Obligations.MaskDestinationBits := by
  intro I s L vd result full hd hL hv
  have h : WritesMask I s (completeVector I s) L vd result full none :=
    ⟨hd, hL, hv, completeVector_cfg I s, completeVector_vreg I s⟩
  exact ⟨fun x hx => ⟨fun hlt => h.kept hx (.inl hlt), fun hle hvl hm => h.active hx hle hvl hm rfl, h.inactive hx,
    h.tail hx⟩, fun r => h.otherRegister⟩

/-! ### A stopped instruction (60_exceptions.md R286) -/

/-- Settles O57. -/
theorem stoppedDestinationElements : Obligations.StoppedDestinationElements := by
  intro I p s L vd hL hv
  have kept : ∀ {x}, x < s.vstart ∨ p.element ≤ x ∧ x < s.vl →
      x < s.vstart ∨ reached (some p.element) x = false ∧ x < s.vl :=
    fun h => h.imp_right fun ⟨hle, hvl⟩ => ⟨decide_eq_false hle.not_gt, hvl⟩
  refine ⟨fun result hd hfits hfile => ?group, fun result full hd => ?mask⟩
  case group =>
    have h := writesGroup_trapAtElement hd hL hfits hv hfile p
    exact ⟨fun x hx => ⟨fun hk => h.kept hx (kept hk),
      fun hle hvl he hm => h.active hx hle hvl hm (decide_eq_true he), fun hle hvl _ => h.inactive hx hle hvl,
      h.tail hx⟩, fun r => h.otherRegister⟩
  case mask =>
    have h : WritesMask I s (trapAtElement I p s) L vd result full (some p.element) := ⟨hd, hL, hv, rfl, rfl⟩
    exact ⟨fun x hx => ⟨fun hk => h.kept hx (kept hk),
      fun hle hvl he hm => h.active hx hle hvl hm (decide_eq_true he), fun hle hvl _ => h.inactive hx hle hvl,
      h.tail hx⟩, fun r => h.otherRegister⟩

/-! ### Fixed-point results (43_fixed_point_rounding.md R261, R262, R265) -/

/-- The increment of each mode, as a number. -/
theorem roundIncrement_toNat {w : Nat} (v : BitVec w) (d : Nat) (vxrm : BitVec 2) : (roundIncrement v d vxrm).toNat =
    if d = 0 then 0
    else if vxrm = 0#2 then (v.getLsbD (d - 1)).toNat
    else if vxrm = 1#2 then
      (v.getLsbD (d - 1) && (decide (v.toNat % 2 ^ (d - 1) ≠ 0) || v.getLsbD d)).toNat
    else if vxrm = 2#2 then 0
    else (!v.getLsbD d && decide (v.toNat % 2 ^ d ≠ 0)).toNat := by
  simp only [roundIncrement, lowBits]
  split
  · rfl
  split
  · rfl
  split
  · rfl
  split <;> rfl

theorem roundoff_eq (pre : PreRounding) (vxrm : BitVec 2) : roundoff pre vxrm =
    (if pre.isSigned then pre.value.toInt else (pre.value.toNat : Int)) / 2 ^ pre.shift.val +
      ((roundIncrement pre.value pre.shift vxrm).toNat : Nat) := by
  unfold roundoff
  split
  · rfl
  · simp [roundoffUnsigned]

/-- Settles O53. -/
theorem fixedPointResultsReadVxrm : Obligations.FixedPointResultsReadVxrm := by
  refine ⟨fun I s L vd result x pre fit saturates hd hL hfits hfile hle hvl hx hm hres => ?_, fun pre vxrm => ?_⟩
  · have hv : s.vstart < s.vl := hle.trans_lt hvl
    have hvalue : resultValue s.vxrm (result x) = fit (roundoff pre s.vxrm) := by rw [hres, resultValue]
    refine ⟨?_, fun p hp => ?_, fun hcls hsat => ?_⟩
    · rw [← hvalue]
      exact (writesGroup_completeVector hd hL hfits hv hfile).active hx hle hvl hm rfl
    · rw [← hvalue]
      exact (writesGroup_trapAtElement hd hL hfits hv hfile p).active hx hle hvl hm (decide_eq_true hp)
    · have hat : saturatesAt I s x = true := by simp [saturatesAt, hd, hres, roundingSaturates, hsat]
      have hsome : someSaturates I none s = true :=
        (someSaturates_iff I none s).mpr ⟨hcls, x, hle, hvl, hm, rfl, hat⟩
      rw [completeVector_vxsat, hsome, Bool.or_true]
  · rw [roundoff_eq, roundIncrement_toNat]

end Sys2Proof.Proofs
end

