-- ==== Sys2Proof/Proofs/Resumption.lean ====
section
/-! PROOFS. A vector instruction that a trap stopped at an element, executed again in the state that the trap left
(60_exceptions.md section 3, R287). -/

namespace Sys2Proof.Proofs

open Sys2Proof.Machine Sys2Proof.Laws

/-! ### The state in which the instruction is executed again -/

/-- `Base` resumes at the address of the instruction that the trap `p` stopped. -/
def resumed (I : VInstr) (p : Stop) (s : State) : State := resumeAt (readPc s) (trapAtElement I p s)

section Resumed

variable (I : VInstr) (p : Stop) (s : State)

@[simp] theorem resumed_cfg : (resumed I p s).cfg = s.cfg := rfl
@[simp] theorem resumed_x : (resumed I p s).x = s.x := rfl
@[simp] theorem resumed_vl : (resumed I p s).vl = s.vl := rfl
@[simp] theorem resumed_trap : (resumed I p s).trap = none := rfl
@[simp] theorem resumed_vreg : (resumed I p s).vreg = writeElements I (some p.element) s := rfl
@[simp] theorem resumed_vxsat :
    (resumed I p s).vxsat = (s.vxsat || someSaturates I (some p.element) s) := rfl

theorem readPc_resumed : readPc (resumed I p s) = readPc s := by
  have h : readPc (resumed I p s) = zx s.cfg (zx s.cfg (readPc s)) := rfl
  rw [h, zx_zx, readPc, zx_zx]

theorem resumed_vs : (resumed I p s).vs = s.vs ∨ (resumed I p s).vs = .dirty := by
  obtain ⟨-, -, hmove, -⟩ := vsObeysDirtyRule_trapAtElement I p s
  exact hmove

theorem layoutOf_resumed : layoutOf I (resumed I p s) = layoutOf I s := rfl

end Resumed

/-- The sources that a trap at element `e` must leave intact contain the mask (R287). -/
theorem maskAllows_of_sourcesIntact {I : VInstr} {e : Nat} {s t : State} (h : sourcesIntact I e s t = true) {x : Nat}
    (he : e ≤ x) (hvl : x < s.vl) : maskAllows I t x = maskAllows I s x := by
  have hx := List.all_eq_true.mp h x (List.mem_range.mpr hvl)
  rw [decide_eq_false (Nat.not_lt.mpr he), Bool.false_or] at hx
  obtain ⟨hmask, -⟩ := Bool.and_eq_true_iff.mp hx
  unfold maskAllows
  cases hmasked : I.masked with
  | false => rfl
  | true => simpa [hmasked] using hmask

theorem maskAllows_resumed {I : VInstr} {p : Stop} {s : State} (h : canStopAt I p s = true) {x : Nat}
    (he : p.element ≤ x) (hvl : x < s.vl) : maskAllows I (resumed I p s) x = maskAllows I s x := by
  obtain ⟨-, -, -, -, -, hintact⟩ := (canStopAt_iff I p s).mp h
  exact maskAllows_of_sourcesIntact hintact he hvl

/-! ### It passes its checks -/

/-- What the checks look at is unchanged but for `vstart`, which is an index below VLMAX that the implementation
produces for the instruction. -/
theorem frameChecksPass_resumed {I : VInstr} {p : Stop} {s : State} (hpass : FrameChecksPass I s)
    (hstop : canStopAt I p s = true) (hs : ConfigConsistent s.cfg s.vtype s.vl) :
    FrameChecksPass I (resumed I p s) := by
  obtain ⟨-, hvl, -, hzero, hlegal, -⟩ := (canStopAt_iff I p s).mp hstop
  refine ⟨fun hoff => ?_, hpass.typed, hzero, hlegal, fun hd => ?_, hpass.large, hpass.numbered⟩
  · rcases resumed_vs I p s with hvs | hvs
    · exact hpass.on (hvs.symm.trans hoff)
    · exact absurd (hvs.symm.trans hoff) (by simp)
  · have hmax : currentVlmax (resumed I p s) = currentVlmax s := rfl
    cases hty : s.vtype with
    | illegal => exact absurd hty (hpass.typed hd)
    | legal f =>
      rw [hty] at hs
      rw [hmax, currentVlmax_legal hty]
      exact hvl.trans_le hs.2

/-! ### The elements come out the same -/

section Element

variable {I : VInstr} {s : State} {L : Layout} {stop : Option Nat} {tailEnd x : Nat} {old result : Bool}

/-- With both policies undisturbed an element past the body, and an inactive one, keep their bits. -/
theorem elementBit_undisturbed (hL : L.tailAgnostic = false ∧ L.maskAgnostic = false)
    (hx : x < s.vl → maskAllows I s x = false) : elementBit I s L stop tailEnd x old result = old := by
  obtain ⟨htail, hmask⟩ := hL
  by_cases hlt : x < s.vstart
  · exact elementBit_prestart hlt
  · have hle : s.vstart ≤ x := Nat.le_of_not_lt hlt
    by_cases hvl : x < s.vl
    · rw [elementBit_inactive hle hvl (hx hvl), hmask]
      simp
    · have hpast : s.vl ≤ x := Nat.le_of_not_lt hvl
      by_cases hend : x < tailEnd
      · rw [elementBit_tail hle hpast hend, htail]
        simp
      · rw [elementBit, elementSet_past hle hpast, if_neg hend]

/-- What the second run makes of what the first one left is what one run makes of the old bit. -/
theorem elementBit_resumed {p : Stop} (hstop : canStopAt I p s = true)
    (hL : L.tailAgnostic = false ∧ L.maskAgnostic = false) :
    elementBit I (resumed I p s) L none tailEnd x (elementBit I s L (some p.element) tailEnd x old result) result =
      elementBit I s L none tailEnd x old result := by
  obtain ⟨hle, -⟩ := (canStopAt_iff I p s).mp hstop
  by_cases he : x < p.element
  case pos =>
    rw [elementBit_prestart (s := resumed I p s) he]
    have hreached : ∀ y, y < p.element → reached (some p.element) y = reached none y := fun y hy => decide_eq_true hy
    unfold elementBit
    rw [hreached x he]
  case neg =>
    have he : p.element ≤ x := Nat.le_of_not_lt he
    have hx : s.vstart ≤ x := hle.trans he
    by_cases hactive : x < s.vl ∧ maskAllows I s x = true
    · obtain ⟨hvl, hm⟩ := hactive
      rw [elementBit_active (s := resumed I p s) he hvl ((maskAllows_resumed hstop he hvl).trans hm),
        elementBit_active (stop := none) hx hvl hm]
      rfl
    · have hinactive : x < s.vl → maskAllows I s x = false := fun hvl => by
        simpa [hvl] using hactive
      rw [elementBit_undisturbed (s := resumed I p s) hL fun hvl =>
          (maskAllows_resumed hstop he hvl).trans (hinactive hvl),
        elementBit_undisturbed hL hinactive, elementBit_undisturbed hL hinactive]

end Element

/-- A register group holds after both runs what it holds after one. -/
theorem writeGroup_resumed {I : VInstr} {p : Stop} {s : State} {L : Layout} {vd : RegNo} {result : Nat → VResult}
    (hstop : canStopAt I p s = true) (hpolicies : L.tailAgnostic = false ∧ L.maskAgnostic = false)
    (hd : I.dest = .group vd result) (hL : layoutOf I s = some L) :
    writeElements I none (resumed I p s) = writeElements I none s := by
  obtain ⟨hle, hvl, -⟩ := (canStopAt_iff I p s).mp hstop
  have hbody : s.vstart < s.vl := hle.trans_lt hvl
  have hmid : (resumed I p s).vreg =
      writeGroup I s L (some p.element) vd.toNat fun x => resultValue s.vxrm (result x) := by
    rw [resumed_vreg, writeElements_group hd hL hbody]
  rw [writeElements_group hd (layoutOf_resumed I p s ▸ hL) hvl, writeElements_group hd hL hbody]
  apply Vector.ext
  intro r hr
  rw [writeGroup_getElem _ _ _ _ _ _ r hr, writeGroup_getElem _ _ _ _ _ _ r hr]
  split
  next hin =>
    refine natOfBits_congr fun b hb => ?_
    have hbit : vregBit (resumed I p s) r b =
        elementBit I s L (some p.element) (groupTailEnd s.cfg L) (elementAt s.cfg L (r - vd.toNat) b) (vregBit s r b)
          ((resultValue s.vxrm (result (elementAt s.cfg L (r - vd.toNat) b))).testBit (b % L.width)) := by
      have hb' : b < s.cfg.vlen := hb
      rw [vregBit, resumed_cfg, vregBits_eq _ hr]
      simp only [hmid]
      rw [writeGroup_getElem _ _ _ _ _ _ r hr, if_pos hin, testBit_natOfBits]
      simp only [hb', decide_true, Bool.true_and]
    rw [hbit]
    exact elementBit_resumed hstop hpolicies
  next hout =>
    simp only [hmid]
    rw [writeGroup_getElem _ _ _ _ _ _ r hr, if_neg hout]

theorem writeElements_of_layout_none {I : VInstr} {s : State} (hL : layoutOf I s = none) (stop : Option Nat) :
    writeElements I stop s = s.vreg := by
  unfold writeElements
  split
  · rfl
  · cases I.dest <;> simp [hL]

/-- So do the vector registers, whatever the destination is but a mask. -/
theorem writeElements_resumed {I : VInstr} {p : Stop} {s : State} (hstop : canStopAt I p s = true)
    (hpolicies : ∀ L, layoutOf I s = some L → L.tailAgnostic = false ∧ L.maskAgnostic = false)
    (hmask : ∀ vd g h, I.dest ≠ .mask vd g h) :
    writeElements I none (resumed I p s) = writeElements I none s := by
  have nothing : (∀ stop s', layoutOf I s' = layoutOf I s → writeElements I stop s' = s'.vreg) →
      writeElements I none (resumed I p s) = writeElements I none s := fun h => by
    rw [h none _ (layoutOf_resumed I p s), resumed_vreg, h _ s rfl, h _ s rfl]
  cases hL : layoutOf I s with
  | none => exact nothing fun stop s' hL' => writeElements_of_layout_none (hL'.trans hL) stop
  | some L =>
    cases hd : I.dest with
    | group vd result => exact writeGroup_resumed hstop (hpolicies L hL) hd hL
    | mask vd g h => exact absurd hd (hmask vd g h)
    | xreg _ _ | none => exact nothing fun stop s' _ => writeElements_of_ne (by simp [hd]) hmask stop s'

/-! ### So do the flag and the integer registers -/

/-- An element that saturates does so below the trap or from it on. -/
theorem someSaturates_resumed {I : VInstr} {p : Stop} {s : State} (hstop : canStopAt I p s = true) :
    (someSaturates I (some p.element) s || someSaturates I none (resumed I p s)) = someSaturates I none s := by
  obtain ⟨hle, -⟩ := (canStopAt_iff I p s).mp hstop
  rw [Bool.eq_iff_iff, Bool.or_eq_true, someSaturates_iff, someSaturates_iff, someSaturates_iff]
  constructor
  · rintro (⟨hcls, x, hx, hvl, hm, -, hsat⟩ | ⟨hcls, x, he, hvl, hm, -, hsat⟩)
    · exact ⟨hcls, x, hx, hvl, hm, rfl, hsat⟩
    · rw [maskAllows_resumed hstop he hvl] at hm
      exact ⟨hcls, x, hle.trans he, hvl, hm, rfl, hsat⟩
  · rintro ⟨hcls, x, hx, hvl, hm, -, hsat⟩
    by_cases he : x < p.element
    · exact .inl ⟨hcls, x, hx, hvl, hm, decide_eq_true he, hsat⟩
    · have he : p.element ≤ x := Nat.le_of_not_lt he
      exact .inr ⟨hcls, x, he, hvl, (maskAllows_resumed hstop he hvl).trans hm, rfl, hsat⟩

theorem completeVector_x_resumed (I : VInstr) (p : Stop) (s : State) :
    (completeVector I (resumed I p s)).x = (completeVector I s).x := by
  cases hd : I.dest with
  | xreg rd v => rw [completeVector_x_of_xreg hd, completeVector_x_of_xreg hd, setX_x, setX_x, resumed_x, resumed_cfg]
  | group _ _ | mask _ _ _ | none =>
    rw [completeVector_x_of_ne (by simp [hd]), completeVector_x_of_ne (by simp [hd]), resumed_x]

theorem readPc_completeVector_resumed (I : VInstr) (p : Stop) (s : State) :
    readPc (completeVector I (resumed I p s)) = readPc (completeVector I s) := by
  have hadvance : ∀ s', (readPc (completeVector I s')).toNat = ((readPc s').toNat + 4) % 2 ^ xlenBits s'.cfg :=
    fun s' => pcAdvanced_of (completeVector_cfg I s') (completeVector_pc I s')
  apply BitVec.eq_of_toNat_eq
  rw [hadvance, hadvance, readPc_resumed, resumed_cfg]

/-- A trap that is not the exception of the checks was taken at an element. -/
theorem stopped_of_trap {I : VInstr} {stop : Option Stop} {s t : State} {tr : Trap} (hs : s.trap = none)
    (h : vectorInstruction I stop s = .next t) (ht : t.trap = some tr) (hcause : tr.cause ≠ .illegalInstruction) :
    ∃ p, FrameChecksPass I s ∧ canStopAt I p s = true ∧ t = trapAtElement I p s := by
  rcases vectorInstruction_cases h with rfl | ⟨-, rfl⟩ | ⟨p, -, hpass, hstop, rfl⟩
  · rw [trapped_trap] at ht
    cases ht
    exact absurd rfl hcause
  · rw [completeVector_trap, hs] at ht
    cases ht
  · exact ⟨p, hpass, hstop, rfl⟩

/-- Settles O58. -/
theorem resumedRunEqualsUninterrupted : Obligations.ResumedRunEqualsUninterrupted := by
  intro I stop s t tr hs hconsistent hpolicies hmask h ht hcause
  obtain ⟨p, hpass, hstop, rfl⟩ := stopped_of_trap hs h ht hcause
  have hagain : FrameChecksPass I (resumed I p s) := frameChecksPass_resumed hpass hstop hconsistent
  refine ⟨completeVector I (resumed I p s), vectorInstruction_none_of_pass hagain, ?trap, completeVector_vstart I _,
    ?vreg, ?vxsat, ?vl, readX_congr (by simp) (completeVector_x_resumed I p s), readPc_completeVector_resumed I p s⟩
  case trap => rw [completeVector_trap, resumed_trap]
  case vreg => rw [completeVector_vreg, completeVector_vreg, writeElements_resumed hstop hpolicies hmask]
  case vxsat =>
    rw [completeVector_vxsat, completeVector_vxsat, resumed_vxsat, Bool.or_assoc, someSaturates_resumed hstop]
  case vl => rw [completeVector_vl, completeVector_vl, resumed_vl]

end Sys2Proof.Proofs
end
